-- ==== Sys2Proof/Word.lean ====
section
/-! DEFINITION. The widths of the framer: bytes and 16-bit FCS words (00_scope.md R9). -/

namespace Sys2Proof

/-- A byte: an unsigned 8-bit value (R9). -/
abbrev Byte := BitVec 8

/-- A 16-bit word: the width of the FCS register and of a table entry (R24, R100). -/
abbrev Half := BitVec 16

end Sys2Proof
end

