-- ==== Sys2Proof/Machine/Operands.lean ====
section
/-! DEFINITION. Operand assembly: the halves of a word (00_scope.md R9), byte order (20_memory.md R54), integer
fields (30_encoding.md R89) and slices (00_scope.md R10). -/

namespace Sys2Proof

/-- `lo8(v) = v[7:0]` (R9). -/
def lo8 (v : Half) : Byte := v.extractLsb' 0 8

/-- `hi8(v) = v[15:8]` (R9). -/
def hi8 (v : Half) : Byte := v.extractLsb' 8 8

end Sys2Proof

namespace Sys2Proof.Machine

/-- `LE_k(v)`: the `k` low bytes of `v`, least significant first (R54). -/
def leBytes : Nat → Nat → List Byte
  | 0, _ => []
  | k + 1, v => BitVec.ofNat 8 v :: leBytes k (v / 256)

/-- `FromLE_k(b)` for the `k` bytes of the sequence `b` (R54). -/
def fromLE : List Byte → Nat
  | [] => 0
  | b :: bs => b.toNat + 256 * fromLE bs

/-- `u32_to_i32(u)` (R9): `u` if `u < 2^31`, else `u - 2^32`. -/
def u32ToI32 (u : Nat) : Int := if u < 2147483648 then (u : Int) else (u : Int) - 4294967296

/-- `n mod 2^32`, the unsigned form of an `i32` (R89, R175). -/
def i32ToU32 (n : Int) : Nat := (n % 4294967296).toNat

/-- `s[i..i+n)` (R10). -/
def slice (s : List Byte) (i n : Nat) : List Byte := (s.drop i).take n

/-- `need(n)` at cursor `c` (42_argcodec.md R183): the `n` bytes at `c`, or `none` (Starved) when
`c + n > |in|`. -/
def need (input : List Byte) (c n : Nat) : Option (List Byte) :=
  if c + n ≤ input.length then some (slice input c n) else none

end Sys2Proof.Machine
end

