-- ==== Sys2Proof/Config.lean ====
section
/-! DEFINITION. The implementation parameters of 00_scope.md R7, one field each. No rule of the model names a
default: the defaults and the legality check of R8 stand in Machine/Params.lean. -/

namespace Sys2Proof

/-- The parameters of R7. They are fixed before the first operation and no operation changes them (R43). -/
structure Config where
  /-- `MAX_FRAME`: largest payload, in bytes, a frame may carry. -/
  maxFrame : Nat
  /-- `HDLC_FLAG`: frame-flag octet. -/
  hdlcFlag : Byte
  /-- `HDLC_ESC`: escape octet. -/
  hdlcEsc : Byte
  /-- `HDLC_XON`: first flow-control reserved octet. -/
  hdlcXon : Byte
  /-- `HDLC_XOFF`: second flow-control reserved octet. -/
  hdlcXoff : Byte
  /-- `ESC_XOR`: value XORed into an escaped byte. -/
  escXor : Byte
  /-- `ESCAPE_SET`: octets the encoder escapes. -/
  escapeSet : List Byte
  /-- `FCS_POLY`: FCS-16 generator, bit-reflected form. -/
  fcsPoly : Half
  /-- `FCS_INIT`: FCS register initial value. -/
  fcsInit : Half
  /-- `FCS_XOROUT`: value XORed into the register to give the FCS. -/
  fcsXorout : Half
  /-- `HDLC_RX_CAP`: decoder buffer capacity in decoded bytes, FCS included. -/
  hdlcRxCap : Nat
  /-- `FLEN_LEN_BYTES`: FLEN header width in bytes. -/
  flenLenBytes : Nat
  /-- `FLEN_MAX`: largest FLEN payload. -/
  flenMax : Nat
  /-- `BLOB_LEN_BYTES`: width of a blob's length prefix. -/
  blobLenBytes : Nat
  /-- `ARG_MAX_DEPTH`: deepest nesting of structures in a descriptor. -/
  argMaxDepth : Nat
deriving DecidableEq, Repr

end Sys2Proof
end

