-- ==== Sys2Proof/Machine/Params.lean ====
section
/-! DEFINITION. The legality check of 00_scope.md R8, the two parameters other rules fix, and the defaults of R7. -/

namespace Sys2Proof.Machine

/-- The four reserved octets (R105: `ESCAPE_SET` has exactly these members). -/
def reservedOctets (c : Config) : List Byte := [c.hdlcFlag, c.hdlcEsc, c.hdlcXon, c.hdlcXoff]

/-- R8 (a): four distinct octets. -/
def octetsDistinct (c : Config) : Bool :=
  decide (c.hdlcFlag ≠ c.hdlcEsc) && decide (c.hdlcFlag ≠ c.hdlcXon) && decide (c.hdlcFlag ≠ c.hdlcXoff) &&
    decide (c.hdlcEsc ≠ c.hdlcXon) && decide (c.hdlcEsc ≠ c.hdlcXoff) && decide (c.hdlcXon ≠ c.hdlcXoff)

/-- R8 (b): no escaped form of a member of `ESCAPE_SET` is itself in `ESCAPE_SET`. -/
def escapesUnreserved (c : Config) : Bool :=
  c.escapeSet.all fun v => !c.escapeSet.contains (v ^^^ c.escXor)

/-- R8: a configuration is legal only if (a) to (e) hold. -/
def configLegal (c : Config) : Bool :=
  octetsDistinct c && escapesUnreserved c && decide (1 ≤ c.maxFrame) &&
    decide (c.flenMax ≤ 2 ^ (8 * c.flenLenBytes) - 1) && decide (1 ≤ c.argMaxDepth)

/-- The relations between parameters that rules other than R8 state: `ESCAPE_SET` has exactly the four reserved
octets (R105), the decoder's capacity is `MAX_FRAME` plus the two FCS bytes (R28), and a header has at least one
byte (R30 gives `fl.hcount` the range 0 to `FLEN_LEN_BYTES - 1`). They are no part of R8, so `step` does not refuse
a configuration without them; statements that need them say so (log 14). -/
def configStandard (c : Config) : Prop :=
  (∀ v, v ∈ c.escapeSet ↔ v ∈ reservedOctets c) ∧ c.hdlcRxCap = c.maxFrame + 2 ∧ 1 ≤ c.flenLenBytes

/-- The defaults of R7. PRESUMED (the spec's general-knowledge values, 93 G1, G3, G4, G12): the four octets, the
FCS constants and the blob prefix width (log 1). DESIGN CHOICE: `MAX_FRAME` is OPEN and takes the test vectors'
1500 (log 2). -/
def defaultConfig : Config where
  maxFrame := 1500
  hdlcFlag := 0x7E#8
  hdlcEsc := 0x7D#8
  hdlcXon := 0x11#8
  hdlcXoff := 0x13#8
  escXor := 0x20#8
  escapeSet := [0x7E#8, 0x7D#8, 0x11#8, 0x13#8]
  fcsPoly := 0x8408#16
  fcsInit := 0xFFFF#16
  fcsXorout := 0xFFFF#16
  hdlcRxCap := 1502
  flenLenBytes := 2
  flenMax := 1500
  blobLenBytes := 2
  argMaxDepth := 8

end Sys2Proof.Machine
end

