-- ==== Sys2Proof/Syntax.lean ====
section
/-! DEFINITION. What the host hands over and what a descriptor says: values (42_argcodec.md R166), tags
(30_encoding.md R81), descriptor items (42_argcodec.md R160), the instructions (every row of
spec/opcode_table.json) and the form an instruction is given in (30_encoding.md R70, R71). -/

namespace Sys2Proof

mutual
/-- A typed argument (R166). Each integer constructor names its width; whether the number fits is R169's check,
so an out-of-range value can be written down and refused. -/
inductive Value where
  | bool (x : Bool)
  | u8 (n : Int)
  | u16 (n : Int)
  | u32 (n : Int)
  | i32 (n : Int)
  | blob (bytes : List Byte)
  | str (bytes : List Byte)
  | struct (vs : Values)
  | array (vs : Values)
deriving DecidableEq, Repr

/-- A sequence of values (R166). -/
inductive Values where
  | nil
  | cons (v : Value) (vs : Values)
deriving DecidableEq, Repr
end

/-- `|vs|`. -/
def Values.length : Values → Nat
  | .nil => 0
  | .cons _ vs => vs.length + 1

/-- `vs ++ ws` (R10). -/
def Values.append : Values → Values → Values
  | .nil, ws => ws
  | .cons v vs, ws => .cons v (vs.append ws)

/-- `vs ++ <v>`. -/
def Values.snoc (vs : Values) (v : Value) : Values := vs.append (.cons v .nil)

/-- The scalar tags of R81. -/
inductive ScalarTag where
  | bool | u8 | u16 | u32 | i32 | blob | utf8
deriving DecidableEq, Repr

/-- The tags of R81. -/
inductive Tag where
  | scalar (t : ScalarTag)
  | structOpen
  | structClose
  | array
deriving DecidableEq, Repr

mutual
/-- A descriptor item (R160): `Sc(t)`, `St(items)` or `Ar(e)`. -/
inductive Item where
  | sc (t : ScalarTag)
  | st (items : Items)
  | ar (e : Item)
deriving DecidableEq, Repr

/-- A list of descriptor items (R160). -/
inductive Items where
  | nil
  | cons (it : Item) (its : Items)
deriving DecidableEq, Repr
end

/-- `its ++ js`. -/
def Items.append : Items → Items → Items
  | .nil, js => js
  | .cons it its, js => .cons it (its.append js)

/-- The instructions: the twelve operations of R72 and the ten tags of R81, one constructor for each row of
spec/opcode_table.json. -/
inductive Instr where
  | reset
  | hdlcTxFrame (payload : List Byte)
  | hdlcTxBegin
  | hdlcTxByte (b : Byte)
  | hdlcTxEnd
  | hdlcTxAbort
  | hdlcRxByte (b : Byte)
  | flenTxFrame (payload : List Byte)
  | flenRxByte (b : Byte)
  | flenRxAbort
  | argPack (desc : List Byte) (vals : Values) (cap : Nat)
  | argUnpack (desc : List Byte) (input : List Byte)
  | tagBool
  | tagU8
  | tagU16
  | tagU32
  | tagI32
  | tagBlob
  | tagUtf8
  | tagStructOpen
  | tagStructClose
  | tagArray
deriving DecidableEq, Repr

/-- One operand value of an operation, by the kinds of R71. -/
inductive Operand where
  | byte (b : Byte)
  | bytes (bs : List Byte)
  | desc (d : List Byte)
  | vals (vs : Values)
  | cap (n : Nat)
deriving DecidableEq, Repr

/-- An operation as the host hands it over: one opcode byte and its operand values, each a typed value carried
alongside the opcode (R70). -/
structure Request where
  opcode : Byte
  operands : List Operand
deriving DecidableEq, Repr

/-- The two encoding spaces of the opcode table: an operation (format OP, R70) and a descriptor tag (format TAG,
R80). The bytes 0x28 and 0x29 have a meaning in each. -/
inductive Code where
  | op (r : Request)
  | tag (b : Byte)
deriving DecidableEq, Repr

/-- What the host may do next (70_reset_and_hazards.md R265): issue an operation, or consume the head of an
output (10_state.md R35 to R37, 60_exceptions.md R226). -/
inductive HostAction where
  | issue (r : Request)
  /-- Consume the first `n` bytes of `H_OUT`. -/
  | takeHOut (n : Nat)
  /-- Consume the first `n` bytes of `F_OUT`. -/
  | takeFOut (n : Nat)
  /-- Consume the first `n` events of `EVQ`. -/
  | takeEvents (n : Nat)
deriving DecidableEq, Repr

end Sys2Proof
end

