-- ==== Sys2Proof/Machine/State.lean ====
section
/-! DEFINITION. The framer's state: the record of 10_state.md R22, the walk of one ARG operation (R21,
42_argcodec.md R182), the parameters (R43) and the host's side (70_reset_and_hazards.md R265, R266); the reasons a
step can stop; and the power-on state (R42, R250). -/

namespace Sys2Proof.Machine

/-- `tx.state` (R23). -/
inductive TxState where
  | idle
  | open
deriving DecidableEq, Repr

/-- `rx.state` (R26). -/
inductive RxState where
  | hunt
  | data
  | esc
deriving DecidableEq, Repr

/-- `fl.state` (R29). -/
inductive FlState where
  | hdr
  | body
  | skip
deriving DecidableEq, Repr

/-- The contents of a byte buffer (20_memory.md R50, R51) as index and byte pairs in one canonical form: indexes
strictly rising, and no entry equal to `bufferDefault`, the byte an unlisted index reads as. -/
abbrev Buffer := List Host.Cell

/-- What an index that nothing has written reads as. DESIGN CHOICE: 0; the spec leaves it unspecified and no rule
reads it (R42, R52, 93 U8; log 10). Unsafe: a claim that leaned on this 0 would say nothing of the hardware. -/
def bufferDefault : Byte := 0#8

/-- The indexes rise strictly, each is at least `from`, and no entry holds `bufferDefault`. -/
def bufferSorted : Nat → Buffer → Bool
  | _, [] => true
  | lo, (i, v) :: rest => decide (lo ≤ i) && decide (v ≠ bufferDefault) && bufferSorted (i + 1) rest

/-- The canonical form of a buffer. -/
def Buffer.wf (m : Buffer) : Bool := bufferSorted 0 m

/-- The HDLC encoder (R23 to R25). -/
structure TxUnit where
  state : TxState
  fcs : Half
  count : Nat
deriving DecidableEq, Repr

/-- The HDLC decoder (R26 to R28). -/
structure RxUnit where
  state : RxState
  len : Nat
  buf : Buffer
deriving DecidableEq, Repr

/-- The FLEN decoder (R29 to R33). -/
structure FlUnit where
  state : FlState
  hcount : Nat
  hdr : Buffer
  len : Nat
  count : Nat
  buf : Buffer
deriving DecidableEq, Repr

/-- Reasons an HDLC frame is discarded (60_exceptions.md R222, R225). -/
inductive HdlcReason where
  | fcsMismatch
  | short
  | abort
  | overflow
deriving DecidableEq, Repr

/-- Reasons a FLEN frame is discarded (60_exceptions.md R222, R225). -/
inductive FlenReason where
  | oversize
  | abort
deriving DecidableEq, Repr

/-- The events of 60_exceptions.md R225. A payload is a value, copied when the event is posted (R259). -/
inductive Event where
  | hdlcFrame (payload : List Byte)
  | hdlcDiscard (r : HdlcReason)
  | flenFrame (payload : List Byte)
  | flenDiscard (r : FlenReason)
deriving DecidableEq, Repr

/-- The status codes of 60_exceptions.md R220. -/
inductive Status where
  | ok
  | errParse
  | errNoBufs
  | errInvalidArgs
  | errBadDesc
  | errInvalidState
  | errUnknownOp
deriving DecidableEq, Repr

/-- What an operation returns: its status and its results (30_encoding.md R71, R72). -/
inductive Reply where
  /-- An operation whose only result is its status. -/
  | status (st : Status)
  /-- `ARG_PACK`: status and `out`. -/
  | packed (st : Status) (out : List Byte)
  /-- `ARG_UNPACK`: status, `vals` and `consumed`. -/
  | unpacked (st : Status) (vals : Values) (consumed : Nat)
deriving DecidableEq, Repr

/-- The status of a reply: every operation returns exactly one (R220). -/
def Reply.st : Reply → Status
  | .status st => st
  | .packed st _ => st
  | .unpacked st _ _ => st

/-- What an ARG walk carries besides the descriptor (42_argcodec.md R170, R182). -/
inductive Job where
  /-- Packing: the values still to pack in the open list, those of the enclosing lists (innermost first), the
  bytes so far, and the capacity. -/
  | pack (todo : Values) (outer : List Values) (out : List Byte) (cap : Nat)
  /-- Unpacking: the input, the byte cursor, the values so far of the open list, those of the enclosing lists
  (innermost first), and the cursor after the last fully decoded top-level item. -/
  | unpack (input : List Byte) (cursor : Nat) (got : Values) (outer : List Values) (consumed : Nat)
deriving DecidableEq, Repr

/-- The walk over a descriptor: the descriptor, the descriptor position, and the job (R21, R182). -/
structure Walk where
  desc : List Byte
  pos : Nat
  job : Job
deriving DecidableEq, Repr

/-- The machine. `cfg`, `inbox` and `replies` are the model's own fields (log 1, 3, 4); `walk` exists only during
one ARG operation (R21, R34; log 6); the rest is the record of R22. -/
structure State where
  /-- The parameters, fixed before the first operation (R43). -/
  cfg : Config
  tx : TxUnit
  rx : RxUnit
  fl : FlUnit
  /-- `H_OUT` (R35). -/
  hOut : List Byte
  /-- `F_OUT` (R36). -/
  fOut : List Byte
  /-- `EVQ` (R37), head first. -/
  evq : List Event
  /-- The walk in progress, if any. -/
  walk : Option Walk
  /-- What the host is about to do, oldest first. -/
  inbox : List HostAction
  /-- The replies the host has received, oldest first (R266). -/
  replies : List Reply
deriving DecidableEq, Repr

/-- Reasons the machine stops with a fault. -/
inductive Fault where
  /-- An index outside a buffer would be read or written. Raised by HDLC_RX_BYTE and FLEN_RX_BYTE. R51 and R52 say
  that no rule computes such an index, and no state that keeps the invariants of R41 raises it (log 12). Safe: the
  model stops where the spec describes nothing. -/
  | bufferIndex
deriving DecidableEq, Repr

/-- Reasons a step is refused. -/
inductive Refusal where
  /-- Raised by exec's arm of an instruction that has no meaning yet. No arm does. Safe. -/
  | notModelled (mnemonic : String)
  /-- The parameters break R8: "A model refuses an illegal configuration." Raised by step. Safe. -/
  | illegalConfiguration
  /-- The request's operands are not those R72 gives its opcode, so it is no operation (log 5). Raised by step.
  Safe. -/
  | wrongOperands (opcode : Byte)
  /-- An operand is outside the range of R71, so it is no operation (log 5). Raised by step. Safe. -/
  | operandRange
  /-- A tag while no descriptor is being walked: a tag is a byte of a descriptor and acts only during one ARG
  operation (R21, R80; log 7). Raised by the TAG_ instructions. Safe. -/
  | tagOutsideWalk
deriving DecidableEq, Repr

/-- Power-on (R250): every field at its reset value of R42, `H_OUT`, `F_OUT` and `EVQ` empty, no walk (R34), the
default parameters (R7), and a host that has asked for nothing yet. -/
def State.reset : State where
  cfg := defaultConfig
  tx := ⟨.idle, defaultConfig.fcsInit, 0⟩
  rx := ⟨.hunt, 0, []⟩
  fl := ⟨.hdr, 0, [], 0, 0, []⟩
  hOut := []
  fOut := []
  evq := []
  walk := none
  inbox := []
  replies := []

end Sys2Proof.Machine
end

