-- ==== Sys2Proof/Machine/Ops.lean ====
section
/-! DEFINITION. The pseudocode primitives of 00_scope.md R11 and 20_memory.md R52, the writes of each unit, the
reply that ends an operation, and what the host does to the outputs. There is no exception to take and none to
return from: no operation traps, saves state or changes mode (60_exceptions.md R230), and an error is the status of
a reply (R220), which `replyStatus` is the one way to give. -/

namespace Sys2Proof.Machine

/-- One step's outcome. -/
abbrev StepResult := Host.Outcome State Fault Refusal

/-- The byte at index `i`. -/
def Buffer.read : Buffer → Nat → Byte
  | [], _ => bufferDefault
  | (j, v) :: rest, i => if i = j then v else Buffer.read rest i

/-- `buf[i] <- v`, keeping the canonical form. -/
def Buffer.write : Buffer → Nat → Byte → Buffer
  | [], i, v => if v = bufferDefault then [] else [(i, v)]
  | (j, w) :: rest, i, v =>
    if i < j then (if v = bufferDefault then (j, w) :: rest else (i, v) :: (j, w) :: rest)
    else if i = j then (if v = bufferDefault then rest else (i, v) :: rest)
    else (j, w) :: Buffer.write rest i v

/-- The `n` bytes from index `i`. -/
def Buffer.readFrom (m : Buffer) : Nat → Nat → List Byte
  | _, 0 => []
  | i, n + 1 => Buffer.read m i :: Buffer.readFrom m (i + 1) n

/-- `BufRead(buf, i, n)` on a buffer of `cap` bytes (R52): used only with `i + n <= |buf|`. -/
def bufRead (cap : Nat) (m : Buffer) (i n : Nat) : Option (List Byte) :=
  if i + n ≤ cap then some (Buffer.readFrom m i n) else none

/-- `BufWrite(buf, i, v)` on a buffer of `cap` bytes (R52): used only with `i + 1 <= |buf|`. -/
def bufWrite (cap : Nat) (m : Buffer) (i : Nat) (v : Byte) : Option Buffer :=
  if i < cap then some (Buffer.write m i v) else none

/-- `emit_H(bytes)` (R11). -/
def State.emitH (s : State) (bytes : List Byte) : State := { s with hOut := s.hOut ++ bytes }

/-- `emit_F(bytes)` (R11). -/
def State.emitF (s : State) (bytes : List Byte) : State := { s with fOut := s.fOut ++ bytes }

/-- `post(event)` (R11, R226). -/
def State.post (s : State) (e : Event) : State := { s with evq := s.evq ++ [e] }

/-- `tx.* <- …`. -/
def State.setTx (s : State) (u : TxUnit) : State := { s with tx := u }

/-- `rx.* <- …`. -/
def State.setRx (s : State) (u : RxUnit) : State := { s with rx := u }

/-- `fl.* <- …`. -/
def State.setFl (s : State) (u : FlUnit) : State := { s with fl := u }

/-- The walk of an ARG operation moves on. -/
def State.setWalk (s : State) (w : Option Walk) : State := { s with walk := w }

/-- The host's next actions. -/
def State.setInbox (s : State) (acts : List HostAction) : State := { s with inbox := acts }

/-- `return (status, results...)` (R11): the host receives the reply. -/
def State.respond (s : State) (r : Reply) : State := { s with replies := s.replies ++ [r] }

/-- The end of an operation whose only result is its status. -/
def replyStatus (s : State) (st : Status) : StepResult := .next (s.respond (.status st))

/-- An operation with an unassigned opcode (30_encoding.md R73): no state change, status `ERR_UNKNOWN_OP`. -/
def unknownOp (s : State) : StepResult := replyStatus s .errUnknownOp

/-- The host consumes heads of the outputs between operations (10_state.md R35 to R37, 60_exceptions.md R226). -/
def State.takeHOut (s : State) (n : Nat) : State := { s with hOut := s.hOut.drop n }

/-- The host consumes `n` bytes of `F_OUT`. -/
def State.takeFOut (s : State) (n : Nat) : State := { s with fOut := s.fOut.drop n }

/-- The host consumes `n` events of `EVQ`. -/
def State.takeEvents (s : State) (n : Nat) : State := { s with evq := s.evq.drop n }

end Sys2Proof.Machine
end

