-- ==== Sys2Proof/Machine/Flen.lean ====
section
/-! DEFINITION. The FLEN unit (41_flen.md). -/

namespace Sys2Proof.Machine

/-- The wire form of a FLEN frame (30_encoding.md R88). -/
def flenEncode (c : Config) (p : List Byte) : List Byte := leBytes c.flenLenBytes p.length ++ p

/-- FLEN_TX_FRAME payload (R140). -/
def execFlenTxFrame (payload : List Byte) (s : State) : StepResult :=
  if s.cfg.flenMax < payload.length then replyStatus s .errNoBufs
  else replyStatus (s.emitF (flenEncode s.cfg payload)) .ok

/-- `HeaderComplete()` (R143) for the length `len` read from the header; `hdr` is the header buffer. -/
def flenHeaderComplete (hdr : Buffer) (len : Nat) (s : State) : State :=
  if len = 0 then (s.post (.flenFrame [])).setFl ⟨s.fl.state, 0, hdr, s.fl.len, s.fl.count, s.fl.buf⟩
  else if s.cfg.flenMax < len then (s.post (.flenDiscard .oversize)).setFl ⟨.skip, 0, hdr, len, 0, s.fl.buf⟩
  else s.setFl ⟨.body, 0, hdr, len, 0, s.fl.buf⟩

/-- In `FL_HDR`, byte `b` (R142). -/
def flenHdrByte (b : Byte) (s : State) : Option State :=
  match bufWrite s.cfg.flenLenBytes s.fl.hdr s.fl.hcount b with
  | none => none
  | some hdr =>
    if s.fl.hcount + 1 = s.cfg.flenLenBytes then
      match bufRead s.cfg.flenLenBytes hdr 0 s.cfg.flenLenBytes with
      | none => none
      | some bytes => some (flenHeaderComplete hdr (fromLE bytes) s)
    else some (s.setFl ⟨s.fl.state, s.fl.hcount + 1, hdr, s.fl.len, s.fl.count, s.fl.buf⟩)

/-- In `FL_BODY`, byte `b` (R144). -/
def flenBodyByte (b : Byte) (s : State) : Option State :=
  match bufWrite s.cfg.flenMax s.fl.buf s.fl.count b with
  | none => none
  | some buf =>
    if s.fl.count + 1 = s.fl.len then
      match bufRead s.cfg.flenMax buf 0 s.fl.len with
      | none => none
      | some p => some ((s.post (.flenFrame p)).setFl ⟨.hdr, s.fl.hcount, s.fl.hdr, s.fl.len, 0, buf⟩)
    else some (s.setFl ⟨s.fl.state, s.fl.hcount, s.fl.hdr, s.fl.len, s.fl.count + 1, buf⟩)

/-- In `FL_SKIP`, any byte (R145). -/
def flenSkipByte (s : State) : State :=
  if s.fl.count + 1 = s.fl.len then s.setFl ⟨.hdr, s.fl.hcount, s.fl.hdr, s.fl.len, 0, s.fl.buf⟩
  else s.setFl ⟨s.fl.state, s.fl.hcount, s.fl.hdr, s.fl.len, s.fl.count + 1, s.fl.buf⟩

/-- The row of R141's table selected by `fl.state`. -/
def flenByte (b : Byte) (s : State) : Option State :=
  match s.fl.state with
  | .hdr => flenHdrByte b s
  | .body => flenBodyByte b s
  | .skip => some (flenSkipByte s)

/-- FLEN_RX_BYTE b (R146): always `OK`. It faults only where a rule would leave a buffer. -/
def execFlenRxByte (b : Byte) (s : State) : StepResult :=
  match flenByte b s with
  | some t => replyStatus t .ok
  | none => .fault .bufferIndex

/-- A FLEN frame is partly received: the condition of R147. -/
def flenPartial (u : FlUnit) : Bool :=
  (decide (u.state = .hdr) && decide (0 < u.hcount)) || decide (u.state = .body)

/-- The idle FLEN decoder (R42, R147): the buffers are left as they are. -/
def flIdle (u : FlUnit) : FlUnit := ⟨.hdr, 0, u.hdr, 0, 0, u.buf⟩

/-- FLEN_RX_ABORT (R147). -/
def execFlenRxAbort (s : State) : StepResult :=
  let posted := if flenPartial s.fl then s.post (.flenDiscard .abort) else s
  replyStatus (posted.setFl (flIdle s.fl)) .ok

end Sys2Proof.Machine
end

