-- ==== Sys2Proof/Machine/Fcs.lean ====
section
/-! DEFINITION. The FCS-16 of 40_hdlc.md section 1 (R100 to R103). -/

namespace Sys2Proof.Machine

/-- One pass of the loop of R100: `c[0] ? (c >> 1) XOR FCS_POLY : c >> 1`. -/
def fcsShift (poly c : Half) : Half := if c.getLsbD 0 then (c >>> 1) ^^^ poly else c >>> 1

/-- `n` passes of the loop. -/
def fcsShifts (poly : Half) : Nat → Half → Half
  | 0, c => c
  | n + 1, c => fcsShifts poly n (fcsShift poly c)

/-- `FCS_TABLE[i]` (R100). -/
def fcsTable (poly : Half) (i : Byte) : Half := fcsShifts poly 8 (i.setWidth 16)

/-- `FcsStep(f, b) = (f >> 8) XOR FCS_TABLE[(f XOR zext_16(b))[7:0]]` (R101). -/
def fcsStep (c : Config) (f : Half) (b : Byte) : Half :=
  (f >>> 8) ^^^ fcsTable c.fcsPoly ((f ^^^ b.setWidth 16).extractLsb' 0 8)

/-- `FcsRun(f, s)` (R101). -/
def fcsRun (c : Config) (f : Half) : List Byte → Half
  | [] => f
  | b :: s => fcsRun c (fcsStep c f b) s

/-- `FCS16(P) = FcsRun(FCS_INIT, P) XOR FCS_XOROUT` (R101). -/
def fcs16 (c : Config) (p : List Byte) : Half := fcsRun c c.fcsInit p ^^^ c.fcsXorout

/-- The bit-serial form of R103: the byte enters least significant bit first. -/
def fcsStepSerial (c : Config) (f : Half) (b : Byte) : Half := fcsShifts c.fcsPoly 8 (f ^^^ b.setWidth 16)

end Sys2Proof.Machine
end

