-- ==== Sys2Proof/Machine/Hdlc.lean ====
section
/-! DEFINITION. The HDLC unit: escaping and whole-frame encoding (40_hdlc.md section 2), the encoder operations
(section 3) and the decoder (section 4). -/

namespace Sys2Proof.Machine

/-! ### Escaping (R105, R106) -/

/-- `esc(v)` (R105). -/
def escByte (c : Config) (v : Byte) : List Byte :=
  if v ∈ c.escapeSet then [c.hdlcEsc, v ^^^ c.escXor] else [v]

/-- `E(s) = concatMap esc s` (R105). -/
def escBytes (c : Config) : List Byte → List Byte
  | [] => []
  | v :: s => escByte c v ++ escBytes c s

/-- `[lo8(F), hi8(F)]`: the FCS on the wire, low byte first (R102). -/
def fcsBytes (f : Half) : List Byte := [lo8 f, hi8 f]

/-- `HdlcEncode(P)` (R85, R106). -/
def hdlcEncode (c : Config) (p : List Byte) : List Byte :=
  [c.hdlcFlag] ++ escBytes c (p ++ fcsBytes (fcs16 c p)) ++ [c.hdlcFlag]

/-! ### Encoder operations (R110 to R116) -/

/-- The idle encoder (R42, R115, R116). -/
def txIdle (c : Config) : TxUnit := ⟨.idle, c.fcsInit, 0⟩

/-- The abort sequence of R116 and R252. -/
def abortBytes (c : Config) : List Byte := [c.hdlcEsc, c.hdlcFlag]

/-- HDLC_TX_FRAME payload (R112). -/
def execHdlcTxFrame (payload : List Byte) (s : State) : StepResult :=
  if s.tx.state = .open then replyStatus s .errInvalidState
  else if s.cfg.maxFrame < payload.length then replyStatus s .errNoBufs
  else replyStatus (s.emitH (hdlcEncode s.cfg payload)) .ok

/-- HDLC_TX_BEGIN (R113). -/
def execHdlcTxBegin (s : State) : StepResult :=
  if s.tx.state = .open then replyStatus s .errInvalidState
  else replyStatus ((s.emitH [s.cfg.hdlcFlag]).setTx ⟨.open, s.cfg.fcsInit, 0⟩) .ok

/-- HDLC_TX_BYTE b (R114). -/
def execHdlcTxByte (b : Byte) (s : State) : StepResult :=
  if s.tx.state = .idle then replyStatus s .errInvalidState
  else if s.tx.count = s.cfg.maxFrame then replyStatus s .errNoBufs
  else
    replyStatus ((s.emitH (escByte s.cfg b)).setTx ⟨s.tx.state, fcsStep s.cfg s.tx.fcs b, s.tx.count + 1⟩) .ok

/-- HDLC_TX_END (R115). -/
def execHdlcTxEnd (s : State) : StepResult :=
  if s.tx.state = .idle then replyStatus s .errInvalidState
  else
    let f := s.tx.fcs ^^^ s.cfg.fcsXorout
    replyStatus
      ((s.emitH (escByte s.cfg (lo8 f) ++ escByte s.cfg (hi8 f) ++ [s.cfg.hdlcFlag])).setTx (txIdle s.cfg)) .ok

/-- HDLC_TX_ABORT (R116). -/
def execHdlcTxAbort (s : State) : StepResult :=
  if s.tx.state = .idle then replyStatus s .errInvalidState
  else replyStatus ((s.emitH (abortBytes s.cfg)).setTx (txIdle s.cfg)) .ok

/-! ### Decoder (R120 to R129) -/

/-- The octet classes of R84. -/
inductive OctetClass where
  | flag
  | esc
  | data
deriving DecidableEq, Repr

/-- The class of a wire byte (R84). -/
def octetClass (c : Config) (b : Byte) : OctetClass :=
  if b = c.hdlcFlag then .flag else if b = c.hdlcEsc then .esc else .data

/-- `Append(v)` (R127). Its write is inside the buffer by its own test. -/
def rxAppend (v : Byte) (s : State) : State :=
  if s.rx.len < s.cfg.hdlcRxCap then s.setRx ⟨.data, s.rx.len + 1, Buffer.write s.rx.buf s.rx.len v⟩
  else (s.post (.hdlcDiscard .overflow)).setRx ⟨.hunt, 0, s.rx.buf⟩

/-- The event a closing flag posts for `n` stored bytes, of which the last two are the received FCS (R128):
`p` is the payload and `r` the two FCS bytes. -/
def closeEvent (c : Config) (p r : List Byte) : Event :=
  if (fcs16 c p).toNat = fromLE r then .hdlcFrame p else .hdlcDiscard .fcsMismatch

/-- `Close()` (R128). -/
def rxClose (s : State) : Option State :=
  let opened : RxUnit := ⟨.data, 0, s.rx.buf⟩
  if s.rx.len = 0 then some (s.setRx opened)
  else if s.rx.len = 1 then some ((s.post (.hdlcDiscard .short)).setRx opened)
  else
    match bufRead s.cfg.hdlcRxCap s.rx.buf 0 (s.rx.len - 2), bufRead s.cfg.hdlcRxCap s.rx.buf (s.rx.len - 2) 2 with
    | some p, some r => some ((s.post (closeEvent s.cfg p r)).setRx opened)
    | _, _ => none

/-- The cell of R120's table selected by `rx.state` and the class of the byte. DEDUCED: in RX_ESC the escape octet of an
abort sequence is R126's, as any other; R118 is read of each byte as it arrives (log 24). -/
def rxByte (b : Byte) (s : State) : Option State :=
  match s.rx.state, octetClass s.cfg b with
  | .hunt, .flag => some (s.setRx ⟨.data, 0, s.rx.buf⟩)
  | .hunt, .esc => some s
  | .hunt, .data => some s
  | .data, .flag => rxClose s
  | .data, .esc => some (s.setRx ⟨.esc, s.rx.len, s.rx.buf⟩)
  | .data, .data => some (rxAppend b s)
  | .esc, .flag => some ((s.post (.hdlcDiscard .abort)).setRx ⟨.data, 0, s.rx.buf⟩)
  | .esc, .esc => some (rxAppend (b ^^^ s.cfg.escXor) s)
  | .esc, .data => some (rxAppend (b ^^^ s.cfg.escXor) s)

/-- HDLC_RX_BYTE b (R129): always `OK`. It faults only where `Close()` would read outside `rx.buf`. -/
def execHdlcRxByte (b : Byte) (s : State) : StepResult :=
  match rxByte b s with
  | some t => replyStatus t .ok
  | none => .fault .bufferIndex

end Sys2Proof.Machine
end

