-- ==== Sys2Proof/Machine/Control.lean ====
section
/-! DEFINITION. RESET (70_reset_and_hazards.md R251 to R253). -/

namespace Sys2Proof.Machine

/-- RESET (R251): an open frame is aborted on the wire (R252), every unit becomes idle with its buffers left as
they are, and the outputs keep what they hold (R253). -/
def execReset (s : State) : StepResult :=
  let aborted := if s.tx.state = .open then s.emitH (abortBytes s.cfg) else s
  replyStatus
    (((aborted.setTx (txIdle s.cfg)).setRx ⟨.hunt, 0, s.rx.buf⟩).setFl (flIdle s.fl)) .ok

end Sys2Proof.Machine
end

