-- ==== Sys2Proof/WellFormed.lean ====
section
/-! DEFINITION. The operand ranges of 30_encoding.md R71, as a check on an instruction. A byte operand is in
range by its type. -/

namespace Sys2Proof

/-- `2^32`, one more than the greatest length and capacity of R71. -/
def operandBound : Nat := 4294967296

/-- The operands of an instruction are within the ranges of R71: a `bytes` operand has a length of
0..2^32 - 1, and a `cap` operand is 0..2^32 - 1. A descriptor and a value sequence have no stated bound. -/
def Instr.wellFormed : Instr → Bool
  | .hdlcTxFrame payload => decide (payload.length < operandBound)
  | .flenTxFrame payload => decide (payload.length < operandBound)
  | .argPack _ _ cap => decide (cap < operandBound)
  | .argUnpack _ input => decide (input.length < operandBound)
  | .reset => true
  | .hdlcTxBegin => true
  | .hdlcTxByte _ => true
  | .hdlcTxEnd => true
  | .hdlcTxAbort => true
  | .hdlcRxByte _ => true
  | .flenRxByte _ => true
  | .flenRxAbort => true
  | .tagBool => true
  | .tagU8 => true
  | .tagU16 => true
  | .tagU32 => true
  | .tagI32 => true
  | .tagBlob => true
  | .tagUtf8 => true
  | .tagStructOpen => true
  | .tagStructClose => true
  | .tagArray => true

end Sys2Proof
end

