-- ==== Sys2Proof/Decode.lean ====
section
/-! DEFINITION. The decoder of both encoding spaces (30_encoding.md R70 to R73, R80 to R82), total on any request
and any tag byte and rejecting by name, and after it the encoder. -/

namespace Sys2Proof

/-- Why a code word is no instruction. -/
inductive DecodeError where
  /-- The opcode is not in the map of R72 (R73). -/
  | unassignedOpcode (op : Byte)
  /-- The operands are not those R72 gives the opcode. -/
  | wrongOperands (op : Byte)
  /-- The byte is not in the tag map of R81 (R82). -/
  | illegalTag (b : Byte)
deriving DecidableEq, Repr

/-- The opcode map of R72, row by row, with the operands each row takes. -/
def decodeOp (r : Request) : Except DecodeError Instr :=
  if r.opcode = 0x01#8 then
    match r.operands with
    | [] => .ok .reset
    | _ => .error (.wrongOperands r.opcode)
  else if r.opcode = 0x10#8 then
    match r.operands with
    | [.bytes payload] => .ok (.hdlcTxFrame payload)
    | _ => .error (.wrongOperands r.opcode)
  else if r.opcode = 0x11#8 then
    match r.operands with
    | [] => .ok .hdlcTxBegin
    | _ => .error (.wrongOperands r.opcode)
  else if r.opcode = 0x12#8 then
    match r.operands with
    | [.byte b] => .ok (.hdlcTxByte b)
    | _ => .error (.wrongOperands r.opcode)
  else if r.opcode = 0x13#8 then
    match r.operands with
    | [] => .ok .hdlcTxEnd
    | _ => .error (.wrongOperands r.opcode)
  else if r.opcode = 0x14#8 then
    match r.operands with
    | [] => .ok .hdlcTxAbort
    | _ => .error (.wrongOperands r.opcode)
  else if r.opcode = 0x18#8 then
    match r.operands with
    | [.byte b] => .ok (.hdlcRxByte b)
    | _ => .error (.wrongOperands r.opcode)
  else if r.opcode = 0x20#8 then
    match r.operands with
    | [.bytes payload] => .ok (.flenTxFrame payload)
    | _ => .error (.wrongOperands r.opcode)
  else if r.opcode = 0x28#8 then
    match r.operands with
    | [.byte b] => .ok (.flenRxByte b)
    | _ => .error (.wrongOperands r.opcode)
  else if r.opcode = 0x29#8 then
    match r.operands with
    | [] => .ok .flenRxAbort
    | _ => .error (.wrongOperands r.opcode)
  else if r.opcode = 0x30#8 then
    match r.operands with
    | [.desc d, .vals vs, .cap n] => .ok (.argPack d vs n)
    | _ => .error (.wrongOperands r.opcode)
  else if r.opcode = 0x31#8 then
    match r.operands with
    | [.desc d, .bytes input] => .ok (.argUnpack d input)
    | _ => .error (.wrongOperands r.opcode)
  else .error (.unassignedOpcode r.opcode)

/-- The tag map of R81. -/
def Tag.ofByte (b : Byte) : Option Tag :=
  if b = 0x62#8 then some (.scalar .bool)
  else if b = 0x43#8 then some (.scalar .u8)
  else if b = 0x53#8 then some (.scalar .u16)
  else if b = 0x4C#8 then some (.scalar .u32)
  else if b = 0x6C#8 then some (.scalar .i32)
  else if b = 0x64#8 then some (.scalar .blob)
  else if b = 0x55#8 then some (.scalar .utf8)
  else if b = 0x28#8 then some .structOpen
  else if b = 0x29#8 then some .structClose
  else if b = 0x2A#8 then some .array
  else none

/-- The instruction a tag is (rows TAG_* of the opcode table). -/
def Instr.ofTag : Tag → Instr
  | .scalar .bool => .tagBool
  | .scalar .u8 => .tagU8
  | .scalar .u16 => .tagU16
  | .scalar .u32 => .tagU32
  | .scalar .i32 => .tagI32
  | .scalar .blob => .tagBlob
  | .scalar .utf8 => .tagUtf8
  | .structOpen => .tagStructOpen
  | .structClose => .tagStructClose
  | .array => .tagArray

/-- A tag byte read as an instruction of the ARG unit (R80 to R82). -/
def decodeTag (b : Byte) : Except DecodeError Instr :=
  match Tag.ofByte b with
  | some t => .ok (Instr.ofTag t)
  | none => .error (.illegalTag b)

/-- The decoder: an operation by R72, a tag by R81. -/
def decode : Code → Except DecodeError Instr
  | .op r => decodeOp r
  | .tag b => decodeTag b

/-- The tag byte of a tag (R81, column "tag byte"). -/
def Tag.toByte : Tag → Byte
  | .scalar .bool => 0x62#8
  | .scalar .u8 => 0x43#8
  | .scalar .u16 => 0x53#8
  | .scalar .u32 => 0x4C#8
  | .scalar .i32 => 0x6C#8
  | .scalar .blob => 0x64#8
  | .scalar .utf8 => 0x55#8
  | .structOpen => 0x28#8
  | .structClose => 0x29#8
  | .array => 0x2A#8

/-- The encoder: the code word of an instruction, from R72 (opcode and operands) and R81 (tag byte). -/
def encode : Instr → Code
  | .reset => .op ⟨0x01#8, []⟩
  | .hdlcTxFrame payload => .op ⟨0x10#8, [.bytes payload]⟩
  | .hdlcTxBegin => .op ⟨0x11#8, []⟩
  | .hdlcTxByte b => .op ⟨0x12#8, [.byte b]⟩
  | .hdlcTxEnd => .op ⟨0x13#8, []⟩
  | .hdlcTxAbort => .op ⟨0x14#8, []⟩
  | .hdlcRxByte b => .op ⟨0x18#8, [.byte b]⟩
  | .flenTxFrame payload => .op ⟨0x20#8, [.bytes payload]⟩
  | .flenRxByte b => .op ⟨0x28#8, [.byte b]⟩
  | .flenRxAbort => .op ⟨0x29#8, []⟩
  | .argPack d vs n => .op ⟨0x30#8, [.desc d, .vals vs, .cap n]⟩
  | .argUnpack d input => .op ⟨0x31#8, [.desc d, .bytes input]⟩
  | .tagBool => .tag (Tag.toByte (.scalar .bool))
  | .tagU8 => .tag (Tag.toByte (.scalar .u8))
  | .tagU16 => .tag (Tag.toByte (.scalar .u16))
  | .tagU32 => .tag (Tag.toByte (.scalar .u32))
  | .tagI32 => .tag (Tag.toByte (.scalar .i32))
  | .tagBlob => .tag (Tag.toByte (.scalar .blob))
  | .tagUtf8 => .tag (Tag.toByte (.scalar .utf8))
  | .tagStructOpen => .tag (Tag.toByte .structOpen)
  | .tagStructClose => .tag (Tag.toByte .structClose)
  | .tagArray => .tag (Tag.toByte .array)

/-- The operands of an opcode with every bit that the table gives no place zero: an empty byte sequence, an
empty descriptor, no value, capacity 0. The byte of a `byte` operand is the second byte of the word, as in the
program encodings of 95_test_vectors.md L3 (log 9). -/
def tableOperands (op : Byte) (w : Nat) : List Operand :=
  if op = 0x12#8 ∨ op = 0x18#8 ∨ op = 0x28#8 then [.byte (BitVec.ofNat 8 (w / 256))]
  else if op = 0x10#8 ∨ op = 0x20#8 then [.bytes []]
  else if op = 0x30#8 then [.desc [], .vals .nil, .cap 0]
  else if op = 0x31#8 then [.desc [], .bytes []]
  else []

/-- The code word of a row of spec/opcode_table.json whose bits are `w`: an operation when the byte is an
assigned opcode, else a tag when it is in the tag map, else an unassigned opcode. DESIGN CHOICE: 0x28 and 0x29
stand for the operations, not for the tags `(` and `)` (log 8). -/
def tableCode (nbits w : Nat) : Code :=
  let bits := w % 2 ^ nbits
  let b := BitVec.ofNat 8 bits
  let r : Request := ⟨b, tableOperands b bits⟩
  match decodeOp r with
  | .ok _ => .op r
  | .error _ => if (Tag.ofByte b).isSome then .tag b else .op r

/-- The instruction the decoder reads from a table row's bits. -/
def decodeTableWord (nbits w : Nat) : Option Instr :=
  match decode (tableCode nbits w) with
  | .ok i => some i
  | .error _ => none

end Sys2Proof
end

