-- ==== Sys2Proof/Machine/Arg.lean ====
section
/-! DEFINITION. The ARG unit (42_argcodec.md): the descriptor grammar and its checks (section 1), matching
(R169), the wire form of each tag (section 4), the two walks (section 3), and the operations ARG_PACK and
ARG_UNPACK (section 5). -/

namespace Sys2Proof.Machine

/-! ### Grammar (R160) -/

/-- The tags of a descriptor, or `none` if a byte is not in the tag map: check W1 (R162). -/
def tagsOf : List Byte → Option (List Tag)
  | [] => some []
  | b :: rest =>
    match Tag.ofByte b, tagsOf rest with
    | some t, some ts => some (t :: ts)
    | _, _ => none

/-- The item lists open while a descriptor is parsed: the items of the innermost list, last first, and those of the
enclosing lists, innermost first. -/
structure ParseState where
  cur : List Item
  outer : List (List Item)
deriving DecidableEq, Repr

/-- The items of a list kept last first. -/
def itemsOfRev : List Item → Items → Items
  | [], acc => acc
  | it :: rest, acc => itemsOfRev rest (.cons it acc)

/-- One tag of the grammar of R160: a scalar is an item, `(` opens a list, `)` makes a structure of it, `*` makes an
array of the element just before it, which is a scalar or a structure. -/
def parseTag (p : ParseState) : Tag → Option ParseState
  | .scalar t => some ⟨.sc t :: p.cur, p.outer⟩
  | .structOpen => some ⟨[], p.cur :: p.outer⟩
  | .structClose =>
    match p.outer with
    | [] => none
    | o :: os => some ⟨.st (itemsOfRev p.cur .nil) :: o, os⟩
  | .array =>
    match p.cur with
    | .sc t :: rest => some ⟨.ar (.sc t) :: rest, p.outer⟩
    | .st its :: rest => some ⟨.ar (.st its) :: rest, p.outer⟩
    | .ar _ :: _ => none
    | [] => none

/-- The parse after all of `ts`. -/
def parseTags : ParseState → List Tag → Option ParseState
  | p, [] => some p
  | p, t :: ts =>
    match parseTag p t with
    | some q => parseTags q ts
    | none => none

/-- `Parse` on tags (R160): the items, when every list is closed. -/
def parseDesc (ts : List Tag) : Option Items :=
  match parseTags ⟨[], []⟩ ts with
  | some ⟨cur, []⟩ => some (itemsOfRev cur .nil)
  | _ => none

/-- `Parse(desc)` (R186, R187). -/
def parseBytes (desc : List Byte) : Option Items :=
  match tagsOf desc with
  | some ts => parseDesc ts
  | none => none

mutual
/-- The tags an item is written with (the grammar of R160, read from left to right). -/
def itemTags : Item → List Tag
  | .sc t => [.scalar t]
  | .st its => .structOpen :: (itemsTags its ++ [.structClose])
  | .ar e => itemTags e ++ [.array]

/-- The tags an item list is written with. -/
def itemsTags : Items → List Tag
  | .nil => []
  | .cons it its => itemTags it ++ itemsTags its
end

mutual
/-- The item is one of R160: an array's element is a scalar or a structure. -/
def itemFormed : Item → Bool
  | .sc _ => true
  | .st its => itemsFormed its
  | .ar (.ar _) => false
  | .ar e => itemFormed e

/-- Every item of the list is one of R160. -/
def itemsFormed : Items → Bool
  | .nil => true
  | .cons it its => itemFormed it && itemsFormed its
end

/-! ### Well-formedness (R162 to R168) -/

/-- Check W2 (R163): usual bracket matching, with `open` structures open before `ts`. -/
def balanced : Nat → List Tag → Bool
  | n, [] => decide (n = 0)
  | n, .structOpen :: ts => balanced (n + 1) ts
  | 0, .structClose :: _ => false
  | n + 1, .structClose :: ts => balanced n ts
  | n, .scalar _ :: ts => balanced n ts
  | n, .array :: ts => balanced n ts

/-- Check W3 (R164): at most `max` structures are open at once. -/
def depthWithin (max : Nat) : Nat → List Tag → Bool
  | _, [] => true
  | n, .structOpen :: ts => decide (n + 1 ≤ max) && depthWithin max (n + 1) ts
  | n, .structClose :: ts => depthWithin max (n - 1) ts
  | n, .scalar _ :: ts => depthWithin max n ts
  | n, .array :: ts => depthWithin max n ts

/-- Check W4 (R165): every `*` comes right after a scalar tag or a `)`; `elem` says whether the tag before `ts` is
one. -/
def starsPlaced : Bool → List Tag → Bool
  | _, [] => true
  | elem, .array :: ts => elem && starsPlaced false ts
  | _, .scalar _ :: ts => starsPlaced true ts
  | _, .structClose :: ts => starsPlaced true ts
  | _, .structOpen :: ts => starsPlaced false ts

/-- Check W5 (R165): after a `*`, the rest holds only `)`. -/
def arraysTerminal : List Tag → Bool
  | [] => true
  | .array :: ts => ts.all (fun t => decide (t = .structClose)) && arraysTerminal ts
  | .scalar _ :: ts => arraysTerminal ts
  | .structOpen :: ts => arraysTerminal ts
  | .structClose :: ts => arraysTerminal ts

/-- `minWidth` of a scalar (R167). -/
def minWidthScalar (c : Config) : ScalarTag → Nat
  | .bool => 1
  | .u8 => 1
  | .u16 => 2
  | .u32 => 4
  | .i32 => 4
  | .blob => c.blobLenBytes
  | .utf8 => 1

mutual
/-- `minWidth` (R167); an array counts as 0. -/
def minWidth (c : Config) : Item → Nat
  | .sc t => minWidthScalar c t
  | .st its => minWidths c its
  | .ar _ => 0

/-- The sum of `minWidth` over an item list. -/
def minWidths (c : Config) : Items → Nat
  | .nil => 0
  | .cons it its => minWidth c it + minWidths c its
end

mutual
/-- Check W6 (R167) on one item: the element of every array has a minimum width of at least 1. -/
def arrayProgress (c : Config) : Item → Bool
  | .sc _ => true
  | .st its => arraysProgress c its
  | .ar e => decide (1 ≤ minWidth c e) && arrayProgress c e

/-- Check W6 on an item list. -/
def arraysProgress (c : Config) : Items → Bool
  | .nil => true
  | .cons it its => arrayProgress c it && arraysProgress c its
end

/-- The items of a well-formed descriptor: `WF(desc)` (R168, checks W1 to W6 and the grammar), together with
`Parse(desc)`. -/
def wfItems (c : Config) (desc : List Byte) : Option Items :=
  match tagsOf desc with
  | none => none
  | some ts =>
    if balanced 0 ts && depthWithin c.argMaxDepth 0 ts && starsPlaced false ts && arraysTerminal ts then
      match parseDesc ts with
      | none => none
      | some its => if arraysProgress c its then some its else none
    else none

/-- `WF(desc)` (R168). -/
def wfDesc (c : Config) (desc : List Byte) : Bool := (wfItems c desc).isSome

/-! ### One rule per scalar tag (R169, R171 to R177)

For each tag: whether a value matches it, the bytes it packs to (for a value that does not match they are the model's
choice, see `packScalar`; log 18), and the value and the cursor it unpacks to, or `none` for Starved. -/

/-- Tag `b`: `Match` (R169). -/
def matchBool : Value → Bool
  | .bool _ => true
  | _ => false

/-- Tag `b`: pack (R171). -/
def packBool : Value → List Byte
  | .bool x => if x then [0x01#8] else [0x00#8]
  | _ => []

/-- Tag `b`: unpack (R171); any non-zero byte is true. -/
def unpackBool (input : List Byte) (c : Nat) : Option (Value × Nat) :=
  match need input c 1 with
  | some bs => some (.bool (decide (fromLE bs ≠ 0)), c + 1)
  | none => none

/-- Tag `C`: `Match` (R169). -/
def matchU8 : Value → Bool
  | .u8 n => decide (0 ≤ n ∧ n ≤ 255)
  | _ => false

/-- Tag `C`: pack (R172). -/
def packU8 : Value → List Byte
  | .u8 n => leBytes 1 n.toNat
  | _ => []

/-- Tag `C`: unpack (R172). -/
def unpackU8 (input : List Byte) (c : Nat) : Option (Value × Nat) :=
  match need input c 1 with
  | some bs => some (.u8 (fromLE bs), c + 1)
  | none => none

/-- Tag `S`: `Match` (R169). -/
def matchU16 : Value → Bool
  | .u16 n => decide (0 ≤ n ∧ n ≤ 65535)
  | _ => false

/-- Tag `S`: pack (R173). -/
def packU16 : Value → List Byte
  | .u16 n => leBytes 2 n.toNat
  | _ => []

/-- Tag `S`: unpack (R173). -/
def unpackU16 (input : List Byte) (c : Nat) : Option (Value × Nat) :=
  match need input c 2 with
  | some bs => some (.u16 (fromLE bs), c + 2)
  | none => none

/-- Tag `L`: `Match` (R169). -/
def matchU32 : Value → Bool
  | .u32 n => decide (0 ≤ n ∧ n ≤ 4294967295)
  | _ => false

/-- Tag `L`: pack (R174). -/
def packU32 : Value → List Byte
  | .u32 n => leBytes 4 n.toNat
  | _ => []

/-- Tag `L`: unpack (R174). -/
def unpackU32 (input : List Byte) (c : Nat) : Option (Value × Nat) :=
  match need input c 4 with
  | some bs => some (.u32 (fromLE bs), c + 4)
  | none => none

/-- Tag `l`: `Match` (R169). -/
def matchI32 : Value → Bool
  | .i32 n => decide (-2147483648 ≤ n ∧ n ≤ 2147483647)
  | _ => false

/-- Tag `l`: pack (R175): two's complement. -/
def packI32 : Value → List Byte
  | .i32 n => leBytes 4 (i32ToU32 n)
  | _ => []

/-- Tag `l`: unpack (R175). -/
def unpackI32 (input : List Byte) (c : Nat) : Option (Value × Nat) :=
  match need input c 4 with
  | some bs => some (.i32 (u32ToI32 (fromLE bs)), c + 4)
  | none => none

/-- Tag `d`: `Match` (R169): the length fits the prefix. -/
def matchBlob (cfg : Config) : Value → Bool
  | .blob bs => decide (bs.length ≤ 2 ^ (8 * cfg.blobLenBytes) - 1)
  | _ => false

/-- Tag `d`: pack (R176). -/
def packBlob (cfg : Config) : Value → List Byte
  | .blob bs => leBytes cfg.blobLenBytes bs.length ++ bs
  | _ => []

/-- Tag `d`: unpack (R176). -/
def unpackBlob (cfg : Config) (input : List Byte) (c : Nat) : Option (Value × Nat) :=
  match need input c cfg.blobLenBytes with
  | none => none
  | some lenBytes =>
    let n := fromLE lenBytes
    match need input c (cfg.blobLenBytes + n) with
    | none => none
    | some _ => some (.blob (slice input (c + cfg.blobLenBytes) n), c + cfg.blobLenBytes + n)

/-- Tag `U`: `Match` (R169): no byte is 0x00. -/
def matchUtf8 : Value → Bool
  | .str bs => bs.all fun b => decide (b ≠ 0x00#8)
  | _ => false

/-- Tag `U`: pack (R177). -/
def packUtf8 : Value → List Byte
  | .str bs => bs ++ [0x00#8]
  | _ => []

/-- The bytes before the first 0x00 of a sequence, or `none` if it holds no 0x00. -/
def untilNul : List Byte → Option (List Byte)
  | [] => none
  | b :: rest =>
    if b = 0x00#8 then some []
    else
      match untilNul rest with
      | some s => some (b :: s)
      | none => none

/-- Tag `U`: unpack (R177): up to the least index `j >= c` with `in[j] = 0x00`. -/
def unpackUtf8 (input : List Byte) (c : Nat) : Option (Value × Nat) :=
  match untilNul (input.drop c) with
  | some bs => some (.str bs, c + bs.length + 1)
  | none => none

/-- `Match(Sc(t), v)` (R169). -/
def matchScalar (cfg : Config) : ScalarTag → Value → Bool
  | .bool, v => matchBool v
  | .u8, v => matchU8 v
  | .u16, v => matchU16 v
  | .u32, v => matchU32 v
  | .i32, v => matchI32 v
  | .blob, v => matchBlob cfg v
  | .utf8, v => matchUtf8 v

/-- `Enc(Sc(t), v)` (R170), for a value that matches. DESIGN CHOICE for one that does not, where R170 leaves `Enc`
undefined and no operation asks for it: a value of another kind gives no byte; an integer of the right kind outside its
range gives the low bytes of it, all 0 for a negative one but for tag `l`, which takes it modulo 2^32; a blob too long
for its prefix gives the low bytes of its length and all its bytes; a string keeps an embedded 0x00 (log 18). -/
def packScalar (cfg : Config) : ScalarTag → Value → List Byte
  | .bool, v => packBool v
  | .u8, v => packU8 v
  | .u16, v => packU16 v
  | .u32, v => packU32 v
  | .i32, v => packI32 v
  | .blob, v => packBlob cfg v
  | .utf8, v => packUtf8 v

/-- `DecItem(Sc(t), in, c)` (R182). -/
def unpackScalar (cfg : Config) (t : ScalarTag) (input : List Byte) (c : Nat) : Option (Value × Nat) :=
  match t with
  | .bool => unpackBool input c
  | .u8 => unpackU8 input c
  | .u16 => unpackU16 input c
  | .u32 => unpackU32 input c
  | .i32 => unpackI32 input c
  | .blob => unpackBlob cfg input c
  | .utf8 => unpackUtf8 input c

/-! ### Matching and packing items (R169, R170, R178, R180) -/

/-- `f` holds of every value of the sequence. -/
def allValues (f : Value → Bool) : Values → Bool
  | .nil => true
  | .cons v vs => f v && allValues f vs

/-- `f(vs[0]) ++ f(vs[1]) ++ …`. -/
def concatValues (f : Value → List Byte) : Values → List Byte
  | .nil => []
  | .cons v vs => f v ++ concatValues f vs

mutual
/-- `Match(item, v)` (R169). -/
def matchItem (cfg : Config) : Item → Value → Bool
  | .sc t, v => matchScalar cfg t v
  | .st its, .struct vs => matchItems cfg its vs
  | .st _, _ => false
  | .ar e, .array vs => allValues (matchItem cfg e) vs
  | .ar _, _ => false

/-- `MatchList(items, vs)` (R169). -/
def matchItems (cfg : Config) : Items → Values → Bool
  | .nil, .nil => true
  | .cons it its, .cons v vs => matchItem cfg it v && matchItems cfg its vs
  | .nil, .cons _ _ => false
  | .cons _ _, .nil => false
end

mutual
/-- `Enc(item, v)` (R170), for a value that matches. DESIGN CHOICE for one that does not, where R170 leaves `Enc`
undefined and ARG_PACK asks for it only after `MatchList`: a scalar is as `packScalar` says, a value that is no structure
or no array where the item is one gives no byte, and a list is encoded as far as both it and its items go (log 18). -/
def encItem (cfg : Config) : Item → Value → List Byte
  | .sc t, v => packScalar cfg t v
  | .st its, .struct vs => encItems cfg its vs
  | .st _, _ => []
  | .ar e, .array vs => concatValues (encItem cfg e) vs
  | .ar _, _ => []

/-- `EncList(items, vs)` (R170). -/
def encItems (cfg : Config) : Items → Values → List Byte
  | .nil, _ => []
  | .cons it its, .cons v vs => encItem cfg it v ++ encItems cfg its vs
  | .cons _ _, .nil => []
end

/-! ### Unpacking items (R182 to R184) -/

/-- The array loop of R180: decode elements while `c < |in|`. `fuel` bounds the passes; R184 says `|in| - c` of them
are enough for an element of non-zero width (log 19). -/
def arrayLoop (dec : Nat → Option (Value × Nat)) (size : Nat) : Nat → Nat → Option (Values × Nat)
  | 0, c => if c < size then none else some (.nil, c)
  | fuel + 1, c =>
    if c < size then
      match dec c with
      | none => none
      | some (w, c') =>
        match arrayLoop dec size fuel c' with
        | none => none
        | some (ws, c'') => some (.cons w ws, c'')
    else some (.nil, c)

mutual
/-- `DecItem(item, in, c)` (R182); `none` is Starved. -/
def decItem (cfg : Config) (input : List Byte) : Item → Nat → Option (Value × Nat)
  | .sc t, c => unpackScalar cfg t input c
  | .st its, c =>
    match decItems cfg input its c with
    | some (vs, c') => some (.struct vs, c')
    | none => none
  | .ar e, c =>
    match arrayLoop (decItem cfg input e) input.length (input.length - c) c with
    | some (vs, c') => some (.array vs, c')
    | none => none

/-- `DecItem` over the items of a structure, threading the cursor (R178, R182). -/
def decItems (cfg : Config) (input : List Byte) : Items → Nat → Option (Values × Nat)
  | .nil, c => some (.nil, c)
  | .cons it its, c =>
    match decItem cfg input it c with
    | none => none
    | some (v, c') =>
      match decItems cfg input its c' with
      | none => none
      | some (vs, c'') => some (.cons v vs, c'')
end

/-! ### Operations (R186, R187) -/

/-- The results of `ARG_PACK desc, vals, cap` (R186). -/
def packReply (cfg : Config) (desc : List Byte) (vals : Values) (cap : Nat) : Reply :=
  match wfItems cfg desc with
  | none => .packed .errBadDesc []
  | some its =>
    if matchItems cfg its vals then
      if cap < (encItems cfg its vals).length then .packed .errNoBufs []
      else .packed .ok (encItems cfg its vals)
    else .packed .errInvalidArgs []

/-- The loop of R187 over the top-level items: the values got so far, and the cursor. -/
def unpackItems (cfg : Config) (input : List Byte) : Items → Values → Nat → Reply
  | .nil, got, c => .unpacked .ok got c
  | .cons it its, got, c =>
    match decItem cfg input it c with
    | none => .unpacked .errParse got c
    | some (v, c') => unpackItems cfg input its (got.snoc v) c'

/-- The results of `ARG_UNPACK desc, in` (R187). -/
def unpackReply (cfg : Config) (desc input : List Byte) : Reply :=
  match wfItems cfg desc with
  | none => .unpacked .errBadDesc .nil 0
  | some its => unpackItems cfg input its .nil 0

/-- ARG_PACK desc, vals, cap (R186): a pure function of its operands (R34, R191); no state of the framer changes. -/
def execArgPack (desc : List Byte) (vals : Values) (cap : Nat) (s : State) : StepResult :=
  .next (s.respond (packReply s.cfg desc vals cap))

/-- ARG_UNPACK desc, in (R187): a pure function of its operands (R34, R191); no state of the framer changes. -/
def execArgUnpack (desc input : List Byte) (s : State) : StepResult :=
  .next (s.respond (unpackReply s.cfg desc input))

end Sys2Proof.Machine
end

