-- ==== Sys2Proof/Machine/Tags.lean ====
section
/-! DEFINITION. The ten tags as instructions: each is one step of the walk over a descriptor (42_argcodec.md R170,
R182; rules R171 to R180). An ARG operation makes its walk inside its own single step (20_memory.md R59), as
packReply and unpackReply of Machine/Arg.lean say; here is the same walk tag by tag, with the descriptor position
and the cursor in `State.walk` (10_state.md R21; log 6). -/

namespace Sys2Proof.Machine

/-- The walk of `ARG_PACK desc, vals, cap` before its first tag. -/
def packWalk (desc : List Byte) (vals : Values) (cap : Nat) : Walk := ⟨desc, 0, .pack vals [] [] cap⟩

/-- The walk of `ARG_UNPACK desc, in` before its first tag. -/
def unpackWalk (desc input : List Byte) : Walk := ⟨desc, 0, .unpack input 0 .nil [] 0⟩

/-- The walk ends and the host receives the operation's results. -/
def walkClose (s : State) (r : Reply) : State := (s.setWalk none).respond r

/-- The results of an operation on an ill-formed descriptor (R168, R186, R187). -/
def badDescReply : Job → Reply
  | .pack _ _ _ _ => .packed .errBadDesc []
  | .unpack _ _ _ _ _ => .unpacked .errBadDesc .nil 0

/-- The values of the top-level list, given those of the open list and of the enclosing ones. -/
def topValues (got : Values) : List Values → Values
  | [] => got
  | g :: outer => topValues g outer

/-- The results when the descriptor is exhausted (R186, R187). -/
def walkResult : Job → Reply
  | .pack todo [] out cap =>
    match todo with
    | .nil => if cap < out.length then .packed .errNoBufs [] else .packed .ok out
    | .cons _ _ => .packed .errInvalidArgs []
  | .unpack _ _ got [] consumed => .unpacked .ok got consumed
  | .pack _ (_ :: _) _ _ => .packed .errBadDesc []
  | .unpack _ _ _ (_ :: _) _ => .unpacked .errBadDesc .nil 0

/-- The walk goes to descriptor position `pos`, or ends there when the descriptor is exhausted. -/
def walkTo (s : State) (w : Walk) (pos : Nat) (job : Job) : State :=
  if pos < w.desc.length then s.setWalk (some ⟨w.desc, pos, job⟩) else walkClose s (walkResult job)

/-- The walk is `Starved` (R183, R187): the top-level values decoded before the starving item, and the cursor after
them. -/
def walkStarved (s : State) (got : Values) (outer : List Values) (consumed : Nat) : State :=
  walkClose s (.unpacked .errParse (topValues got outer) consumed)

/-- A value does not match its item (R186). -/
def walkInvalid (s : State) : State := walkClose s (.packed .errInvalidArgs [])

/-- `consumed` after an item of the open list: it moves only when the list is the top-level one (R187). -/
def consumedAfter (outer : List Values) (consumed c : Nat) : Nat :=
  match outer with
  | [] => c
  | _ :: _ => consumed

/-- The tag at index `i` is `*`, so the item that ends before it is an array's element, "not decoded on its own"
(R180). -/
def starAt (desc : List Byte) (i : Nat) : Bool := decide (desc[i]? = some (Tag.toByte .array))

/-- One tag acts on the walk in progress. A tag outside a walk is no operation (log 7); an ill-formed descriptor
ends the walk with `ERR_BAD_DESC` before any value or byte is touched (R168). -/
def onWalk (act : Walk → State → State) (s : State) : StepResult :=
  match s.walk with
  | none => .refused .tagOutsideWalk
  | some w =>
    if wfDesc s.cfg w.desc then .next (act w s) else .next (walkClose s (badDescReply w.job))

/-- A scalar tag (R170, R171 to R177, R182). -/
def scalarTag (t : ScalarTag) (w : Walk) (s : State) : State :=
  if starAt w.desc (w.pos + 1) then walkTo s w (w.pos + 1) w.job
  else
    match w.job with
    | .pack .nil _ _ _ => walkInvalid s
    | .pack (.cons v todo) outer out cap =>
      if matchScalar s.cfg t v then walkTo s w (w.pos + 1) (.pack todo outer (out ++ packScalar s.cfg t v) cap)
      else walkInvalid s
    | .unpack input c got outer consumed =>
      match unpackScalar s.cfg t input c with
      | none => walkStarved s got outer consumed
      | some (v, c') =>
        walkTo s w (w.pos + 1) (.unpack input c' (got.snoc v) outer (consumedAfter outer consumed c'))

/-- The index, counted from the start of the sequence, of the `)` that closes a structure already open, with `n`
further ones open inside it (R163). -/
def matchingClose : Nat → List Byte → Option Nat
  | _, [] => none
  | n, b :: rest =>
    if b = Tag.toByte .structOpen then (matchingClose (n + 1) rest).map (· + 1)
    else if b = Tag.toByte .structClose then
      match n with
      | 0 => some 0
      | m + 1 => (matchingClose m rest).map (· + 1)
    else (matchingClose n rest).map (· + 1)

/-- Tag `(` (R178, R182): enter the nested item list, or go to the `*` when the structure is an array's element. -/
def structOpenTag (w : Walk) (s : State) : State :=
  match matchingClose 0 (w.desc.drop (w.pos + 1)) with
  | none => walkClose s (badDescReply w.job)
  | some k =>
    if starAt w.desc (w.pos + 1 + k + 1) then walkTo s w (w.pos + 1 + k + 1) w.job
    else
      match w.job with
      | .pack (.cons (.struct vs) todo) outer out cap => walkTo s w (w.pos + 1) (.pack vs (todo :: outer) out cap)
      | .pack _ _ _ _ => walkInvalid s
      | .unpack input c got outer consumed => walkTo s w (w.pos + 1) (.unpack input c .nil (got :: outer) consumed)

/-- Tag `)` (R179, R182): return to the enclosing item list. -/
def structCloseTag (w : Walk) (s : State) : State :=
  match w.job with
  | .pack .nil (todo :: outer) out cap => walkTo s w (w.pos + 1) (.pack todo outer out cap)
  | .pack (.cons _ _) (_ :: _) _ _ => walkInvalid s
  | .unpack input c vs (got :: outer) consumed =>
    walkTo s w (w.pos + 1) (.unpack input c (got.snoc (.struct vs)) outer (consumedAfter outer consumed c))
  | .pack _ [] _ _ => walkClose s (badDescReply w.job)
  | .unpack _ _ _ [] _ => walkClose s (badDescReply w.job)

/-- The item that ends just before descriptor position `pos` (R160, R180). -/
def elementBefore (desc : List Byte) (pos : Nat) : Option Item :=
  match tagsOf (desc.take pos) with
  | none => none
  | some ts =>
    match parseTags ⟨[], []⟩ ts with
    | some ⟨e :: _, _⟩ => some e
    | _ => none

/-- Tag `*` (R180, R184): the array of the element just before it. -/
def arrayTag (w : Walk) (s : State) : State :=
  match elementBefore w.desc w.pos with
  | none => walkClose s (badDescReply w.job)
  | some e =>
    match w.job with
    | .pack .nil _ _ _ => walkInvalid s
    | .pack (.cons v todo) outer out cap =>
      if matchItem s.cfg (.ar e) v then
        walkTo s w (w.pos + 1) (.pack todo outer (out ++ encItem s.cfg (.ar e) v) cap)
      else walkInvalid s
    | .unpack input c got outer consumed =>
      match decItem s.cfg input (.ar e) c with
      | none => walkStarved s got outer consumed
      | some (v, c') =>
        walkTo s w (w.pos + 1) (.unpack input c' (got.snoc v) outer (consumedAfter outer consumed c'))

/-- TAG_BOOL (R171). -/
def execTagBool (s : State) : StepResult := onWalk (scalarTag .bool) s

/-- TAG_U8 (R172). -/
def execTagU8 (s : State) : StepResult := onWalk (scalarTag .u8) s

/-- TAG_U16 (R173). -/
def execTagU16 (s : State) : StepResult := onWalk (scalarTag .u16) s

/-- TAG_U32 (R174). -/
def execTagU32 (s : State) : StepResult := onWalk (scalarTag .u32) s

/-- TAG_I32 (R175). -/
def execTagI32 (s : State) : StepResult := onWalk (scalarTag .i32) s

/-- TAG_BLOB (R176). -/
def execTagBlob (s : State) : StepResult := onWalk (scalarTag .blob) s

/-- TAG_UTF8 (R177). -/
def execTagUtf8 (s : State) : StepResult := onWalk (scalarTag .utf8) s

/-- TAG_STRUCT_OPEN (R178). -/
def execTagStructOpen (s : State) : StepResult := onWalk structOpenTag s

/-- TAG_STRUCT_CLOSE (R179). -/
def execTagStructClose (s : State) : StepResult := onWalk structCloseTag s

/-- TAG_ARRAY (R180). -/
def execTagArray (s : State) : StepResult := onWalk arrayTag s

end Sys2Proof.Machine
end

