-- ==== Sys2Proof/Machine/Dispatch.lean ====
section
/-! DEFINITION. One arm per instruction, each one direct call of its meaning. -/

namespace Sys2Proof.Machine

def exec (i : Instr) (s : State) : Host.Outcome State Fault Refusal :=
  match i with
  | .reset => Sys2Proof.Machine.execReset s
  | .hdlcTxFrame payload => Sys2Proof.Machine.execHdlcTxFrame payload s
  | .hdlcTxBegin => Sys2Proof.Machine.execHdlcTxBegin s
  | .hdlcTxByte b => Sys2Proof.Machine.execHdlcTxByte b s
  | .hdlcTxEnd => Sys2Proof.Machine.execHdlcTxEnd s
  | .hdlcTxAbort => Sys2Proof.Machine.execHdlcTxAbort s
  | .hdlcRxByte b => Sys2Proof.Machine.execHdlcRxByte b s
  | .flenTxFrame payload => Sys2Proof.Machine.execFlenTxFrame payload s
  | .flenRxByte b => Sys2Proof.Machine.execFlenRxByte b s
  | .flenRxAbort => Sys2Proof.Machine.execFlenRxAbort s
  | .argPack desc vals cap => Sys2Proof.Machine.execArgPack desc vals cap s
  | .argUnpack desc input => Sys2Proof.Machine.execArgUnpack desc input s
  | .tagBool => Sys2Proof.Machine.execTagBool s
  | .tagU8 => Sys2Proof.Machine.execTagU8 s
  | .tagU16 => Sys2Proof.Machine.execTagU16 s
  | .tagU32 => Sys2Proof.Machine.execTagU32 s
  | .tagI32 => Sys2Proof.Machine.execTagI32 s
  | .tagBlob => Sys2Proof.Machine.execTagBlob s
  | .tagUtf8 => Sys2Proof.Machine.execTagUtf8 s
  | .tagStructOpen => Sys2Proof.Machine.execTagStructOpen s
  | .tagStructClose => Sys2Proof.Machine.execTagStructClose s
  | .tagArray => Sys2Proof.Machine.execTagArray s

end Sys2Proof.Machine
end

