-- ==== Sys2Proof/Machine/Fetch.lean ====
section
/-! DEFINITION. Where the next instruction comes from: the tag at the position of the walk in progress, or, when
there is none, the host's next action (30_encoding.md R70, R80; 70_reset_and_hazards.md R265). -/

namespace Sys2Proof.Machine

/-- What a step does. -/
inductive Fetched where
  /-- The host has nothing to do: the framer holds its state (60_exceptions.md R238). -/
  | idle
  /-- An instruction, with the state it runs in (the host's action taken out of the inbox). -/
  | run (i : Instr) (s : State)
  /-- An unassigned opcode (30_encoding.md R73). -/
  | unknown (s : State)
  /-- The step's result is this state: a host's read of an output, or the end of a walk. -/
  | done (s : State)
  /-- The step is refused. -/
  | refuse (r : Refusal)

/-- The next tag of the walk `w` (R80 to R82): at the end of the descriptor the walk ends, and a byte that is no
tag makes the descriptor ill-formed. -/
def fetchTag (w : Walk) (s : State) : Fetched :=
  match w.desc[w.pos]? with
  | none => .done (walkClose s (walkResult w.job))
  | some b =>
    match decode (.tag b) with
    | .ok i => .run i s
    | .error _ => .done (walkClose s (badDescReply w.job))

/-- The request `r` of the host, already out of the inbox of `s` (R70 to R73). -/
def fetchRequest (r : Request) (s : State) : Fetched :=
  match decode (.op r) with
  | .ok i => if i.wellFormed then .run i s else .refuse .operandRange
  | .error (.unassignedOpcode _) => .unknown s
  | .error (.wrongOperands op) => .refuse (.wrongOperands op)
  | .error (.illegalTag _) => .refuse (.wrongOperands r.opcode)

/-- The host's next action. -/
def fetchAction (s : State) : Fetched :=
  match s.inbox with
  | [] => .idle
  | .issue r :: rest => fetchRequest r (s.setInbox rest)
  | .takeHOut n :: rest => .done ((s.setInbox rest).takeHOut n)
  | .takeFOut n :: rest => .done ((s.setInbox rest).takeFOut n)
  | .takeEvents n :: rest => .done ((s.setInbox rest).takeEvents n)

/-- The fetch: a walk in progress goes on before the next operation is accepted (20_memory.md R59); an illegal
configuration is refused (00_scope.md R8). -/
def fetch (s : State) : Fetched :=
  if configLegal s.cfg then
    match s.walk with
    | some w => fetchTag w s
    | none => fetchAction s
  else .refuse .illegalConfiguration

/-- A walk whose next tag is the tag byte `b`, over an input of eight zero bytes: the walk of the descriptor `b`
alone, or for `*` that of `C*` at its `*`, because a `*` comes right after its element (R165; log 9). -/
def tagWalk (b : Byte) : Walk :=
  if b = Tag.toByte .array then ⟨[Tag.toByte (.scalar .u8), b], 1, .unpack (List.replicate 8 0#8) 0 .nil [] 0⟩
  else unpackWalk [b] (List.replicate 8 0#8)

/-- The code word `c` placed where the next step fetches: an operation at the head of the inbox, with no walk in
progress; a tag as the next tag of a walk. -/
def placeCode (c : Code) (s : State) : State :=
  match c with
  | .op r => (s.setWalk none).setInbox (.issue r :: s.inbox)
  | .tag b => s.setWalk (some (tagWalk b))

end Sys2Proof.Machine
end

