-- ==== Sys2Proof/Machine/Step.lean ====
section
/-! DEFINITION. One step: fetch, decode, execute. -/

namespace Sys2Proof.Machine

/-- One step of the machine. An operation runs to completion in one step (00_scope.md R6, 20_memory.md R59). -/
def step (s : State) : Host.Outcome State Fault Refusal :=
  match fetch s with
  | .idle => .next s
  | .run i t => exec i t
  | .unknown t => unknownOp t
  | .done t => .next t
  | .refuse r => .refused r

/-- The instruction of a row of spec/opcode_table.json, stored where `step` fetches its next instruction (log 9). -/
def State.withFetchWord (s : State) (nbits w : Nat) : State := placeCode (tableCode nbits w) s

end Sys2Proof.Machine
end

