-- ==== Sys2Proof/Machine/Flags.lean ====
section
/-! DEFINITION. The framer keeps no flag that survives an operation (10_state.md R39): what stands in the place of
flags is the status each operation returns. Its number (60_exceptions.md R220), the statuses each operation may
return (R221), and the status of a pseudo-operation (30_encoding.md R75). -/

namespace Sys2Proof.Machine

/-- The column "code" of R220. -/
def Status.code : Status → Nat
  | .ok => 0
  | .errParse => 1
  | .errNoBufs => 2
  | .errInvalidArgs => 3
  | .errBadDesc => 4
  | .errInvalidState => 5
  | .errUnknownOp => 6

/-- The table of R221, for the operations; a tag acts inside an ARG operation and its walk ends with one of that
operation's statuses. -/
def allowedStatuses : Instr → List Status
  | .reset => [.ok]
  | .hdlcTxFrame _ => [.ok, .errNoBufs, .errInvalidState]
  | .hdlcTxBegin => [.ok, .errInvalidState]
  | .hdlcTxByte _ => [.ok, .errNoBufs, .errInvalidState]
  | .hdlcTxEnd => [.ok, .errInvalidState]
  | .hdlcTxAbort => [.ok, .errInvalidState]
  | .hdlcRxByte _ => [.ok]
  | .flenTxFrame _ => [.ok, .errNoBufs]
  | .flenRxByte _ => [.ok]
  | .flenRxAbort => [.ok]
  | .argPack _ _ _ => [.ok, .errNoBufs, .errInvalidArgs, .errBadDesc]
  | .argUnpack _ _ => [.ok, .errParse, .errBadDesc]
  | .tagBool => [.ok, .errParse, .errNoBufs, .errInvalidArgs, .errBadDesc]
  | .tagU8 => [.ok, .errParse, .errNoBufs, .errInvalidArgs, .errBadDesc]
  | .tagU16 => [.ok, .errParse, .errNoBufs, .errInvalidArgs, .errBadDesc]
  | .tagU32 => [.ok, .errParse, .errNoBufs, .errInvalidArgs, .errBadDesc]
  | .tagI32 => [.ok, .errParse, .errNoBufs, .errInvalidArgs, .errBadDesc]
  | .tagBlob => [.ok, .errParse, .errNoBufs, .errInvalidArgs, .errBadDesc]
  | .tagUtf8 => [.ok, .errParse, .errNoBufs, .errInvalidArgs, .errBadDesc]
  | .tagStructOpen => [.ok, .errParse, .errNoBufs, .errInvalidArgs, .errBadDesc]
  | .tagStructClose => [.ok, .errParse, .errNoBufs, .errInvalidArgs, .errBadDesc]
  | .tagArray => [.ok, .errParse, .errNoBufs, .errInvalidArgs, .errBadDesc]

/-- The status of a pseudo-operation (R75): the first status that is not `OK`, or `OK` if there is none. -/
def firstError : List Status → Status
  | [] => .ok
  | st :: rest => if st = .ok then firstError rest else st

end Sys2Proof.Machine
end

