-- ==== Sys2Proof/Machine/Pseudo.lean ====
section
/-! DEFINITION. The pseudo-operations of 30_encoding.md R75: lists of operations, run one after the other. -/

namespace Sys2Proof.Machine

/-- The operations of a list, each in the state the one before left (20_memory.md R61). -/
def execAll : List Instr → State → StepResult
  | [], s => .next s
  | i :: rest, s =>
    match exec i s with
    | .next t => execAll rest t
    | .fault r => .fault r
    | .refused r => .refused r

/-- `HDLC_RX_BYTES [b0 … bn]` (R75). -/
def hdlcRxBytes (bs : List Byte) : List Instr := bs.map Instr.hdlcRxByte

/-- `FLEN_RX_BYTES [b0 … bn]` (R75). -/
def flenRxBytes (bs : List Byte) : List Instr := bs.map Instr.flenRxByte

/-- `HDLC_TX_BYTES [b0 … bn]` (R75). -/
def hdlcTxBytes (bs : List Byte) : List Instr := bs.map Instr.hdlcTxByte

/-- The status of a pseudo-operation that took the machine from `s` to `t` (R75). -/
def pseudoStatus (s t : State) : Status := firstError ((t.replies.drop s.replies.length).map Reply.st)

end Sys2Proof.Machine
end

