-- ==== Sys2Proof/Safety.lean ====
section
/-! DEFINITION. What counts as a good state and a safe run: the invariants of 10_state.md R41 and R22, the bounds of
the buffers (20_memory.md R51), and the terms the statements use. -/

namespace Sys2Proof.Machine

/-- Every index the buffer holds is inside its `cap` bytes (R51). -/
def bufferWithin (cap : Nat) (m : Buffer) : Bool := m.all fun cell => decide (cell.1 < cap)

/-- The buffers are in their canonical form and inside their capacities (R50, R51). -/
structure BuffersOk (s : State) : Prop where
  rxBuf : Buffer.wf s.rx.buf = true
  flHdr : Buffer.wf s.fl.hdr = true
  flBuf : Buffer.wf s.fl.buf = true
  rxBufWithin : bufferWithin s.cfg.hdlcRxCap s.rx.buf = true
  flHdrWithin : bufferWithin s.cfg.flenLenBytes s.fl.hdr = true
  flBufWithin : bufferWithin s.cfg.flenMax s.fl.buf = true

/-- The encoder's invariants: R41 (c), and the range of `tx.count` (R22). Of R41 (d) it keeps what the state alone can
say: `tx.fcs` is the run over some sequence of `tx.count` bytes. That those are the bytes accepted since HDLC_TX_BEGIN
speaks of the history, which the state does not hold. -/
structure TxOk (s : State) : Prop where
  idle : s.tx.state = .idle → s.tx.count = 0 ∧ s.tx.fcs = s.cfg.fcsInit
  opened : s.tx.state = .open → ∃ p, s.tx.fcs = fcsRun s.cfg s.cfg.fcsInit p ∧ s.tx.count = p.length
  count : s.tx.count ≤ s.cfg.maxFrame

/-- The HDLC decoder's invariants: R41 (a) and (b). -/
structure RxOk (s : State) : Prop where
  hunt : s.rx.state = .hunt → s.rx.len = 0
  len : s.rx.len ≤ s.cfg.hdlcRxCap

/-- The FLEN decoder's invariants: R41 (e) to (h), and the ranges of R22. That `fl.count` is 0 in FL_HDR follows from
R42 and R143 to R147; with R41 (f) it gives `fl.count` its range of R22 in every state. -/
structure FlOk (s : State) : Prop where
  hcount : s.fl.hcount < s.cfg.flenLenBytes
  hdr : s.fl.state = .hdr → s.fl.count = 0
  count : s.fl.state = .body ∨ s.fl.state = .skip → s.fl.count < s.fl.len
  body : s.fl.state = .body → 1 ≤ s.fl.len ∧ s.fl.len ≤ s.cfg.flenMax
  skip : s.fl.state = .skip → s.cfg.flenMax < s.fl.len
  len : s.fl.len < 2 ^ (8 * s.cfg.flenLenBytes)

/-- The bounds of R225 on the payloads the queue holds. -/
def eventBounded (c : Config) : Event → Prop
  | .hdlcFrame p => p.length ≤ c.maxFrame
  | .flenFrame p => p.length ≤ c.flenMax
  | .hdlcDiscard _ => True
  | .flenDiscard _ => True

/-- The invariant: a legal configuration with the relations of R28, R30 and R105, the invariants of R41, the
buffers inside their bounds, bounded events, and no walk between operations (R34). -/
structure StateOk (s : State) : Prop where
  legal : configLegal s.cfg = true
  standard : configStandard s.cfg
  tx : TxOk s
  rx : RxOk s
  fl : FlOk s
  buffers : BuffersOk s
  events : ∀ e ∈ s.evq, eventBounded s.cfg e
  noWalk : s.walk = none

/-- A state a run reaches: power-on with any legal configuration and any actions of the host, and then steps
(70_reset_and_hazards.md R250, R254, R266). -/
inductive Reachable : State → Prop where
  | start (c : Config) (acts : List HostAction) :
      configLegal c = true → configStandard c →
      Reachable ⟨c, ⟨.idle, c.fcsInit, 0⟩, State.reset.rx, State.reset.fl, [], [], [], none, acts, []⟩
  | step (s t : State) : Reachable s → Sys2Proof.Machine.step s = .next t → Reachable t

/-- A safe outcome: the machine does not stop with a fault. -/
def noFault : StepResult → Prop
  | .fault _ => False
  | .next _ => True
  | .refused _ => True

/-- The instruction is one of the twelve operations of R72, not a tag. -/
def isOperation (i : Instr) : Prop := ∃ r, encode i = .op r

/-- The un-escaped form of the bytes between two flags (R123, R126), or `none` when an escape octet has no partner. -/
def unescape (c : Config) : List Byte → Option (List Byte)
  | [] => some []
  | b :: rest =>
    if b = c.hdlcEsc then
      match rest with
      | [] => none
      | w :: rest' => (unescape c rest').map fun s => (w ^^^ c.escXor) :: s
    else (unescape c rest).map fun s => b :: s

/-- `v` with bit `k` flipped. -/
def flipBit (v : Byte) (k : Nat) : Byte := v ^^^ (1#8 <<< k)

/-- `it` is an item of the list, or of a structure or an array in it, at any depth. -/
inductive Occurs (it : Item) : Items → Prop
  | head (its : Items) : Occurs it (.cons it its)
  | tail (jt : Item) (its : Items) : Occurs it its → Occurs it (.cons jt its)
  | member (ms its : Items) : Occurs it ms → Occurs it (.cons (.st ms) its)
  | element (e : Item) (its : Items) : Occurs it (.cons e .nil) → Occurs it (.cons (.ar e) its)

/-- The descriptor passes the checks W1 to W6 and parses as `its`, in the words of R162 to R168. The checks W2 to W5
speak of the tags `ts` and their positions; they name none of the model's checkers. -/
structure PassesChecks (c : Config) (desc : List Byte) (ts : List Tag) (its : Items) : Prop where
  /-- W1 (R162): every byte is the byte of a tag. -/
  legal : desc = ts.map Tag.toByte
  /-- W2 (R163): no prefix closes more structures than it opens, and in all as many are closed as opened. -/
  balance : (∀ k, (ts.take k).count .structClose ≤ (ts.take k).count .structOpen) ∧
    ts.count .structClose = ts.count .structOpen
  /-- W3 (R164): at most `ARG_MAX_DEPTH` structures are open after any prefix. -/
  depth : ∀ k, (ts.take k).count .structOpen ≤ (ts.take k).count .structClose + c.argMaxDepth
  /-- W4 (R165): the tag just before a `*` is a scalar or a `)`. -/
  placed : ∀ k, ts[k]? = some .array → ∃ j t, k = j + 1 ∧ ts[j]? = some t ∧ (t = .structClose ∨ ∃ u, t = .scalar u)
  /-- W5 (R165): every tag after a `*` is a `)`. -/
  terminal : ∀ k, ts[k]? = some .array → ∀ t ∈ ts.drop (k + 1), t = .structClose
  /-- The descriptor is the items written by the grammar of R160. -/
  grammar : itemsTags its = ts ∧ itemsFormed its = true
  /-- W6 (R167): the element of every array, at any depth, has a minimum width of at least 1. -/
  progress : ∀ e, Occurs (.ar e) its → 1 ≤ minWidth c e

mutual
/-- The packed length of a value (42_argcodec.md R181). -/
def valueWidth (c : Config) : Value → Nat
  | .bool _ => 1
  | .u8 _ => 1
  | .u16 _ => 2
  | .u32 _ => 4
  | .i32 _ => 4
  | .blob bs => c.blobLenBytes + bs.length
  | .str bs => bs.length + 1
  | .struct vs => valuesWidth c vs
  | .array vs => valuesWidth c vs

/-- The packed length of a value sequence: the sum over its values. -/
def valuesWidth (c : Config) : Values → Nat
  | .nil => 0
  | .cons v vs => valueWidth c v + valuesWidth c vs
end

end Sys2Proof.Machine
end

