-- ==== Sys2Proof/Certificates/Slice0/Obligations.lean ====
section
/-! DEFINITION. The statements about the model, one definition each. A statement about an operation gives the whole
next state, so that it is its own frame: every field it does not name is unchanged. -/

open Sys2Proof Sys2Proof.Machine

/-! ### Encoding -/

/-- R72 and R81: words written out from the opcode map and the tag map decode to the rows they stand for; 0x28 and
0x29 are an operation in one space and a tag in the other. -/
def Obligations.DecodeReadsTheWordsOfTheSpec : Prop :=
  decode (.op ⟨0x01#8, []⟩) = .ok .reset ∧
  decode (.op ⟨0x10#8, [.bytes [0x7E#8, 0x01#8]]⟩) = .ok (.hdlcTxFrame [0x7E#8, 0x01#8]) ∧
  decode (.op ⟨0x12#8, [.byte 0x7E#8]⟩) = .ok (.hdlcTxByte 0x7E#8) ∧
  decode (.op ⟨0x28#8, [.byte 0x02#8]⟩) = .ok (.flenRxByte 0x02#8) ∧
  decode (.op ⟨0x29#8, []⟩) = .ok .flenRxAbort ∧
  decode (.op ⟨0x31#8, [.desc [0x43#8], .bytes [0x05#8]]⟩) = .ok (.argUnpack [0x43#8] [0x05#8]) ∧
  decode (.tag 0x6C#8) = .ok .tagI32 ∧
  decode (.tag 0x28#8) = .ok .tagStructOpen ∧
  decode (.tag 0x29#8) = .ok .tagStructClose

/-- R72, R81: decode and encode agree, over both encoding spaces: decoding the encoding of any instruction gives the
instruction with every operand, and a code word that decodes is the encoding of what it decodes to, so that no two
words mean the same and no operand is dropped. -/
def Obligations.DecodeAndEncodeAgree : Prop :=
  (∀ i : Instr, decode (encode i) = .ok i) ∧
  (∀ (w : Code) (i : Instr), decode w = .ok i → encode i = w)

/-- R73: an operation whose opcode is not in R72's map changes no state and returns `ERR_UNKNOWN_OP`. -/
def Obligations.UnassignedOpcodeChangesNothing : Prop :=
  ∀ (s : State) (r : Request) (rest : List HostAction),
    configLegal s.cfg = true → s.walk = none → s.inbox = .issue r :: rest →
    r.opcode ∉ [0x01#8, 0x10#8, 0x11#8, 0x12#8, 0x13#8, 0x14#8, 0x18#8, 0x20#8, 0x28#8, 0x29#8, 0x30#8, 0x31#8] →
    step s = .next { s with inbox := rest, replies := s.replies ++ [.status .errUnknownOp] }

/-! ### The step -/

/-- R6, R59, R70: when the host's next action issues a request that decodes to a well-formed instruction, a step is
that instruction in the state whose inbox has lost the request. (The inbox is the model's, log 3.) -/
def Obligations.StepRunsTheDecodedOperation : Prop :=
  ∀ (s : State) (r : Request) (rest : List HostAction) (i : Instr),
    configLegal s.cfg = true → s.walk = none → s.inbox = .issue r :: rest → decode (.op r) = .ok i →
    i.wellFormed = true → step s = exec i { s with inbox := rest }

/-- R80 to R82, R182: while a descriptor is being walked, a step is the tag at the walk's position. (A walk in State
is the model's, log 6.) -/
def Obligations.StepRunsTheNextTag : Prop :=
  ∀ (s : State) (w : Walk) (b : Byte) (i : Instr),
    configLegal s.cfg = true → s.walk = some w → w.desc[w.pos]? = some b → decode (.tag b) = .ok i →
    step s = exec i s

/-- R8: a step refuses a configuration as illegal exactly when one of (a) to (e) fails. That every step makes the check
is the model's (log 13), and so is that a configuration which meets (a) to (e) is never refused as illegal, though it may
break R28, R30 or R105 (log 14). -/
def Obligations.IllegalConfigurationIsRefused : Prop :=
  ∀ s : State,
    step s = .refused .illegalConfiguration ↔
      ¬ ([s.cfg.hdlcFlag, s.cfg.hdlcEsc, s.cfg.hdlcXon, s.cfg.hdlcXoff].Nodup ∧
        (∀ v ∈ s.cfg.escapeSet, v ^^^ s.cfg.escXor ∉ s.cfg.escapeSet) ∧
        1 ≤ s.cfg.maxFrame ∧
        s.cfg.flenMax ≤ 2 ^ (8 * s.cfg.flenLenBytes) - 1 ∧
        1 ≤ s.cfg.argMaxDepth)

/-- R35 to R37, R226, R238, R265: a host that consumes the head of an output changes that output only, and without
an action of the host a step changes nothing. (How the host's actions arrive is the model's, log 3 and 15.) -/
def Obligations.HostReadsRemoveOnlyHeads : Prop :=
  ∀ (s : State) (n : Nat) (rest : List HostAction), configLegal s.cfg = true → s.walk = none →
    (s.inbox = [] → step s = .next s) ∧
    (s.inbox = .takeHOut n :: rest → step s = .next { s with inbox := rest, hOut := s.hOut.drop n }) ∧
    (s.inbox = .takeFOut n :: rest → step s = .next { s with inbox := rest, fOut := s.fOut.drop n }) ∧
    (s.inbox = .takeEvents n :: rest → step s = .next { s with inbox := rest, evq := s.evq.drop n })

/-! ### The HDLC encoder -/

/-- R112: HDLC_TX_FRAME. -/
def Obligations.HdlcTxFrameEmitsTheEncodedFrame : Prop :=
  ∀ (p : List Byte) (s : State),
    decode (.op ⟨0x10#8, [.bytes p]⟩) = .ok (.hdlcTxFrame p) ∧
    (s.tx.state = .open →
      exec (.hdlcTxFrame p) s = .next { s with replies := s.replies ++ [.status .errInvalidState] }) ∧
    (s.tx.state = .idle → s.cfg.maxFrame < p.length →
      exec (.hdlcTxFrame p) s = .next { s with replies := s.replies ++ [.status .errNoBufs] }) ∧
    (s.tx.state = .idle → p.length ≤ s.cfg.maxFrame →
      exec (.hdlcTxFrame p) s =
        .next { s with hOut := s.hOut ++ hdlcEncode s.cfg p, replies := s.replies ++ [.status .ok] })

/-- R113: HDLC_TX_BEGIN. -/
def Obligations.HdlcTxBeginOpensAFrame : Prop :=
  decode (.op ⟨0x11#8, []⟩) = .ok .hdlcTxBegin ∧
  ∀ s : State,
    (s.tx.state = .open →
      exec .hdlcTxBegin s = .next { s with replies := s.replies ++ [.status .errInvalidState] }) ∧
    (s.tx.state = .idle →
      exec .hdlcTxBegin s =
        .next { s with
          hOut := s.hOut ++ [s.cfg.hdlcFlag]
          tx := { state := .open, fcs := s.cfg.fcsInit, count := 0 }
          replies := s.replies ++ [.status .ok] })

/-- R114: HDLC_TX_BYTE. -/
def Obligations.HdlcTxByteFeedsTheOpenFrame : Prop :=
  ∀ (b : Byte) (s : State),
    decode (.op ⟨0x12#8, [.byte b]⟩) = .ok (.hdlcTxByte b) ∧
    (s.tx.state = .idle →
      exec (.hdlcTxByte b) s = .next { s with replies := s.replies ++ [.status .errInvalidState] }) ∧
    (s.tx.state = .open → s.tx.count = s.cfg.maxFrame →
      exec (.hdlcTxByte b) s = .next { s with replies := s.replies ++ [.status .errNoBufs] }) ∧
    (s.tx.state = .open → s.tx.count ≠ s.cfg.maxFrame →
      exec (.hdlcTxByte b) s =
        .next { s with
          hOut := s.hOut ++ (if b ∈ s.cfg.escapeSet then [s.cfg.hdlcEsc, b ^^^ s.cfg.escXor] else [b])
          tx := { state := .open, fcs := fcsStep s.cfg s.tx.fcs b, count := s.tx.count + 1 }
          replies := s.replies ++ [.status .ok] })

/-- R115: HDLC_TX_END. -/
def Obligations.HdlcTxEndClosesTheFrame : Prop :=
  decode (.op ⟨0x13#8, []⟩) = .ok .hdlcTxEnd ∧
  ∀ s : State,
    (s.tx.state = .idle →
      exec .hdlcTxEnd s = .next { s with replies := s.replies ++ [.status .errInvalidState] }) ∧
    (s.tx.state = .open →
      exec .hdlcTxEnd s =
        .next { s with
          hOut := s.hOut ++ (escByte s.cfg (lo8 (s.tx.fcs ^^^ s.cfg.fcsXorout)) ++
            escByte s.cfg (hi8 (s.tx.fcs ^^^ s.cfg.fcsXorout)) ++ [s.cfg.hdlcFlag])
          tx := { state := .idle, fcs := s.cfg.fcsInit, count := 0 }
          replies := s.replies ++ [.status .ok] })

/-- R116: HDLC_TX_ABORT. -/
def Obligations.HdlcTxAbortAbandonsTheFrame : Prop :=
  decode (.op ⟨0x14#8, []⟩) = .ok .hdlcTxAbort ∧
  ∀ s : State,
    (s.tx.state = .idle →
      exec .hdlcTxAbort s = .next { s with replies := s.replies ++ [.status .errInvalidState] }) ∧
    (s.tx.state = .open →
      exec .hdlcTxAbort s =
        .next { s with
          hOut := s.hOut ++ [s.cfg.hdlcEsc, s.cfg.hdlcFlag]
          tx := { state := .idle, fcs := s.cfg.fcsInit, count := 0 }
          replies := s.replies ++ [.status .ok] })

/-- R117: begin, the payload's bytes and end return `OK` at every step and leave the state that HDLC_TX_FRAME
leaves, but for the number of replies and the idle encoder's registers. -/
def Obligations.IncrementalFrameEqualsWholeFrame : Prop :=
  ∀ (p : List Byte) (s : State), s.tx.state = .idle → p.length ≤ s.cfg.maxFrame →
    execAll ([.hdlcTxBegin] ++ hdlcTxBytes p ++ [.hdlcTxEnd]) s =
        .next { s with
          hOut := s.hOut ++ hdlcEncode s.cfg p
          tx := { state := .idle, fcs := s.cfg.fcsInit, count := 0 }
          replies := s.replies ++ List.replicate (p.length + 2) (.status .ok) } ∧
    exec (.hdlcTxFrame p) s =
        .next { s with hOut := s.hOut ++ hdlcEncode s.cfg p, replies := s.replies ++ [.status .ok] }

/-- R131: between its two flags an encoded frame is a row of lone bytes and escape pairs, none of which holds a
reserved octet but the escape octet that begins a pair. -/
def Obligations.EncodedFrameHoldsNoFalseFlag : Prop :=
  ∀ (c : Config) (p : List Byte), configLegal c = true → configStandard c →
    ∃ units : List (List Byte),
      hdlcEncode c p = [c.hdlcFlag] ++ units.flatten ++ [c.hdlcFlag] ∧
      ∀ u ∈ units,
        (∃ v, u = [v] ∧ v ∉ [c.hdlcFlag, c.hdlcEsc, c.hdlcXon, c.hdlcXoff]) ∨
        (∃ v, u = [c.hdlcEsc, v] ∧ v ∉ [c.hdlcFlag, c.hdlcEsc, c.hdlcXon, c.hdlcXoff])

/-! ### The FCS -/

/-- R103: the table form of the FCS step is the bit-serial form, least significant bit first, for every generator. -/
def Obligations.FcsStepEqualsTheBitSerialForm : Prop :=
  ∀ (c : Config) (f : Half) (b : Byte), fcsStep c f b = fcsStepSerial c f b

/-- R104: with the default FCS parameters, the register over a payload and its FCS is 0xF0B8. -/
def Obligations.FcsResidueIsTheGoodFcs : Prop :=
  ∀ (c : Config) (p : List Byte),
    c.fcsPoly = 0x8408#16 → c.fcsInit = 0xFFFF#16 → c.fcsXorout = 0xFFFF#16 →
    fcsRun c c.fcsInit (p ++ [lo8 (fcs16 c p), hi8 (fcs16 c p)]) = 0xF0B8#16

/-- R109: with the default generator, a single flipped bit anywhere in a payload and its FCS makes the FCS wrong. -/
def Obligations.FcsDetectsASingleFlippedBit : Prop :=
  ∀ (c : Config) (p before after p' r' : List Byte) (v : Byte) (k : Nat),
    c.fcsPoly = 0x8408#16 → k < 8 →
    p ++ [lo8 (fcs16 c p), hi8 (fcs16 c p)] = before ++ v :: after →
    before ++ flipBit v k :: after = p' ++ r' → r'.length = 2 →
    (fcs16 c p').toNat ≠ fromLE r'

/-! ### The HDLC decoder -/

/-- R121: in RX_HUNT a flag opens a frame and any other byte is dropped. -/
def Obligations.HuntIgnoresAllButAFlag : Prop :=
  ∀ (b : Byte) (s : State), s.rx.state = .hunt →
    (b = s.cfg.hdlcFlag →
      exec (.hdlcRxByte b) s =
        .next { s with rx := { s.rx with state := .data, len := 0 }, replies := s.replies ++ [.status .ok] }) ∧
    (b ≠ s.cfg.hdlcFlag → exec (.hdlcRxByte b) s = .next { s with replies := s.replies ++ [.status .ok] })

/-- R122, R128: in RX_DATA a flag closes the frame: nothing for no byte, SHORT for one, and from two bytes on the
last two are the received FCS. The flag opens the next frame. -/
def Obligations.FlagClosesTheFrame : Prop :=
  ∀ s : State, s.rx.state = .data → s.rx.len ≤ s.cfg.hdlcRxCap →
    (s.rx.len = 0 →
      exec (.hdlcRxByte s.cfg.hdlcFlag) s =
        .next { s with rx := { s.rx with state := .data, len := 0 }, replies := s.replies ++ [.status .ok] }) ∧
    (s.rx.len = 1 →
      exec (.hdlcRxByte s.cfg.hdlcFlag) s =
        .next { s with
          evq := s.evq ++ [.hdlcDiscard .short]
          rx := { s.rx with state := .data, len := 0 }
          replies := s.replies ++ [.status .ok] }) ∧
    (∀ p r, 2 ≤ s.rx.len → p = Buffer.readFrom s.rx.buf 0 (s.rx.len - 2) →
      r = Buffer.readFrom s.rx.buf (s.rx.len - 2) 2 →
      exec (.hdlcRxByte s.cfg.hdlcFlag) s =
        .next { s with
          evq := s.evq ++ [if (fcs16 s.cfg p).toNat = fromLE r then .hdlcFrame p else .hdlcDiscard .fcsMismatch]
          rx := { s.rx with state := .data, len := 0 }
          replies := s.replies ++ [.status .ok] })

/-- R123, R125: in RX_DATA an escape octet stays pending, and nothing is stored; a flag after it discards the frame,
whatever it holds, and opens the next. -/
def Obligations.EscapeStaysPendingUntilItsPartner : Prop :=
  ∀ s : State,
    (s.rx.state = .data → s.cfg.hdlcEsc ≠ s.cfg.hdlcFlag →
      exec (.hdlcRxByte s.cfg.hdlcEsc) s =
        .next { s with rx := { s.rx with state := .esc }, replies := s.replies ++ [.status .ok] }) ∧
    (s.rx.state = .esc →
      exec (.hdlcRxByte s.cfg.hdlcFlag) s =
        .next { s with
          evq := s.evq ++ [.hdlcDiscard .abort]
          rx := { s.rx with state := .data, len := 0 }
          replies := s.replies ++ [.status .ok] })

/-- R124, R127, R134: in RX_DATA any other byte, a raw XON or XOFF too, is stored at `rx.len` and nowhere else, or
overflows a full buffer. -/
def Obligations.DataByteIsStoredOrOverflows : Prop :=
  ∀ (b : Byte) (s : State), s.rx.state = .data → b ≠ s.cfg.hdlcFlag → b ≠ s.cfg.hdlcEsc →
    Buffer.wf s.rx.buf = true →
    (s.rx.len < s.cfg.hdlcRxCap →
      ∃ buf : Buffer,
        (∀ j, Buffer.read buf j = if j = s.rx.len then b else Buffer.read s.rx.buf j) ∧
        exec (.hdlcRxByte b) s =
          .next { s with
            rx := { state := .data, len := s.rx.len + 1, buf := buf }
            replies := s.replies ++ [.status .ok] }) ∧
    (s.cfg.hdlcRxCap ≤ s.rx.len →
      exec (.hdlcRxByte b) s =
        .next { s with
          evq := s.evq ++ [.hdlcDiscard .overflow]
          rx := { s.rx with state := .hunt, len := 0 }
          replies := s.replies ++ [.status .ok] })

/-- R126, R127: any other byte after an escape octet, the escape octet itself too, is un-escaped and stored at
`rx.len` and nowhere else, or overflows a full buffer. -/
def Obligations.EscapedByteIsUnescaped : Prop :=
  ∀ (w : Byte) (s : State), s.rx.state = .esc → w ≠ s.cfg.hdlcFlag → Buffer.wf s.rx.buf = true →
    (s.rx.len < s.cfg.hdlcRxCap →
      ∃ buf : Buffer,
        (∀ j, Buffer.read buf j = if j = s.rx.len then w ^^^ s.cfg.escXor else Buffer.read s.rx.buf j) ∧
        exec (.hdlcRxByte w) s =
          .next { s with
            rx := { state := .data, len := s.rx.len + 1, buf := buf }
            replies := s.replies ++ [.status .ok] }) ∧
    (s.cfg.hdlcRxCap ≤ s.rx.len →
      exec (.hdlcRxByte w) s =
        .next { s with
          evq := s.evq ++ [.hdlcDiscard .overflow]
          rx := { s.rx with state := .hunt, len := 0 }
          replies := s.replies ++ [.status .ok] })

/-- R130: an encoded frame fed to a decoder in any state delivers its payload as the last event, after at most the
close of what the opening flag ended, and with no other event when no byte was pending. -/
def Obligations.HdlcRoundTrip : Prop :=
  ∀ (p : List Byte) (s : State), configLegal s.cfg = true → configStandard s.cfg → p.length ≤ s.cfg.maxFrame →
    s.rx.len ≤ s.cfg.hdlcRxCap → Buffer.wf s.rx.buf = true →
    ∃ (t u : State) (closed : List Event),
      execAll (hdlcRxBytes (hdlcEncode s.cfg p)) s = .next t ∧
      exec (.hdlcRxByte s.cfg.hdlcFlag) s = .next u ∧ u.evq = s.evq ++ closed ∧ closed.length ≤ 1 ∧
      (s.rx.state = .hunt ∨ (s.rx.state = .data ∧ s.rx.len = 0) → closed = []) ∧
      t = { s with
        rx := { state := .data, len := 0, buf := t.rx.buf }
        evq := s.evq ++ closed ++ [.hdlcFrame p]
        replies := s.replies ++ List.replicate (hdlcEncode s.cfg p).length (.status .ok) }

/-- R133: whatever bytes came before, the next whole encoded frame is delivered, as the last event. -/
def Obligations.HdlcResynchronises : Prop :=
  ∀ (noise p : List Byte) (s : State), configLegal s.cfg = true → configStandard s.cfg →
    p.length ≤ s.cfg.maxFrame → s.rx.len ≤ s.cfg.hdlcRxCap → Buffer.wf s.rx.buf = true →
    ∃ t evs, execAll (hdlcRxBytes (noise ++ hdlcEncode s.cfg p)) s = .next t ∧
      t.evq = s.evq ++ evs ++ [.hdlcFrame p] ∧ t.rx.state = .data ∧ t.rx.len = 0

/-- R118, as the model reads it (log 24): in RX_DATA the two bytes of HDLC_TX_ABORT post ABORT and open the next frame;
so they do after the opening flag and the escaped bytes of any partial frame the encoder emits, whatever its last byte,
fed to a peer in any state. In RX_ESC they end the frame with one event that is not ABORT (R126, then R122 or R121). -/
def Obligations.AbortSequenceDiscardsAnOpenFrame : Prop :=
  (∀ s : State, s.rx.state = .data → s.cfg.hdlcEsc ≠ s.cfg.hdlcFlag →
    execAll (hdlcRxBytes [s.cfg.hdlcEsc, s.cfg.hdlcFlag]) s =
      .next { s with
        evq := s.evq ++ [.hdlcDiscard .abort]
        rx := { s.rx with state := .data, len := 0 }
        replies := s.replies ++ [.status .ok, .status .ok] }) ∧
  (∀ (p : List Byte) (s : State), configLegal s.cfg = true → configStandard s.cfg → p.length ≤ s.cfg.maxFrame →
    s.rx.len ≤ s.cfg.hdlcRxCap →
    ∃ (t u : State) (closed : List Event),
      execAll (hdlcRxBytes ([s.cfg.hdlcFlag] ++ escBytes s.cfg p ++ [s.cfg.hdlcEsc, s.cfg.hdlcFlag])) s = .next t ∧
      exec (.hdlcRxByte s.cfg.hdlcFlag) s = .next u ∧ u.evq = s.evq ++ closed ∧
      t.evq = s.evq ++ closed ++ [.hdlcDiscard .abort] ∧ t.rx.state = .data ∧ t.rx.len = 0) ∧
  (∀ s : State, s.rx.state = .esc → s.cfg.hdlcEsc ≠ s.cfg.hdlcFlag → s.rx.len ≤ s.cfg.hdlcRxCap →
    ∃ t e, execAll (hdlcRxBytes [s.cfg.hdlcEsc, s.cfg.hdlcFlag]) s = .next t ∧
      t.evq = s.evq ++ [e] ∧ e ≠ .hdlcDiscard .abort ∧ t.rx.state = .data ∧ t.rx.len = 0)

/-- R118 read as speaking of a peer that is in RX_ESC before the first byte of the abort sequence. The rules refute
that reading: the escape octet is then the partner of the pending one (R126), so the flag closes the frame (R122). The
model reads R118 of each byte as it arrives, the escape octet in RX_DATA and the flag in RX_ESC; the spec has no ruling
on the other reading (log 24). -/
def Obligations.AbortDiscardsEvenAfterAPendingEscape : Prop :=
  ∀ s : State, StateOk s → s.rx.state = .esc →
    ∃ t, execAll (hdlcRxBytes [s.cfg.hdlcEsc, s.cfg.hdlcFlag]) s = .next t ∧
      t.evq = s.evq ++ [.hdlcDiscard .abort] ∧ t.rx.state = .data ∧ t.rx.len = 0

/-- R135: a frame delivered at a flag carries the payload whose bytes, with their FCS, un-escape from what was
received since the flag before. -/
def Obligations.DeliveredFramesAreExact : Prop :=
  ∀ (body p : List Byte) (s t u : State), configLegal s.cfg = true → Buffer.wf s.rx.buf = true →
    s.cfg.hdlcFlag ∉ body →
    execAll (hdlcRxBytes (s.cfg.hdlcFlag :: body)) s = .next t →
    exec (.hdlcRxByte s.cfg.hdlcFlag) t = .next u → u.evq = t.evq ++ [.hdlcFrame p] →
    unescape s.cfg body = some (p ++ [lo8 (fcs16 s.cfg p), hi8 (fcs16 s.cfg p)])

/-- R132 (a): one flipped bit of a lone data byte that becomes neither a flag nor an escape octet, or of the second
byte of an escape pair that does not become a flag, discards the frame with FCS_MISMATCH, and the next frame is
delivered. -/
def Obligations.FlippedBitDiscardsOnlyItsFrame : Prop :=
  ∀ (p q before after bad : List Byte) (v : Byte) (k : Nat) (s : State),
    configLegal s.cfg = true → configStandard s.cfg → s.cfg.fcsPoly = 0x8408#16 → Buffer.wf s.rx.buf = true →
    p.length ≤ s.cfg.maxFrame → q.length ≤ s.cfg.maxFrame → s.rx.state = .hunt → k < 8 →
    p ++ [lo8 (fcs16 s.cfg p), hi8 (fcs16 s.cfg p)] = before ++ v :: after →
    ((v ∉ s.cfg.escapeSet ∧ bad = [flipBit v k] ∧ flipBit v k ≠ s.cfg.hdlcFlag ∧ flipBit v k ≠ s.cfg.hdlcEsc) ∨
      (v ∈ s.cfg.escapeSet ∧ bad = [s.cfg.hdlcEsc, flipBit (v ^^^ s.cfg.escXor) k] ∧
        flipBit (v ^^^ s.cfg.escXor) k ≠ s.cfg.hdlcFlag)) →
    ∃ t, execAll
        (hdlcRxBytes ([s.cfg.hdlcFlag] ++ escBytes s.cfg before ++ bad ++ escBytes s.cfg after ++ [s.cfg.hdlcFlag] ++
          hdlcEncode s.cfg q)) s = .next t ∧
      t.evq = s.evq ++ [.hdlcDiscard .fcsMismatch, .hdlcFrame q]

/-! ### The FLEN unit -/

/-- R140: FLEN_TX_FRAME. -/
def Obligations.FlenTxFrameEmitsHeaderAndPayload : Prop :=
  ∀ (p : List Byte) (s : State),
    decode (.op ⟨0x20#8, [.bytes p]⟩) = .ok (.flenTxFrame p) ∧
    (s.cfg.flenMax < p.length →
      exec (.flenTxFrame p) s = .next { s with replies := s.replies ++ [.status .errNoBufs] }) ∧
    (p.length ≤ s.cfg.flenMax →
      exec (.flenTxFrame p) s =
        .next { s with
          fOut := s.fOut ++ (leBytes s.cfg.flenLenBytes p.length ++ p)
          replies := s.replies ++ [.status .ok] })

/-- R142, R143: in FL_HDR the byte is stored at `fl.hcount` and nowhere else; the last header byte completes the
header, whose length, low byte first, delivers an empty frame, skips an oversized one or opens a body. -/
def Obligations.FlenHeaderByteIsCollected : Prop :=
  ∀ (b : Byte) (s : State), s.fl.state = .hdr → s.fl.hcount < s.cfg.flenLenBytes → Buffer.wf s.fl.hdr = true →
    ∃ hdr : Buffer,
      (∀ j, Buffer.read hdr j = if j = s.fl.hcount then b else Buffer.read s.fl.hdr j) ∧
      (s.fl.hcount + 1 < s.cfg.flenLenBytes →
        exec (.flenRxByte b) s =
          .next { s with
            fl := { s.fl with hcount := s.fl.hcount + 1, hdr := hdr }
            replies := s.replies ++ [.status .ok] }) ∧
      (∀ len, s.fl.hcount + 1 = s.cfg.flenLenBytes →
        len = fromLE (Buffer.readFrom s.fl.hdr 0 s.fl.hcount ++ [b]) →
        (len = 0 →
          exec (.flenRxByte b) s =
            .next { s with
              evq := s.evq ++ [.flenFrame []]
              fl := { s.fl with hcount := 0, hdr := hdr }
              replies := s.replies ++ [.status .ok] }) ∧
        (len ≠ 0 → s.cfg.flenMax < len →
          exec (.flenRxByte b) s =
            .next { s with
              evq := s.evq ++ [.flenDiscard .oversize]
              fl := { s.fl with state := .skip, hcount := 0, hdr := hdr, len := len, count := 0 }
              replies := s.replies ++ [.status .ok] }) ∧
        (len ≠ 0 → len ≤ s.cfg.flenMax →
          exec (.flenRxByte b) s =
            .next { s with
              fl := { s.fl with state := .body, hcount := 0, hdr := hdr, len := len, count := 0 }
              replies := s.replies ++ [.status .ok] }))

/-- R144: in FL_BODY the byte is stored at `fl.count` and nowhere else; the last byte delivers the frame. -/
def Obligations.FlenBodyByteIsStored : Prop :=
  ∀ (b : Byte) (s : State), s.fl.state = .body → s.fl.count < s.fl.len → s.fl.len ≤ s.cfg.flenMax →
    Buffer.wf s.fl.buf = true →
    ∃ buf : Buffer,
      (∀ j, Buffer.read buf j = if j = s.fl.count then b else Buffer.read s.fl.buf j) ∧
      (s.fl.count + 1 < s.fl.len →
        exec (.flenRxByte b) s =
          .next { s with
            fl := { s.fl with count := s.fl.count + 1, buf := buf }
            replies := s.replies ++ [.status .ok] }) ∧
      (s.fl.count + 1 = s.fl.len →
        exec (.flenRxByte b) s =
          .next { s with
            evq := s.evq ++ [.flenFrame (Buffer.readFrom s.fl.buf 0 s.fl.count ++ [b])]
            fl := { s.fl with state := .hdr, count := 0, buf := buf }
            replies := s.replies ++ [.status .ok] })

/-- R145: in FL_SKIP a byte is counted and not stored; the last one ends the skip, with no event. -/
def Obligations.FlenSkippedByteIsCounted : Prop :=
  ∀ (b : Byte) (s : State), s.fl.state = .skip →
    (s.fl.count + 1 = s.fl.len →
      exec (.flenRxByte b) s =
        .next { s with
          fl := { s.fl with state := .hdr, count := 0 }
          replies := s.replies ++ [.status .ok] }) ∧
    (s.fl.count + 1 ≠ s.fl.len →
      exec (.flenRxByte b) s =
        .next { s with
          fl := { s.fl with count := s.fl.count + 1 }
          replies := s.replies ++ [.status .ok] })

/-- R147: FLEN_RX_ABORT posts ABORT when a frame is partly received, and makes the decoder idle. That it sets `fl.len`
to 0 also with no partial frame is R147's pseudocode against its corner case "changes nothing": the model's choice
(log 11). -/
def Obligations.FlenRxAbortDropsThePartialFrame : Prop :=
  decode (.op ⟨0x29#8, []⟩) = .ok .flenRxAbort ∧
  ∀ s : State,
    ((s.fl.state = .hdr ∧ 0 < s.fl.hcount) ∨ s.fl.state = .body →
      exec .flenRxAbort s =
        .next { s with
          evq := s.evq ++ [.flenDiscard .abort]
          fl := { s.fl with state := .hdr, hcount := 0, len := 0, count := 0 }
          replies := s.replies ++ [.status .ok] }) ∧
    ((s.fl.state = .hdr ∧ s.fl.hcount = 0) ∨ s.fl.state = .skip →
      exec .flenRxAbort s =
        .next { s with
          fl := { s.fl with state := .hdr, hcount := 0, len := 0, count := 0 }
          replies := s.replies ++ [.status .ok] })

/-- R148: a FLEN frame fed to a decoder at a frame boundary posts exactly its payload and leaves the decoder at a
frame boundary. -/
def Obligations.FlenRoundTrip : Prop :=
  ∀ (p : List Byte) (s : State), configLegal s.cfg = true → 1 ≤ s.cfg.flenLenBytes → p.length ≤ s.cfg.flenMax →
    s.fl.state = .hdr → s.fl.hcount = 0 → Buffer.wf s.fl.hdr = true → Buffer.wf s.fl.buf = true →
    ∃ t, execAll (flenRxBytes (flenEncode s.cfg p)) s = .next t ∧
      t = { s with
        evq := s.evq ++ [.flenFrame p]
        fl := { t.fl with state := .hdr, hcount := 0 }
        replies := s.replies ++ List.replicate (flenEncode s.cfg p).length (.status .ok) }

/-! ### RESET -/

/-- R251 to R253: RESET makes every unit idle, aborts an open frame on the wire, leaves the buffers as they are and
keeps the outputs. -/
def Obligations.ResetIdlesEveryUnit : Prop :=
  decode (.op ⟨0x01#8, []⟩) = .ok .reset ∧
  ∀ s : State,
    exec .reset s =
      .next { s with
        hOut := s.hOut ++ (if s.tx.state = .open then [s.cfg.hdlcEsc, s.cfg.hdlcFlag] else [])
        tx := { state := .idle, fcs := s.cfg.fcsInit, count := 0 }
        rx := { s.rx with state := .hunt, len := 0 }
        fl := { s.fl with state := .hdr, hcount := 0, len := 0, count := 0 }
        replies := s.replies ++ [.status .ok] }

/-! ### The ARG unit -/

/-- R160: the parser reads exactly the grammar: a list of tags parses to a list of items when those items, of
R160's form, are written with exactly those tags. -/
def Obligations.ParserReadsTheGrammar : Prop :=
  ∀ (ts : List Tag) (its : Items), parseDesc ts = some its ↔ itemsTags its = ts ∧ itemsFormed its = true

/-- R162 to R168: a descriptor is accepted, with its items, exactly when it passes W1 to W6 and parses; then neither
operation returns `ERR_BAD_DESC`, and otherwise both return it, with no output and no value. The widths W6 compares are
those of R167. -/
def Obligations.IllFormedDescriptorIsRefused : Prop :=
  (∀ (c : Config) (desc : List Byte) (its : Items),
    wfItems c desc = some its ↔ ∃ ts, PassesChecks c desc ts its) ∧
  (∀ (desc : List Byte) (s : State), (¬ ∃ ts its, PassesChecks s.cfg desc ts its) →
    (∀ vals cap, exec (.argPack desc vals cap) s =
      .next { s with replies := s.replies ++ [.packed .errBadDesc []] }) ∧
    (∀ input, exec (.argUnpack desc input) s =
      .next { s with replies := s.replies ++ [.unpacked .errBadDesc .nil 0] })) ∧
  (∀ (desc : List Byte) (ts : List Tag) (its : Items) (s : State), PassesChecks s.cfg desc ts its →
    (∀ vals cap, ∃ r, r.st ≠ .errBadDesc ∧
      exec (.argPack desc vals cap) s = .next { s with replies := s.replies ++ [r] }) ∧
    (∀ input, ∃ r, r.st ≠ .errBadDesc ∧
      exec (.argUnpack desc input) s = .next { s with replies := s.replies ++ [r] })) ∧
  (∀ c : Config,
    minWidth c (.sc .bool) = 1 ∧ minWidth c (.sc .u8) = 1 ∧ minWidth c (.sc .utf8) = 1 ∧
    minWidth c (.sc .u16) = 2 ∧ minWidth c (.sc .blob) = c.blobLenBytes ∧
    minWidth c (.sc .u32) = 4 ∧ minWidth c (.sc .i32) = 4 ∧ (∀ e, minWidth c (.ar e) = 0) ∧
    minWidth c (.st .nil) = 0 ∧
    ∀ it its, minWidth c (.st (.cons it its)) = minWidth c it + minWidth c (.st its))

/-- R186, R189: ARG_PACK on a well-formed descriptor. -/
def Obligations.ArgPackReturnsTheBytes : Prop :=
  ∀ (desc : List Byte) (vals : Values) (cap : Nat) (its : Items) (s : State),
    decode (.op ⟨0x30#8, [.desc desc, .vals vals, .cap cap]⟩) = .ok (.argPack desc vals cap) ∧
    (wfItems s.cfg desc = none →
      exec (.argPack desc vals cap) s = .next { s with replies := s.replies ++ [.packed .errBadDesc []] }) ∧
    (wfItems s.cfg desc = some its → matchItems s.cfg its vals = false →
      exec (.argPack desc vals cap) s = .next { s with replies := s.replies ++ [.packed .errInvalidArgs []] }) ∧
    (wfItems s.cfg desc = some its → matchItems s.cfg its vals = true → cap < (encItems s.cfg its vals).length →
      exec (.argPack desc vals cap) s = .next { s with replies := s.replies ++ [.packed .errNoBufs []] }) ∧
    (wfItems s.cfg desc = some its → matchItems s.cfg its vals = true → (encItems s.cfg its vals).length ≤ cap →
      exec (.argPack desc vals cap) s =
        .next { s with replies := s.replies ++ [.packed .ok (encItems s.cfg its vals)] })

/-- R187: ARG_UNPACK on a well-formed descriptor: the values and the cursor after them when every item decodes;
else those of the items before the first one that starves. -/
def Obligations.ArgUnpackReturnsTheValues : Prop :=
  ∀ (desc input : List Byte) (its : Items) (s : State),
    decode (.op ⟨0x31#8, [.desc desc, .bytes input]⟩) = .ok (.argUnpack desc input) ∧
    (wfItems s.cfg desc = none →
      exec (.argUnpack desc input) s = .next { s with replies := s.replies ++ [.unpacked .errBadDesc .nil 0] }) ∧
    (∀ vs c, wfItems s.cfg desc = some its → decItems s.cfg input its 0 = some (vs, c) →
      exec (.argUnpack desc input) s = .next { s with replies := s.replies ++ [.unpacked .ok vs c] }) ∧
    (∀ done it rest vs c, wfItems s.cfg desc = some its → its = done.append (.cons it rest) →
      decItems s.cfg input done 0 = some (vs, c) → decItem s.cfg input it c = none →
      exec (.argUnpack desc input) s = .next { s with replies := s.replies ++ [.unpacked .errParse vs c] })

/-- R188: what ARG_PACK packs, ARG_UNPACK with the same descriptor unpacks to the same values, consuming it all. -/
def Obligations.ArgRoundTrip : Prop :=
  ∀ (desc : List Byte) (vals : Values) (cap : Nat) (its : Items) (s : State),
    wfItems s.cfg desc = some its → matchItems s.cfg its vals = true → (encItems s.cfg its vals).length ≤ cap →
    ∃ out,
      exec (.argPack desc vals cap) s = .next { s with replies := s.replies ++ [.packed .ok out] } ∧
      exec (.argUnpack desc out) s = .next { s with replies := s.replies ++ [.unpacked .ok vals out.length] }

/-- R190: without an array in the descriptor, bytes after what an unpack consumed change nothing. -/
def Obligations.TrailingBytesAreIgnored : Prop :=
  ∀ (c : Config) (desc input more : List Byte) (vs : Values) (k : Nat), 0x2A#8 ∉ desc →
    unpackReply c desc input = .unpacked .ok vs k → unpackReply c desc (input ++ more) = .unpacked .ok vs k

/-- R184: an element of non-zero width moves the cursor by at least its width, so `|in| - c` passes of the array
loop are enough: any greater number gives the same. -/
def Obligations.ArrayLoopTerminates : Prop :=
  ∀ (cfg : Config) (input : List Byte) (e : Item) (c fuel : Nat), 1 ≤ minWidth cfg e →
    input.length - c ≤ fuel →
    (∀ v c', decItem cfg input e c = some (v, c') → c + minWidth cfg e ≤ c') ∧
    arrayLoop (decItem cfg input e) input.length fuel c =
      arrayLoop (decItem cfg input e) input.length (input.length - c) c

/-! ### The tags -/

/-- R169, R171 to R177: for each scalar tag, exactly which values of any kind match it, the bytes they pack to, and what
unpacks at a cursor, or that it starves. The packing clauses hold for every number, blob and string of the tag's kind;
for those that do not match, R170 leaves the bytes undefined and they are the model's choice (log 18). -/
def Obligations.ScalarTagWireForms : Prop :=
  ∀ (cfg : Config) (input : List Byte) (c : Nat),
    (∀ v, matchScalar cfg .bool v = true ↔ ∃ x, v = .bool x) ∧
    (∀ x, packScalar cfg .bool (.bool x) = if x then [0x01#8] else [0x00#8]) ∧
    unpackScalar cfg .bool input c =
      (if c + 1 ≤ input.length then some (.bool (decide (input[c]? ≠ some 0x00#8)), c + 1) else none) ∧
    (∀ v, matchScalar cfg .u8 v = true ↔ ∃ n, v = .u8 n ∧ 0 ≤ n ∧ n < 2 ^ 8) ∧
    (∀ n : Int, packScalar cfg .u8 (.u8 n) = leBytes 1 n.toNat) ∧
    unpackScalar cfg .u8 input c =
      (if c + 1 ≤ input.length then some (.u8 (fromLE ((input.drop c).take 1)), c + 1) else none) ∧
    (∀ v, matchScalar cfg .u16 v = true ↔ ∃ n, v = .u16 n ∧ 0 ≤ n ∧ n < 2 ^ 16) ∧
    (∀ n : Int, packScalar cfg .u16 (.u16 n) = leBytes 2 n.toNat) ∧
    unpackScalar cfg .u16 input c =
      (if c + 2 ≤ input.length then some (.u16 (fromLE ((input.drop c).take 2)), c + 2) else none) ∧
    (∀ v, matchScalar cfg .u32 v = true ↔ ∃ n, v = .u32 n ∧ 0 ≤ n ∧ n < 2 ^ 32) ∧
    (∀ n : Int, packScalar cfg .u32 (.u32 n) = leBytes 4 n.toNat) ∧
    unpackScalar cfg .u32 input c =
      (if c + 4 ≤ input.length then some (.u32 (fromLE ((input.drop c).take 4)), c + 4) else none) ∧
    (∀ v, matchScalar cfg .i32 v = true ↔ ∃ n, v = .i32 n ∧ -2 ^ 31 ≤ n ∧ n < 2 ^ 31) ∧
    (∀ n : Int, packScalar cfg .i32 (.i32 n) = leBytes 4 (n % 2 ^ 32).toNat) ∧
    unpackScalar cfg .i32 input c =
      (if c + 4 ≤ input.length then some (.i32 ((fromLE ((input.drop c).take 4) : Int).bmod (2 ^ 32)), c + 4)
        else none) ∧
    (∀ v, matchScalar cfg .blob v = true ↔ ∃ bs, v = .blob bs ∧ bs.length < 2 ^ (8 * cfg.blobLenBytes)) ∧
    (∀ bs, packScalar cfg .blob (.blob bs) = leBytes cfg.blobLenBytes bs.length ++ bs) ∧
    (∀ n, n = fromLE ((input.drop c).take cfg.blobLenBytes) →
      unpackScalar cfg .blob input c =
        (if c + cfg.blobLenBytes + n ≤ input.length
          then some (.blob ((input.drop (c + cfg.blobLenBytes)).take n), c + cfg.blobLenBytes + n) else none)) ∧
    (∀ v, matchScalar cfg .utf8 v = true ↔ ∃ bs, v = .str bs ∧ 0x00#8 ∉ bs) ∧
    (∀ bs, packScalar cfg .utf8 (.str bs) = bs ++ [0x00#8]) ∧
    (∀ bs rest, input.drop c = bs ++ 0x00#8 :: rest → 0x00#8 ∉ bs →
      unpackScalar cfg .utf8 input c = some (.str bs, c + bs.length + 1)) ∧
    (0x00#8 ∉ input.drop c → unpackScalar cfg .utf8 input c = none)

/-- R182, R186, R187: after a tag the walk goes on at the next descriptor position, or, when the descriptor is
exhausted, ends with the results of its operation: ARG_UNPACK's values and cursor, or ARG_PACK's bytes when no value
is left over and they fit the capacity. Over an ill-formed descriptor any tag ends it with `ERR_BAD_DESC`. -/
def Obligations.WalkGoesOnOrEnds : Prop :=
  (∀ (s : State) (w : Walk) (t : Tag), s.walk = some w → wfDesc s.cfg w.desc = false →
    (∀ input c got outer consumed, w.job = .unpack input c got outer consumed →
      exec (Instr.ofTag t) s =
        .next { s with walk := none, replies := s.replies ++ [.unpacked .errBadDesc .nil 0] }) ∧
    (∀ vals outer out cap, w.job = .pack vals outer out cap →
      exec (Instr.ofTag t) s = .next { s with walk := none, replies := s.replies ++ [.packed .errBadDesc []] })) ∧
  ∀ (s : State) (w : Walk) (pos : Nat) (job : Job),
    (pos < w.desc.length → walkTo s w pos job = { s with walk := some { desc := w.desc, pos := pos, job := job } }) ∧
    (w.desc.length ≤ pos →
      (∀ input c got consumed, job = .unpack input c got [] consumed →
        walkTo s w pos job = { s with walk := none, replies := s.replies ++ [.unpacked .ok got consumed] }) ∧
      (∀ out cap, job = .pack .nil [] out cap → out.length ≤ cap →
        walkTo s w pos job = { s with walk := none, replies := s.replies ++ [.packed .ok out] }) ∧
      (∀ out cap, job = .pack .nil [] out cap → cap < out.length →
        walkTo s w pos job = { s with walk := none, replies := s.replies ++ [.packed .errNoBufs []] }) ∧
      (∀ v vs out cap, job = .pack (.cons v vs) [] out cap →
        walkTo s w pos job = { s with walk := none, replies := s.replies ++ [.packed .errInvalidArgs []] }))

/-- R171 to R177, R182: a scalar tag that is no array element takes its value at the cursor of the walk, or starves
the walk; one that is an array's element is left to the `*`. -/
def Obligations.ScalarTagUnpacksAtTheCursor : Prop :=
  ∀ (i : Instr) (t : ScalarTag) (s : State) (w : Walk) (input : List Byte) (c : Nat) (got : Values)
    (outer : List Values) (consumed : Nat),
    (i, t) ∈ [(Instr.tagBool, ScalarTag.bool), (Instr.tagU8, ScalarTag.u8), (Instr.tagU16, ScalarTag.u16),
      (Instr.tagU32, ScalarTag.u32), (Instr.tagI32, ScalarTag.i32), (Instr.tagBlob, ScalarTag.blob),
      (Instr.tagUtf8, ScalarTag.utf8)] →
    s.walk = some w → wfDesc s.cfg w.desc = true → w.job = .unpack input c got outer consumed →
    (∀ v c', w.desc[w.pos + 1]? ≠ some 0x2A#8 → unpackScalar s.cfg t input c = some (v, c') →
      exec i s =
        .next (walkTo s w (w.pos + 1) (.unpack input c' (got.snoc v) outer (if outer = [] then c' else consumed)))) ∧
    (w.desc[w.pos + 1]? ≠ some 0x2A#8 → unpackScalar s.cfg t input c = none →
      exec i s =
        .next { s with walk := none, replies := s.replies ++ [.unpacked .errParse (topValues got outer) consumed] }) ∧
    (w.desc[w.pos + 1]? = some 0x2A#8 →
      exec i s = .next { s with walk := some { desc := w.desc, pos := w.pos + 1, job := w.job } })

/-- R170 to R177: a scalar tag that is no array element packs the next value, or refuses one that does not match, or
a missing one; one that is an array's element is left to the `*`. -/
def Obligations.ScalarTagPacksTheNextValue : Prop :=
  ∀ (i : Instr) (t : ScalarTag) (s : State) (w : Walk) (vals : Values) (outer : List Values) (out : List Byte)
    (cap : Nat),
    (i, t) ∈ [(Instr.tagBool, ScalarTag.bool), (Instr.tagU8, ScalarTag.u8), (Instr.tagU16, ScalarTag.u16),
      (Instr.tagU32, ScalarTag.u32), (Instr.tagI32, ScalarTag.i32), (Instr.tagBlob, ScalarTag.blob),
      (Instr.tagUtf8, ScalarTag.utf8)] →
    s.walk = some w → wfDesc s.cfg w.desc = true → w.job = .pack vals outer out cap →
    (∀ v todo, w.desc[w.pos + 1]? ≠ some 0x2A#8 → vals = .cons v todo → matchScalar s.cfg t v = true →
      exec i s = .next (walkTo s w (w.pos + 1) (.pack todo outer (out ++ packScalar s.cfg t v) cap))) ∧
    (w.desc[w.pos + 1]? ≠ some 0x2A#8 →
      (vals = .nil ∨ ∃ v todo, vals = .cons v todo ∧ matchScalar s.cfg t v = false) →
      exec i s = .next { s with walk := none, replies := s.replies ++ [.packed .errInvalidArgs []] }) ∧
    (w.desc[w.pos + 1]? = some 0x2A#8 →
      exec i s = .next { s with walk := some { desc := w.desc, pos := w.pos + 1, job := w.job } })

/-- R178, R180, R182: `(` enters the nested item list, or, when the structure is an array's element, leaves it to
the `*`; packing refuses a value that is no structure, or a missing one. -/
def Obligations.StructOpenEntersTheList : Prop :=
  ∀ (s : State) (w : Walk) (k : Nat),
    s.walk = some w → wfDesc s.cfg w.desc = true → matchingClose 0 (w.desc.drop (w.pos + 1)) = some k →
    (w.desc[w.pos + k + 2]? = some 0x2A#8 →
      exec .tagStructOpen s = .next { s with walk := some { desc := w.desc, pos := w.pos + k + 2, job := w.job } }) ∧
    (∀ input c got outer consumed, w.desc[w.pos + k + 2]? ≠ some 0x2A#8 →
      w.job = .unpack input c got outer consumed →
      exec .tagStructOpen s =
        .next { s with
          walk := some { desc := w.desc, pos := w.pos + 1, job := .unpack input c .nil (got :: outer) consumed } }) ∧
    (∀ vs todo outer out cap, w.desc[w.pos + k + 2]? ≠ some 0x2A#8 →
      w.job = .pack (.cons (.struct vs) todo) outer out cap →
      exec .tagStructOpen s =
        .next { s with walk := some { desc := w.desc, pos := w.pos + 1, job := .pack vs (todo :: outer) out cap } }) ∧
    (∀ vals outer out cap, w.desc[w.pos + k + 2]? ≠ some 0x2A#8 → w.job = .pack vals outer out cap →
      (vals = .nil ∨ ∃ v todo, vals = .cons v todo ∧ ∀ vs, v ≠ .struct vs) →
      exec .tagStructOpen s = .next { s with walk := none, replies := s.replies ++ [.packed .errInvalidArgs []] })

/-- R179, R182: `)` returns to the enclosing item list, with no byte read or written. -/
def Obligations.StructCloseReturnsToTheList : Prop :=
  ∀ (s : State) (w : Walk), s.walk = some w → wfDesc s.cfg w.desc = true →
    (∀ input c vs got outer consumed, w.job = .unpack input c vs (got :: outer) consumed →
      exec .tagStructClose s =
        .next (walkTo s w (w.pos + 1)
          (.unpack input c (got.snoc (.struct vs)) outer (if outer = [] then c else consumed)))) ∧
    (∀ todo outer out cap, w.job = .pack .nil (todo :: outer) out cap →
      exec .tagStructClose s = .next (walkTo s w (w.pos + 1) (.pack todo outer out cap))) ∧
    (∀ v vs todo outer out cap, w.job = .pack (.cons v vs) (todo :: outer) out cap →
      exec .tagStructClose s = .next { s with walk := none, replies := s.replies ++ [.packed .errInvalidArgs []] })

/-- R180: `*` takes elements of the item just before it to the end of the input, or packs every element of an array
value, or refuses a value that does not match, or a missing one. -/
def Obligations.ArrayTagTakesTheRest : Prop :=
  ∀ (s : State) (w : Walk) (e : Item),
    s.walk = some w → wfDesc s.cfg w.desc = true → elementBefore w.desc w.pos = some e →
    (∀ input c got outer consumed vs c', w.job = .unpack input c got outer consumed →
      arrayLoop (decItem s.cfg input e) input.length (input.length - c) c = some (vs, c') →
      exec .tagArray s =
        .next (walkTo s w (w.pos + 1)
          (.unpack input c' (got.snoc (.array vs)) outer (if outer = [] then c' else consumed)))) ∧
    (∀ input c got outer consumed, w.job = .unpack input c got outer consumed →
      arrayLoop (decItem s.cfg input e) input.length (input.length - c) c = none →
      exec .tagArray s =
        .next { s with
          walk := none
          replies := s.replies ++ [.unpacked .errParse (topValues got outer) consumed] }) ∧
    (∀ vs todo outer out cap, w.job = .pack (.cons (.array vs) todo) outer out cap →
      allValues (matchItem s.cfg e) vs = true →
      exec .tagArray s =
        .next (walkTo s w (w.pos + 1) (.pack todo outer (out ++ concatValues (encItem s.cfg e) vs) cap))) ∧
    (∀ vals outer out cap, w.job = .pack vals outer out cap →
      (vals = .nil ∨ ∃ v todo, vals = .cons v todo ∧ matchItem s.cfg (.ar e) v = false) →
      exec .tagArray s = .next { s with walk := none, replies := s.replies ++ [.packed .errInvalidArgs []] })

/-- R59, R182, R187: the walk of a descriptor tag by tag ends with the results ARG_UNPACK returns in its one step,
and changes nothing else. -/
def Obligations.TagWalkComputesArgUnpack : Prop :=
  ∀ (s : State) (desc input : List Byte), configLegal s.cfg = true → s.walk = some (unpackWalk desc input) →
    ∃ n, core.run n s = .next { s with walk := none, replies := s.replies ++ [unpackReply s.cfg desc input] }

/-- R59, R170, R186: the walk of a descriptor tag by tag ends with the results ARG_PACK returns in its one step, and
changes nothing else. -/
def Obligations.TagWalkComputesArgPack : Prop :=
  ∀ (s : State) (desc : List Byte) (vals : Values) (cap : Nat), configLegal s.cfg = true →
    s.walk = some (packWalk desc vals cap) →
    ∃ n, core.run n s = .next { s with walk := none, replies := s.replies ++ [packReply s.cfg desc vals cap] }

/-! ### The machine as a whole -/

/-- R42, R250: the power-on values the spec states. -/
def Obligations.PowerOnValues : Prop :=
  State.reset.tx.state = .idle ∧ State.reset.tx.fcs = State.reset.cfg.fcsInit ∧ State.reset.tx.count = 0 ∧
  State.reset.rx.state = .hunt ∧ State.reset.rx.len = 0 ∧
  State.reset.fl.state = .hdr ∧ State.reset.fl.hcount = 0 ∧ State.reset.fl.len = 0 ∧ State.reset.fl.count = 0 ∧
  State.reset.hOut = [] ∧ State.reset.fOut = [] ∧ State.reset.evq = []

/-- R41, R42: the invariant holds at power-on, with the default parameters (log 1, 2) and empty buffers (log 10). -/
def Obligations.PowerOnIsAGoodState : Prop := StateOk State.reset

/-- R41, R22: every step keeps the invariant. Of R41 (d) it keeps that `tx.fcs` is the run over some sequence of
`tx.count` bytes, not that those are the bytes accepted since HDLC_TX_BEGIN, which the state does not hold (log 25); the
parameters also keep the relations of R28, R30 and R105 (log 14). -/
def Obligations.EveryStepKeepsAGoodState : Prop :=
  ∀ s t : State, StateOk s → step s = .next t → StateOk t

/-- R51, R52, R230: a run from power-on never leaves a buffer: no reachable state faults. -/
def Obligations.NoReachableStateFaults : Prop :=
  ∀ s : State, Reachable s → StateOk s ∧ noFault (step s)

/-- R220, R221: every operation that ends adds exactly one reply, whose status is one that R221 marks for it. -/
def Obligations.EveryOperationReturnsAStatusOfTheTable : Prop :=
  ∀ (i : Instr) (s t : State), isOperation i → exec i s = .next t →
    ∃ r, t.replies = s.replies ++ [r] ∧ r.st ∈ allowedStatuses i

/-- R231: an operation that returns an error changes no state, and its results are empty but for the values
ARG_UNPACK had decoded. -/
def Obligations.AnErrorChangesNothing : Prop :=
  ∀ (i : Instr) (s t : State) (r : Reply), isOperation i → exec i s = .next t → t.replies = s.replies ++ [r] →
    r.st ≠ .ok →
    t = { s with replies := s.replies ++ [r] } ∧ (∀ st out, r = .packed st out → out = []) ∧
      ∀ st vs k, r = .unpacked st vs k → st ≠ .errParse → vs = .nil ∧ k = 0

/-- R35 to R37, R43, R229: every instruction only appends to the outputs, posts at most one event, and keeps the
parameters. -/
def Obligations.OutputsAreAppendOnly : Prop :=
  ∀ (i : Instr) (s t : State), exec i s = .next t →
    s.hOut <+: t.hOut ∧ s.fOut <+: t.fOut ∧ s.replies <+: t.replies ∧
      (t.evq = s.evq ∨ ∃ e, t.evq = s.evq ++ [e]) ∧ t.cfg = s.cfg ∧ t.inbox = s.inbox

/-- R66, R110, R150: an operation of one unit changes no field of another, and those of the ARG unit change none. That a
tag is an instruction which changes only the walk is the model's choice (log 6). -/
def Obligations.UnitsShareNoState : Prop :=
  (∀ (i : Instr) (s t : State) (p : List Byte) (b : Byte),
    i ∈ [.hdlcTxFrame p, .hdlcTxBegin, .hdlcTxByte b, .hdlcTxEnd, .hdlcTxAbort] → exec i s = .next t →
    t = { s with tx := t.tx, hOut := t.hOut, replies := t.replies }) ∧
  (∀ (s t : State) (b : Byte), exec (.hdlcRxByte b) s = .next t →
    t = { s with rx := t.rx, evq := t.evq, replies := t.replies }) ∧
  (∀ (s t : State) (p : List Byte), exec (.flenTxFrame p) s = .next t →
    t = { s with fOut := t.fOut, replies := t.replies }) ∧
  (∀ (i : Instr) (s t : State) (b : Byte), i ∈ [.flenRxByte b, .flenRxAbort] → exec i s = .next t →
    t = { s with fl := t.fl, evq := t.evq, replies := t.replies }) ∧
  (∀ (i : Instr) (s t : State) (d input : List Byte) (vs : Values) (n : Nat),
    i ∈ [.argPack d vs n, .argUnpack d input] → exec i s = .next t → t = { s with replies := t.replies }) ∧
  (∀ (g : Tag) (s t : State), exec (Instr.ofTag g) s = .next t →
    t = { s with walk := t.walk, replies := t.replies })

/-- Where the model stops by a name of its own (log 7, 12), which the spec describes nothing for: a tag outside a
walk (R21, R80), and an index outside a buffer, which R51 and R52 say no rule computes and no good state has. -/
def Obligations.ModelStopsByName : Prop :=
  (∀ (t : Tag) (s : State), s.walk = none → exec (Instr.ofTag t) s = .refused .tagOutsideWalk) ∧
  (∀ s : State, s.rx.state = .data → 2 ≤ s.rx.len → s.cfg.hdlcRxCap < s.rx.len →
    exec (.hdlcRxByte s.cfg.hdlcFlag) s = .fault .bufferIndex) ∧
  (∀ (s : State) (b : Byte), s.fl.state = .hdr → s.cfg.flenLenBytes ≤ s.fl.hcount →
    exec (.flenRxByte b) s = .fault .bufferIndex) ∧
  (∀ (s : State) (b : Byte), s.fl.state = .body → s.cfg.flenMax ≤ s.fl.count →
    exec (.flenRxByte b) s = .fault .bufferIndex)
end

