-- ==== Sys2Proof/Laws/Bytes.lean ====
section
/-! SUPPORT. The laws of byte order, of the FCS over concatenations, and of the cursor's `need`. -/

namespace Sys2Proof.Machine

@[simp] theorem leBytes_length (k v : Nat) : (leBytes k v).length = k := by
  induction k generalizing v with
  | zero => rfl
  | succ k ih => simp [leBytes, ih]

/-- Reading back what was written gives the number, reduced to the field's width (R54). -/
theorem fromLE_leBytes (k v : Nat) : fromLE (leBytes k v) = v % 2 ^ (8 * k) := by
  induction k generalizing v with
  | zero => simp [leBytes, fromLE, Nat.mod_one]
  | succ k ih =>
    have hpow : 2 ^ (8 * (k + 1)) = 256 * 2 ^ (8 * k) := by rw [Nat.mul_succ, Nat.pow_add]; ring
    rw [leBytes, fromLE, ih, hpow, Nat.mod_mul]
    simp

/-- A number that fits its field is read back unchanged. -/
theorem fromLE_leBytes_of_lt {k v : Nat} (h : v < 2 ^ (8 * k)) : fromLE (leBytes k v) = v := by
  rw [fromLE_leBytes, Nat.mod_eq_of_lt h]

/-- A field of `k` bytes holds a number below `2^(8k)`. -/
theorem fromLE_lt (bs : List Byte) : fromLE bs < 2 ^ (8 * bs.length) := by
  induction bs with
  | nil => simp [fromLE]
  | cons b bs ih =>
    have hpow : 2 ^ (8 * (bs.length + 1)) = 256 * 2 ^ (8 * bs.length) := by
      rw [Nat.mul_succ, Nat.pow_add]; ring
    have hb := b.isLt
    rw [fromLE, List.length_cons, hpow]
    omega

/-- Two fields of one width that read the same are the same bytes. -/
theorem fromLE_inj {a b : List Byte} (hl : a.length = b.length) (h : fromLE a = fromLE b) : a = b := by
  induction a generalizing b with
  | nil => exact (List.length_eq_zero_iff.mp hl.symm).symm
  | cons x a ih =>
    cases b with
    | nil => simp at hl
    | cons y b =>
      simp only [fromLE] at h
      have hx := x.isLt
      have hy := y.isLt
      have hxy : x = y := BitVec.eq_of_toNat_eq (by omega)
      have hab := ih (b := b) (by simpa using hl) (by omega)
      rw [hxy, hab]

/-- The two FCS bytes read back as the FCS (R102). -/
theorem fromLE_fcsBytes (f : Half) : fromLE (fcsBytes f) = f.toNat := by
  have hf := f.isLt
  simp [fcsBytes, fromLE, lo8, hi8, BitVec.extractLsb'_toNat, Nat.shiftRight_eq_div_pow]
  omega

/-- Everything `need` can do (R183). -/
theorem need_spec {input : List Byte} {c n : Nat} {bs : List Byte} (h : need input c n = some bs) :
    c + n ≤ input.length ∧ bs = (input.drop c).take n := by
  unfold need at h
  split at h
  · rename_i hc
    cases h
    exact ⟨hc, rfl⟩
  · cases h

/-- The register over a concatenation (R101). -/
theorem fcsRun_append (c : Config) (f : Half) (s t : List Byte) :
    fcsRun c f (s ++ t) = fcsRun c (fcsRun c f s) t := by
  induction s generalizing f with
  | nil => rfl
  | cons b s ih => exact ih (fcsStep c f b)

end Sys2Proof.Machine
end

