-- ==== Sys2Proof/Laws/State.lean ====
section
/-! SUPPORT. One lemma for each field of State and each named update, so that no proof unfolds an update. -/

namespace Sys2Proof.Machine

@[simp] theorem State.emitH_cfg (s : State) (bytes : List Byte) : (s.emitH bytes).cfg = s.cfg := rfl
@[simp] theorem State.emitH_tx (s : State) (bytes : List Byte) : (s.emitH bytes).tx = s.tx := rfl
@[simp] theorem State.emitH_rx (s : State) (bytes : List Byte) : (s.emitH bytes).rx = s.rx := rfl
@[simp] theorem State.emitH_fl (s : State) (bytes : List Byte) : (s.emitH bytes).fl = s.fl := rfl
@[simp] theorem State.emitH_hOut (s : State) (bytes : List Byte) : (s.emitH bytes).hOut = s.hOut ++ bytes := rfl
@[simp] theorem State.emitH_fOut (s : State) (bytes : List Byte) : (s.emitH bytes).fOut = s.fOut := rfl
@[simp] theorem State.emitH_evq (s : State) (bytes : List Byte) : (s.emitH bytes).evq = s.evq := rfl
@[simp] theorem State.emitH_walk (s : State) (bytes : List Byte) : (s.emitH bytes).walk = s.walk := rfl
@[simp] theorem State.emitH_inbox (s : State) (bytes : List Byte) : (s.emitH bytes).inbox = s.inbox := rfl
@[simp] theorem State.emitH_replies (s : State) (bytes : List Byte) : (s.emitH bytes).replies = s.replies := rfl

@[simp] theorem State.emitF_cfg (s : State) (bytes : List Byte) : (s.emitF bytes).cfg = s.cfg := rfl
@[simp] theorem State.emitF_tx (s : State) (bytes : List Byte) : (s.emitF bytes).tx = s.tx := rfl
@[simp] theorem State.emitF_rx (s : State) (bytes : List Byte) : (s.emitF bytes).rx = s.rx := rfl
@[simp] theorem State.emitF_fl (s : State) (bytes : List Byte) : (s.emitF bytes).fl = s.fl := rfl
@[simp] theorem State.emitF_hOut (s : State) (bytes : List Byte) : (s.emitF bytes).hOut = s.hOut := rfl
@[simp] theorem State.emitF_fOut (s : State) (bytes : List Byte) : (s.emitF bytes).fOut = s.fOut ++ bytes := rfl
@[simp] theorem State.emitF_evq (s : State) (bytes : List Byte) : (s.emitF bytes).evq = s.evq := rfl
@[simp] theorem State.emitF_walk (s : State) (bytes : List Byte) : (s.emitF bytes).walk = s.walk := rfl
@[simp] theorem State.emitF_inbox (s : State) (bytes : List Byte) : (s.emitF bytes).inbox = s.inbox := rfl
@[simp] theorem State.emitF_replies (s : State) (bytes : List Byte) : (s.emitF bytes).replies = s.replies := rfl

@[simp] theorem State.post_cfg (s : State) (e : Event) : (s.post e).cfg = s.cfg := rfl
@[simp] theorem State.post_tx (s : State) (e : Event) : (s.post e).tx = s.tx := rfl
@[simp] theorem State.post_rx (s : State) (e : Event) : (s.post e).rx = s.rx := rfl
@[simp] theorem State.post_fl (s : State) (e : Event) : (s.post e).fl = s.fl := rfl
@[simp] theorem State.post_hOut (s : State) (e : Event) : (s.post e).hOut = s.hOut := rfl
@[simp] theorem State.post_fOut (s : State) (e : Event) : (s.post e).fOut = s.fOut := rfl
@[simp] theorem State.post_evq (s : State) (e : Event) : (s.post e).evq = s.evq ++ [e] := rfl
@[simp] theorem State.post_walk (s : State) (e : Event) : (s.post e).walk = s.walk := rfl
@[simp] theorem State.post_inbox (s : State) (e : Event) : (s.post e).inbox = s.inbox := rfl
@[simp] theorem State.post_replies (s : State) (e : Event) : (s.post e).replies = s.replies := rfl

@[simp] theorem State.setTx_cfg (s : State) (u : TxUnit) : (s.setTx u).cfg = s.cfg := rfl
@[simp] theorem State.setTx_tx (s : State) (u : TxUnit) : (s.setTx u).tx = u := rfl
@[simp] theorem State.setTx_rx (s : State) (u : TxUnit) : (s.setTx u).rx = s.rx := rfl
@[simp] theorem State.setTx_fl (s : State) (u : TxUnit) : (s.setTx u).fl = s.fl := rfl
@[simp] theorem State.setTx_hOut (s : State) (u : TxUnit) : (s.setTx u).hOut = s.hOut := rfl
@[simp] theorem State.setTx_fOut (s : State) (u : TxUnit) : (s.setTx u).fOut = s.fOut := rfl
@[simp] theorem State.setTx_evq (s : State) (u : TxUnit) : (s.setTx u).evq = s.evq := rfl
@[simp] theorem State.setTx_walk (s : State) (u : TxUnit) : (s.setTx u).walk = s.walk := rfl
@[simp] theorem State.setTx_inbox (s : State) (u : TxUnit) : (s.setTx u).inbox = s.inbox := rfl
@[simp] theorem State.setTx_replies (s : State) (u : TxUnit) : (s.setTx u).replies = s.replies := rfl

@[simp] theorem State.setRx_cfg (s : State) (u : RxUnit) : (s.setRx u).cfg = s.cfg := rfl
@[simp] theorem State.setRx_tx (s : State) (u : RxUnit) : (s.setRx u).tx = s.tx := rfl
@[simp] theorem State.setRx_rx (s : State) (u : RxUnit) : (s.setRx u).rx = u := rfl
@[simp] theorem State.setRx_fl (s : State) (u : RxUnit) : (s.setRx u).fl = s.fl := rfl
@[simp] theorem State.setRx_hOut (s : State) (u : RxUnit) : (s.setRx u).hOut = s.hOut := rfl
@[simp] theorem State.setRx_fOut (s : State) (u : RxUnit) : (s.setRx u).fOut = s.fOut := rfl
@[simp] theorem State.setRx_evq (s : State) (u : RxUnit) : (s.setRx u).evq = s.evq := rfl
@[simp] theorem State.setRx_walk (s : State) (u : RxUnit) : (s.setRx u).walk = s.walk := rfl
@[simp] theorem State.setRx_inbox (s : State) (u : RxUnit) : (s.setRx u).inbox = s.inbox := rfl
@[simp] theorem State.setRx_replies (s : State) (u : RxUnit) : (s.setRx u).replies = s.replies := rfl

@[simp] theorem State.setFl_cfg (s : State) (u : FlUnit) : (s.setFl u).cfg = s.cfg := rfl
@[simp] theorem State.setFl_tx (s : State) (u : FlUnit) : (s.setFl u).tx = s.tx := rfl
@[simp] theorem State.setFl_rx (s : State) (u : FlUnit) : (s.setFl u).rx = s.rx := rfl
@[simp] theorem State.setFl_fl (s : State) (u : FlUnit) : (s.setFl u).fl = u := rfl
@[simp] theorem State.setFl_hOut (s : State) (u : FlUnit) : (s.setFl u).hOut = s.hOut := rfl
@[simp] theorem State.setFl_fOut (s : State) (u : FlUnit) : (s.setFl u).fOut = s.fOut := rfl
@[simp] theorem State.setFl_evq (s : State) (u : FlUnit) : (s.setFl u).evq = s.evq := rfl
@[simp] theorem State.setFl_walk (s : State) (u : FlUnit) : (s.setFl u).walk = s.walk := rfl
@[simp] theorem State.setFl_inbox (s : State) (u : FlUnit) : (s.setFl u).inbox = s.inbox := rfl
@[simp] theorem State.setFl_replies (s : State) (u : FlUnit) : (s.setFl u).replies = s.replies := rfl

@[simp] theorem State.setWalk_cfg (s : State) (w : Option Walk) : (s.setWalk w).cfg = s.cfg := rfl
@[simp] theorem State.setWalk_tx (s : State) (w : Option Walk) : (s.setWalk w).tx = s.tx := rfl
@[simp] theorem State.setWalk_rx (s : State) (w : Option Walk) : (s.setWalk w).rx = s.rx := rfl
@[simp] theorem State.setWalk_fl (s : State) (w : Option Walk) : (s.setWalk w).fl = s.fl := rfl
@[simp] theorem State.setWalk_hOut (s : State) (w : Option Walk) : (s.setWalk w).hOut = s.hOut := rfl
@[simp] theorem State.setWalk_fOut (s : State) (w : Option Walk) : (s.setWalk w).fOut = s.fOut := rfl
@[simp] theorem State.setWalk_evq (s : State) (w : Option Walk) : (s.setWalk w).evq = s.evq := rfl
@[simp] theorem State.setWalk_walk (s : State) (w : Option Walk) : (s.setWalk w).walk = w := rfl
@[simp] theorem State.setWalk_inbox (s : State) (w : Option Walk) : (s.setWalk w).inbox = s.inbox := rfl
@[simp] theorem State.setWalk_replies (s : State) (w : Option Walk) : (s.setWalk w).replies = s.replies := rfl

@[simp] theorem State.setInbox_cfg (s : State) (acts : List HostAction) : (s.setInbox acts).cfg = s.cfg := rfl
@[simp] theorem State.setInbox_tx (s : State) (acts : List HostAction) : (s.setInbox acts).tx = s.tx := rfl
@[simp] theorem State.setInbox_rx (s : State) (acts : List HostAction) : (s.setInbox acts).rx = s.rx := rfl
@[simp] theorem State.setInbox_fl (s : State) (acts : List HostAction) : (s.setInbox acts).fl = s.fl := rfl
@[simp] theorem State.setInbox_hOut (s : State) (acts : List HostAction) : (s.setInbox acts).hOut = s.hOut := rfl
@[simp] theorem State.setInbox_fOut (s : State) (acts : List HostAction) : (s.setInbox acts).fOut = s.fOut := rfl
@[simp] theorem State.setInbox_evq (s : State) (acts : List HostAction) : (s.setInbox acts).evq = s.evq := rfl
@[simp] theorem State.setInbox_walk (s : State) (acts : List HostAction) : (s.setInbox acts).walk = s.walk := rfl
@[simp] theorem State.setInbox_inbox (s : State) (acts : List HostAction) : (s.setInbox acts).inbox = acts := rfl
@[simp] theorem State.setInbox_replies (s : State) (acts : List HostAction) : (s.setInbox acts).replies = s.replies := rfl

@[simp] theorem State.respond_cfg (s : State) (r : Reply) : (s.respond r).cfg = s.cfg := rfl
@[simp] theorem State.respond_tx (s : State) (r : Reply) : (s.respond r).tx = s.tx := rfl
@[simp] theorem State.respond_rx (s : State) (r : Reply) : (s.respond r).rx = s.rx := rfl
@[simp] theorem State.respond_fl (s : State) (r : Reply) : (s.respond r).fl = s.fl := rfl
@[simp] theorem State.respond_hOut (s : State) (r : Reply) : (s.respond r).hOut = s.hOut := rfl
@[simp] theorem State.respond_fOut (s : State) (r : Reply) : (s.respond r).fOut = s.fOut := rfl
@[simp] theorem State.respond_evq (s : State) (r : Reply) : (s.respond r).evq = s.evq := rfl
@[simp] theorem State.respond_walk (s : State) (r : Reply) : (s.respond r).walk = s.walk := rfl
@[simp] theorem State.respond_inbox (s : State) (r : Reply) : (s.respond r).inbox = s.inbox := rfl
@[simp] theorem State.respond_replies (s : State) (r : Reply) : (s.respond r).replies = s.replies ++ [r] := rfl

@[simp] theorem State.takeHOut_cfg (s : State) (n : Nat) : (s.takeHOut n).cfg = s.cfg := rfl
@[simp] theorem State.takeHOut_tx (s : State) (n : Nat) : (s.takeHOut n).tx = s.tx := rfl
@[simp] theorem State.takeHOut_rx (s : State) (n : Nat) : (s.takeHOut n).rx = s.rx := rfl
@[simp] theorem State.takeHOut_fl (s : State) (n : Nat) : (s.takeHOut n).fl = s.fl := rfl
@[simp] theorem State.takeHOut_hOut (s : State) (n : Nat) : (s.takeHOut n).hOut = s.hOut.drop n := rfl
@[simp] theorem State.takeHOut_fOut (s : State) (n : Nat) : (s.takeHOut n).fOut = s.fOut := rfl
@[simp] theorem State.takeHOut_evq (s : State) (n : Nat) : (s.takeHOut n).evq = s.evq := rfl
@[simp] theorem State.takeHOut_walk (s : State) (n : Nat) : (s.takeHOut n).walk = s.walk := rfl
@[simp] theorem State.takeHOut_inbox (s : State) (n : Nat) : (s.takeHOut n).inbox = s.inbox := rfl
@[simp] theorem State.takeHOut_replies (s : State) (n : Nat) : (s.takeHOut n).replies = s.replies := rfl

@[simp] theorem State.takeFOut_cfg (s : State) (n : Nat) : (s.takeFOut n).cfg = s.cfg := rfl
@[simp] theorem State.takeFOut_tx (s : State) (n : Nat) : (s.takeFOut n).tx = s.tx := rfl
@[simp] theorem State.takeFOut_rx (s : State) (n : Nat) : (s.takeFOut n).rx = s.rx := rfl
@[simp] theorem State.takeFOut_fl (s : State) (n : Nat) : (s.takeFOut n).fl = s.fl := rfl
@[simp] theorem State.takeFOut_hOut (s : State) (n : Nat) : (s.takeFOut n).hOut = s.hOut := rfl
@[simp] theorem State.takeFOut_fOut (s : State) (n : Nat) : (s.takeFOut n).fOut = s.fOut.drop n := rfl
@[simp] theorem State.takeFOut_evq (s : State) (n : Nat) : (s.takeFOut n).evq = s.evq := rfl
@[simp] theorem State.takeFOut_walk (s : State) (n : Nat) : (s.takeFOut n).walk = s.walk := rfl
@[simp] theorem State.takeFOut_inbox (s : State) (n : Nat) : (s.takeFOut n).inbox = s.inbox := rfl
@[simp] theorem State.takeFOut_replies (s : State) (n : Nat) : (s.takeFOut n).replies = s.replies := rfl

@[simp] theorem State.takeEvents_cfg (s : State) (n : Nat) : (s.takeEvents n).cfg = s.cfg := rfl
@[simp] theorem State.takeEvents_tx (s : State) (n : Nat) : (s.takeEvents n).tx = s.tx := rfl
@[simp] theorem State.takeEvents_rx (s : State) (n : Nat) : (s.takeEvents n).rx = s.rx := rfl
@[simp] theorem State.takeEvents_fl (s : State) (n : Nat) : (s.takeEvents n).fl = s.fl := rfl
@[simp] theorem State.takeEvents_hOut (s : State) (n : Nat) : (s.takeEvents n).hOut = s.hOut := rfl
@[simp] theorem State.takeEvents_fOut (s : State) (n : Nat) : (s.takeEvents n).fOut = s.fOut := rfl
@[simp] theorem State.takeEvents_evq (s : State) (n : Nat) : (s.takeEvents n).evq = s.evq.drop n := rfl
@[simp] theorem State.takeEvents_walk (s : State) (n : Nat) : (s.takeEvents n).walk = s.walk := rfl
@[simp] theorem State.takeEvents_inbox (s : State) (n : Nat) : (s.takeEvents n).inbox = s.inbox := rfl
@[simp] theorem State.takeEvents_replies (s : State) (n : Nat) : (s.takeEvents n).replies = s.replies := rfl

end Sys2Proof.Machine
end

