-- ==== Sys2Proof/Laws/Arg.lean ====
section
/-! SUPPORT. The ARG unit: concatenation of items and values, the packed length (R181), the transparency of
structures (R192), and for each shared operation of the walk one lemma that says everything it can do. -/

namespace Sys2Proof.Machine

@[simp] theorem Values.append_nil (vs : Values) : vs.append .nil = vs := by
  induction vs using Values.rec (motive_1 := fun _ => True) with
  | nil => rfl
  | cons v vs _ ih => simp only [Values.append, ih]
  | _ => trivial

theorem Values.append_assoc (a b c : Values) : (a.append b).append c = a.append (b.append c) := by
  induction a using Values.rec (motive_1 := fun _ => True) with
  | nil => rfl
  | cons v vs _ ih => simp only [Values.append, ih]
  | _ => trivial

@[simp] theorem Values.length_append (a b : Values) : (a.append b).length = a.length + b.length := by
  induction a using Values.rec (motive_1 := fun _ => True) with
  | nil => simp [Values.append, Values.length]
  | cons v vs _ ih => simp only [Values.append, Values.length, ih]; omega
  | _ => trivial

/-- A value sequence matches a concatenation when its halves do (R169). -/
theorem matchItems_append (cfg : Config) {x y : Items} {xs ys : Values} (hx : matchItems cfg x xs = true)
    (hy : matchItems cfg y ys = true) : matchItems cfg (x.append y) (xs.append ys) = true := by
  induction x using Items.rec (motive_1 := fun _ => True) generalizing xs with
  | nil =>
    cases xs with
    | nil => exact hy
    | cons v vs => simp [matchItems] at hx
  | cons it its _ ih =>
    cases xs with
    | nil => simp [matchItems] at hx
    | cons v vs =>
      simp only [matchItems, Bool.and_eq_true] at hx
      simp [Items.append, Values.append, matchItems, hx.1, ih hx.2]
  | _ => trivial

/-- The bytes of a concatenation are the concatenation of the bytes (R170). -/
theorem encItems_append (cfg : Config) {x y : Items} {xs ys : Values} (hx : matchItems cfg x xs = true) :
    encItems cfg (x.append y) (xs.append ys) = encItems cfg x xs ++ encItems cfg y ys := by
  induction x using Items.rec (motive_1 := fun _ => True) generalizing xs with
  | nil =>
    cases xs with
    | nil => simp [Items.append, Values.append, encItems]
    | cons v vs => simp [matchItems] at hx
  | cons it its _ ih =>
    cases xs with
    | nil => simp [matchItems] at hx
    | cons v vs =>
      simp only [matchItems, Bool.and_eq_true] at hx
      simp [Items.append, Values.append, encItems, ih hx.2]
  | _ => trivial

/-- A structure packs to the bytes of its members written in its place (R192). -/
theorem encItems_struct_transparent (cfg : Config) {x y z : Items} {xs ys zs : Values}
    (hx : matchItems cfg x xs = true) (hy : matchItems cfg y ys = true) :
    encItems cfg (x.append (.cons (.st y) z)) (xs.append (.cons (.struct ys) zs)) =
      encItems cfg (x.append (y.append z)) (xs.append (ys.append zs)) := by
  rw [encItems_append cfg hx, encItems_append cfg hx, encItems_append cfg hy]
  simp [encItems, encItem]

/-- The packed length of a scalar (R181). -/
theorem packScalar_length (cfg : Config) (t : ScalarTag) (v : Value) (h : matchScalar cfg t v = true) :
    (packScalar cfg t v).length = valueWidth cfg v := by
  cases t <;> cases v <;>
    simp_all [matchScalar, packScalar, matchBool, matchU8, matchU16, matchU32, matchI32, matchBlob, matchUtf8,
      packBool, packU8, packU16, packU32, packI32, packBlob, packUtf8, valueWidth]
  split <;> rfl

/-- The packed length of an array's elements, given that of each (R181). -/
theorem concatValues_length (cfg : Config) (e : Item)
    (he : ∀ v, matchItem cfg e v = true → (encItem cfg e v).length = valueWidth cfg v) (vs : Values)
    (h : allValues (matchItem cfg e) vs = true) :
    (concatValues (encItem cfg e) vs).length = valuesWidth cfg vs := by
  induction vs using Values.rec (motive_1 := fun _ => True) with
  | nil => rfl
  | cons v vs _ ih =>
    simp only [allValues, Bool.and_eq_true] at h
    simp [concatValues, valuesWidth, he v h.1, ih h.2]
  | _ => trivial

/-- The packed length of a matching value sequence (R181). -/
theorem encItems_length (cfg : Config) (its : Items) (vals : Values) (h : matchItems cfg its vals = true) :
    (encItems cfg its vals).length = valuesWidth cfg vals := by
  induction its using Items.rec
    (motive_1 := fun it => ∀ v, matchItem cfg it v = true → (encItem cfg it v).length = valueWidth cfg v)
    generalizing vals with
  | sc t => rename_i v hv; exact packScalar_length cfg t v hv
  | st its ih =>
    rename_i v hv
    cases v <;> simp [matchItem] at hv
    simp [encItem, valueWidth, ih _ hv]
  | ar e ih =>
    rename_i v hv
    cases v <;> simp [matchItem] at hv
    simp [encItem, valueWidth, concatValues_length cfg e ih _ hv]
  | nil =>
    cases vals with
    | nil => rfl
    | cons v vs => simp [matchItems] at h
  | cons it its ihit ih =>
    cases vals with
    | nil => simp [matchItems] at h
    | cons v vs =>
      simp only [matchItems, Bool.and_eq_true] at h
      simp [encItems, valuesWidth, ihit v h.1, ih vs h.2]

/-- Everything `WF` and `Parse` can answer (R168). -/
theorem wfItems_spec {c : Config} {desc : List Byte} {its : Items} (h : wfItems c desc = some its) :
    ∃ ts, tagsOf desc = some ts ∧ balanced 0 ts = true ∧ depthWithin c.argMaxDepth 0 ts = true ∧
      starsPlaced false ts = true ∧ arraysTerminal ts = true ∧ parseDesc ts = some its ∧
      arraysProgress c its = true := by
  unfold wfItems at h
  split at h
  · cases h
  · rename_i ts hts
    split at h
    · rename_i hchecks
      simp only [Bool.and_eq_true] at hchecks
      split at h
      · cases h
      · rename_i its' hp
        split at h
        · rename_i hprog
          cases h
          exact ⟨ts, hts, hchecks.1.1.1, hchecks.1.1.2, hchecks.1.2, hchecks.2, hp, hprog⟩
        · cases h
    · cases h

/-- Everything a tag can do when it ends: it acts on the walk of a well-formed descriptor, or ends that of an
ill-formed one (R168). -/
theorem onWalk_next {act : Walk → State → State} {s t : State} (h : onWalk act s = .next t) :
    ∃ w, s.walk = some w ∧
      ((wfDesc s.cfg w.desc = true ∧ t = act w s) ∨
        (wfDesc s.cfg w.desc = false ∧ t = walkClose s (badDescReply w.job))) := by
  unfold onWalk at h
  split at h
  · cases h
  · rename_i w hw
    split at h
    · rename_i hwf
      injection h with h
      exact ⟨w, hw, .inl ⟨hwf, h.symm⟩⟩
    · rename_i hwf
      injection h with h
      exact ⟨w, hw, .inr ⟨by simpa using hwf, h.symm⟩⟩

/-- Everything `walkTo` can do: the walk goes on, or ends with its results. -/
theorem walkTo_spec (s : State) (w : Walk) (pos : Nat) (job : Job) :
    (pos < w.desc.length ∧ walkTo s w pos job = s.setWalk (some ⟨w.desc, pos, job⟩)) ∨
      (w.desc.length ≤ pos ∧ walkTo s w pos job = walkClose s (walkResult job)) := by
  unfold walkTo
  split
  · rename_i h
    exact .inl ⟨h, rfl⟩
  · rename_i h
    exact .inr ⟨by omega, rfl⟩

end Sys2Proof.Machine
end

