-- ==== Sys2Proof/Laws/Buffers.lean ====
section
/-! SUPPORT. The laws of the byte buffers: a read after a write, and the canonical form every write keeps. -/

namespace Sys2Proof.Machine

/-- A buffer sorted from `lo` is sorted from any lower bound. -/
theorem bufferSorted_mono {m : Buffer} {lo lo' : Nat} (h : lo' ≤ lo) (hm : bufferSorted lo m = true) :
    bufferSorted lo' m = true := by
  cases m with
  | nil => rfl
  | cons cell rest =>
    obtain ⟨j, w⟩ := cell
    simp only [bufferSorted, Bool.and_eq_true, decide_eq_true_eq] at hm ⊢
    exact ⟨⟨by omega, hm.1.2⟩, hm.2⟩

/-- A buffer sorted from above `i` holds nothing at `i`. -/
theorem Buffer.read_below {m : Buffer} {lo i : Nat} (hm : bufferSorted lo m = true) (h : i < lo) :
    Buffer.read m i = bufferDefault := by
  induction m generalizing lo with
  | nil => rfl
  | cons cell rest ih =>
    obtain ⟨j, w⟩ := cell
    simp only [bufferSorted, Bool.and_eq_true, decide_eq_true_eq] at hm
    have hne : i ≠ j := by omega
    simp only [Buffer.read, hne, if_false]
    exact ih hm.2 (by omega)

/-- A write keeps the canonical form above any bound that admits its index. -/
theorem Buffer.write_sorted {m : Buffer} {lo i : Nat} {v : Byte} (hm : bufferSorted lo m = true) (h : lo ≤ i) :
    bufferSorted lo (Buffer.write m i v) = true := by
  induction m generalizing lo with
  | nil =>
    unfold Buffer.write
    split
    · rfl
    · rename_i hv
      simp [bufferSorted, hv, h]
  | cons cell rest ih =>
    obtain ⟨j, w⟩ := cell
    have hm' := hm
    simp only [bufferSorted, Bool.and_eq_true, decide_eq_true_eq] at hm
    unfold Buffer.write
    split
    · rename_i hij
      split
      · exact hm'
      · rename_i hv
        simp [bufferSorted, hv, h, hm, show i + 1 ≤ j by omega]
    · split
      · rename_i hij
        subst hij
        split
        · exact bufferSorted_mono (by omega) hm.2
        · rename_i hv
          simp [bufferSorted, hv, h, hm.2]
      · have hji : j + 1 ≤ i := by omega
        simp [bufferSorted, hm.1.1, hm.1.2, ih hm.2 hji]

/-- Every write keeps the canonical form. -/
theorem Buffer.write_wf {m : Buffer} {i : Nat} {v : Byte} (hm : Buffer.wf m = true) :
    Buffer.wf (Buffer.write m i v) = true :=
  Buffer.write_sorted hm (Nat.zero_le i)

/-- What a write does to a sorted buffer: the written index reads the value, every other index reads as before. -/
theorem Buffer.read_write_sorted {m : Buffer} {lo i : Nat} {v : Byte} (hm : bufferSorted lo m = true) (j : Nat) :
    Buffer.read (Buffer.write m i v) j = if j = i then v else Buffer.read m j := by
  induction m generalizing lo with
  | nil =>
    unfold Buffer.write
    by_cases hv : v = bufferDefault
    · simp [hv, Buffer.read]
    · simp [hv, Buffer.read]
  | cons cell rest ih =>
    obtain ⟨k, w⟩ := cell
    simp only [bufferSorted, Bool.and_eq_true, decide_eq_true_eq] at hm
    unfold Buffer.write
    by_cases hik : i < k
    · by_cases hv : v = bufferDefault
      · have hbelow : Buffer.read ((k, w) :: rest) i = bufferDefault :=
          Buffer.read_below (lo := k) (by simp [bufferSorted, hm]) hik
        by_cases hj : j = i
        · subst hj; simp [hik, hv, hbelow]
        · simp [hik, hv, hj]
      · simp [hik, hv, Buffer.read]
    · by_cases hk : i = k
      · subst hk
        by_cases hv : v = bufferDefault
        · by_cases hj : j = i
          · subst hj
            simpa [hv] using Buffer.read_below hm.2 (Nat.lt_succ_self j)
          · simp [hv, hj, Buffer.read]
        · by_cases hj : j = i
          · simp [hv, hj, Buffer.read]
          · simp [hv, hj, Buffer.read]
      · simp only [hik, hk, if_false, Buffer.read]
        by_cases hj : j = k
        · subst hj
          simp [Ne.symm hk]
        · simp [hj, ih hm.2]

/-- What a write does to a buffer in canonical form (20_memory.md R52). -/
theorem Buffer.read_write {m : Buffer} {i : Nat} {v : Byte} (hm : Buffer.wf m = true) (j : Nat) :
    Buffer.read (Buffer.write m i v) j = if j = i then v else Buffer.read m j :=
  Buffer.read_write_sorted hm j

/-- Everything `bufWrite` can do. -/
theorem bufWrite_spec {cap : Nat} {m m' : Buffer} {i : Nat} {v : Byte} (hm : Buffer.wf m = true)
    (h : bufWrite cap m i v = some m') :
    i < cap ∧ Buffer.wf m' = true ∧ ∀ j, Buffer.read m' j = if j = i then v else Buffer.read m j := by
  unfold bufWrite at h
  split at h
  · rename_i hi
    cases h
    exact ⟨hi, Buffer.write_wf hm, Buffer.read_write hm⟩
  · cases h

@[simp] theorem Buffer.readFrom_length (m : Buffer) (i n : Nat) : (Buffer.readFrom m i n).length = n := by
  induction n generalizing i with
  | zero => rfl
  | succ n ih => simp [Buffer.readFrom, ih]

/-- The byte at place `k` of a read. -/
theorem Buffer.readFrom_get (m : Buffer) (i n k : Nat) (h : k < n) :
    (Buffer.readFrom m i n)[k]? = some (Buffer.read m (i + k)) := by
  induction n generalizing i k with
  | zero => omega
  | succ n ih =>
    cases k with
    | zero => rfl
    | succ k => simp [Buffer.readFrom, ih (i + 1) k (by omega), Nat.add_assoc, Nat.add_comm 1 k]

/-- Everything `bufRead` can do. -/
theorem bufRead_spec {cap : Nat} {m : Buffer} {i n : Nat} {bs : List Byte} (h : bufRead cap m i n = some bs) :
    i + n ≤ cap ∧ bs = Buffer.readFrom m i n := by
  unfold bufRead at h
  split at h
  · rename_i hi
    cases h
    exact ⟨hi, rfl⟩
  · cases h

/-- A read of `n + 1` bytes is a read of `n` bytes and the byte after them. -/
theorem Buffer.readFrom_succ (m : Buffer) (i n : Nat) :
    Buffer.readFrom m i (n + 1) = Buffer.readFrom m i n ++ [Buffer.read m (i + n)] := by
  induction n generalizing i with
  | zero => rfl
  | succ n ih =>
    rw [Buffer.readFrom, ih (i + 1)]
    simp [Buffer.readFrom, Nat.add_assoc, Nat.add_comm 1 n]

/-- A write at or after the end of a range does not change a read of it. -/
theorem Buffer.readFrom_write {m : Buffer} {i n k : Nat} {v : Byte} (hm : Buffer.wf m = true) (h : i + n ≤ k) :
    Buffer.readFrom (Buffer.write m k v) i n = Buffer.readFrom m i n := by
  induction n generalizing i with
  | zero => rfl
  | succ n ih =>
    simp only [Buffer.readFrom, Buffer.read_write hm, show i ≠ k by omega, if_false, ih (show i + 1 + n ≤ k by omega)]

/-- Power-on buffers are in the canonical form. -/
theorem reset_buffers_wf :
    Buffer.wf State.reset.rx.buf = true ∧ Buffer.wf State.reset.fl.hdr = true ∧
      Buffer.wf State.reset.fl.buf = true := by
  decide

end Sys2Proof.Machine
end

