-- ==== Sys2Proof/Laws/Descriptor.lean ====
section
/-! SUPPORT. Each checker of a descriptor says what the words of its rule say: one lemma for each of W1 to W6 (R162 to
R167), from the model's structural recursion to prefixes, positions and items. -/

namespace Sys2Proof.Machine

/-- The tag map has one byte for each tag (R81). -/
theorem Tag.ofByte_eq_some {b : Byte} {t : Tag} : Tag.ofByte b = some t ↔ b = t.toByte := by
  constructor
  · intro h
    unfold Tag.ofByte at h
    iterate 10
      split at h
      · cases h
        assumption
    cases h
  · rintro rfl
    cases t with
    | scalar u => cases u <;> rfl
    | structOpen => rfl
    | structClose => rfl
    | array => rfl

/-- W1 (R162): the tags of a descriptor are those whose bytes it is. -/
theorem tagsOf_eq_some {desc : List Byte} {ts : List Tag} : tagsOf desc = some ts ↔ desc = ts.map Tag.toByte := by
  induction desc generalizing ts with
  | nil => cases ts <;> simp [tagsOf]
  | cons b rest ih =>
    cases ts with
    | nil =>
      simp only [tagsOf, List.map_nil, reduceCtorEq, iff_false]
      split <;> simp
    | cons t ts =>
      simp only [tagsOf, List.map_cons, List.cons.injEq, ← ih, ← Tag.ofByte_eq_some]
      split
      · rename_i t' ts' ht hts
        simp [ht, hts]
      · rename_i h
        constructor
        · intro hn
          cases hn
        · rintro ⟨ht, hts⟩
          exact absurd hts (h t ts ht)

/-- A claim about every prefix of `t :: ts` is one about the empty prefix and one about every prefix of `ts`. -/
theorem forall_take_cons {P : List Tag → Prop} {t : Tag} {ts : List Tag} :
    (∀ k, P ((t :: ts).take k)) ↔ P [] ∧ ∀ k, P (t :: ts.take k) :=
  ⟨fun h => ⟨h 0, fun k => h (k + 1)⟩, fun h k => by
    cases k with
    | zero => exact h.1
    | succ k => exact h.2 k⟩

/-- W2 (R163), with `n` structures open before `ts`. -/
theorem balanced_iff (n : Nat) (ts : List Tag) :
    balanced n ts = true ↔
      (∀ k, (ts.take k).count .structClose ≤ n + (ts.take k).count .structOpen) ∧
        ts.count .structClose = n + ts.count .structOpen := by
  induction ts generalizing n with
  | nil => simp [balanced, eq_comm]
  | cons t ts ih =>
    rw [forall_take_cons (P := fun us => us.count .structClose ≤ n + us.count .structOpen)]
    cases t with
    | scalar u => simp [balanced, ih]
    | array => simp [balanced, ih]
    | structOpen =>
      simp only [balanced, ih, List.count_nil, Nat.zero_le, true_and, List.count_cons_self,
        List.count_cons_of_ne (show Tag.structOpen ≠ Tag.structClose by decide), Nat.add_zero]
      constructor <;> rintro ⟨h, he⟩ <;> exact ⟨fun k => by have := h k; omega, by omega⟩
    | structClose =>
      simp only [List.count_nil, Nat.zero_le, true_and, List.count_cons_self,
        List.count_cons_of_ne (show Tag.structClose ≠ Tag.structOpen by decide), Nat.add_zero]
      cases n with
      | zero =>
        simp only [balanced, Bool.false_eq_true, false_iff]
        rintro ⟨h, _⟩
        have := h 0
        simp at this
      | succ n =>
        simp only [balanced, ih]
        constructor <;> rintro ⟨h, he⟩ <;> exact ⟨fun k => by have := h k; omega, by omega⟩

/-- W3 (R164), with `n` structures open before a balanced `ts`. -/
theorem depthWithin_iff (max n : Nat) (ts : List Tag) (hb : balanced n ts = true) (hn : n ≤ max) :
    depthWithin max n ts = true ↔
      ∀ k, n + (ts.take k).count .structOpen ≤ (ts.take k).count .structClose + max := by
  induction ts generalizing n with
  | nil => simp [depthWithin, hn]
  | cons t ts ih =>
    rw [forall_take_cons (P := fun us => n + us.count .structOpen ≤ us.count .structClose + max)]
    cases t with
    | scalar u => simp [depthWithin, ih n (by simpa [balanced] using hb) hn, hn]
    | array => simp [depthWithin, ih n (by simpa [balanced] using hb) hn, hn]
    | structOpen =>
      simp only [depthWithin, Bool.and_eq_true, decide_eq_true_eq, List.count_nil, List.count_cons_self,
        List.count_cons_of_ne (show Tag.structOpen ≠ Tag.structClose by decide), Nat.add_zero, Nat.zero_add, hn,
        true_and]
      constructor
      · rintro ⟨h1, h⟩ k
        have := (ih (n + 1) (by simpa [balanced] using hb) h1).mp h k
        omega
      · intro h
        have h1 : n + 1 ≤ max := by
          have := h 0
          simp at this
          omega
        exact ⟨h1, (ih (n + 1) (by simpa [balanced] using hb) h1).mpr fun k => by have := h k; omega⟩
    | structClose =>
      cases n with
      | zero => simp [balanced] at hb
      | succ n =>
        simp only [depthWithin, Nat.add_sub_cancel, ih n (by simpa [balanced] using hb) (by omega), List.count_nil,
          List.count_cons_self, List.count_cons_of_ne (show Tag.structClose ≠ Tag.structOpen by decide),
          Nat.add_zero, Nat.zero_add, hn, true_and]
        constructor <;> intro h k <;> have := h k <;> omega

/-- The tag ends an item that a `*` may follow: a scalar or a `)`. -/
def endsElement (t : Tag) : Prop := t = .structClose ∨ ∃ u, t = .scalar u

/-- W4 (R165), where `e` says that the tag before `ts` ends an element. -/
theorem starsPlaced_iff (e : Bool) (ts : List Tag) :
    starsPlaced e ts = true ↔
      ∀ k, ts[k]? = some .array →
        (k = 0 ∧ e = true) ∨ ∃ j t, k = j + 1 ∧ ts[j]? = some t ∧ endsElement t := by
  induction ts generalizing e with
  | nil => simp [starsPlaced]
  | cons t ts ih =>
    have shift : ∀ e', (starsPlaced e' ts = true ↔ ∀ k, (t :: ts)[k + 1]? = some .array →
        (k = 0 ∧ e' = true) ∨ ∃ j u, k = j + 1 ∧ (t :: ts)[j + 1]? = some u ∧ endsElement u) := by
      intro e'
      simpa using ih e'
    have step : ∀ e', (e' = true ↔ endsElement t) → (t = .array → e = true) →
        (starsPlaced e' ts = true ↔ ∀ k, (t :: ts)[k]? = some .array →
          (k = 0 ∧ e = true) ∨ ∃ j u, k = j + 1 ∧ (t :: ts)[j]? = some u ∧ endsElement u) := by
      intro e' he' he
      rw [shift]
      constructor
      · intro h k hk
        cases k with
        | zero =>
          simp only [List.getElem?_cons_zero, Option.some.injEq] at hk
          exact .inl ⟨rfl, he hk⟩
        | succ k =>
          rcases h k hk with ⟨rfl, ht⟩ | ⟨j, u, rfl, hu, hend⟩
          · exact .inr ⟨0, t, rfl, rfl, he'.mp ht⟩
          · exact .inr ⟨j + 1, u, rfl, hu, hend⟩
      · intro h k hk
        rcases h (k + 1) hk with ⟨h0, _⟩ | ⟨j, u, hj, hu, hend⟩
        · omega
        · obtain rfl : k = j := by omega
          cases k with
          | zero =>
            simp only [List.getElem?_cons_zero, Option.some.injEq] at hu
            subst hu
            exact .inl ⟨rfl, he'.mpr hend⟩
          | succ k => exact .inr ⟨k, u, rfl, hu, hend⟩
    cases t with
    | scalar u => exact step true (by simp [endsElement]) (by simp)
    | structOpen => exact step false (by simp [endsElement]) (by simp)
    | structClose => exact step true (by simp [endsElement]) (by simp)
    | array =>
      cases e with
      | true =>
        simpa [starsPlaced] using step false (by simp [endsElement]) (by simp)
      | false =>
        simp only [starsPlaced, Bool.false_and, Bool.false_eq_true, false_iff]
        intro h
        simpa using h 0 rfl

/-- W5 (R165). -/
theorem arraysTerminal_iff (ts : List Tag) :
    arraysTerminal ts = true ↔ ∀ k, ts[k]? = some .array → ∀ t ∈ ts.drop (k + 1), t = .structClose := by
  induction ts with
  | nil => simp [arraysTerminal]
  | cons u ts ih =>
    have split : (∀ k, (u :: ts)[k]? = some .array → ∀ t ∈ (u :: ts).drop (k + 1), t = .structClose) ↔
        (u = .array → ∀ t ∈ ts, t = .structClose) ∧ arraysTerminal ts = true := by
      rw [ih]
      constructor
      · intro h
        exact ⟨fun hu => by simpa using h 0 (by simp [hu]), fun k hk => by simpa using h (k + 1) (by simpa using hk)⟩
      · rintro ⟨h0, h⟩ k hk
        cases k with
        | zero => simpa using h0 (by simpa using hk)
        | succ k => simpa using h k (by simpa using hk)
    rw [split]
    cases u <;> simp [arraysTerminal]

/-- What occurs in a list occurs in its first item or in the rest. -/
theorem occurs_cons_iff {x it : Item} {its : Items} : Occurs x (.cons it its) ↔ Occurs x (.cons it .nil) ∨ Occurs x its := by
  constructor
  · intro h
    cases h with
    | head => exact .inl (.head _)
    | tail _ _ h => exact .inr h
    | member ms _ h => exact .inl (.member ms _ h)
    | element e _ h => exact .inl (.element e _ h)
  · rintro (h | h)
    · cases h with
      | head => exact .head _
      | tail _ _ h => cases h
      | member ms _ h => exact .member ms _ h
      | element e _ h => exact .element e _ h
    · exact .tail _ _ h

/-- W6 (R167). -/
theorem arraysProgress_iff (c : Config) (its : Items) :
    arraysProgress c its = true ↔ ∀ e, Occurs (.ar e) its → 1 ≤ minWidth c e := by
  induction its using Items.rec
    (motive_1 := fun it => arrayProgress c it = true ↔ ∀ e, Occurs (.ar e) (.cons it .nil) → 1 ≤ minWidth c e) with
  | sc t =>
    simp only [arrayProgress, true_iff]
    intro e h
    cases h with
    | tail _ _ h => cases h
  | st ms ih =>
    simp only [arrayProgress, ih]
    constructor
    · intro h e he
      cases he with
      | tail _ _ he => cases he
      | member _ _ he => exact h e he
    · exact fun h e he => h e (.member _ _ he)
  | ar e ih =>
    simp only [arrayProgress, Bool.and_eq_true, decide_eq_true_eq, ih]
    constructor
    · rintro ⟨h0, h⟩ e' he
      cases he with
      | head => exact h0
      | tail _ _ he => cases he
      | element _ _ he => exact h e' he
    · exact fun h => ⟨h e (.head _), fun e' he => h e' (.element _ _ he)⟩
  | nil =>
    simp only [arraysProgress, true_iff]
    intro e h
    cases h
  | cons it its ihit ih =>
    simp only [arraysProgress, Bool.and_eq_true, ihit, ih]
    constructor
    · rintro ⟨h1, h2⟩ e he
      exact (occurs_cons_iff.mp he).elim (h1 e) (h2 e)
    · exact fun h => ⟨fun e he => h e (occurs_cons_iff.mpr (.inl he)), fun e he => h e (occurs_cons_iff.mpr (.inr he))⟩

end Sys2Proof.Machine
end

