-- ==== Sys2Proof/Laws/Flen.lean ====
section
/-! SUPPORT. The FLEN unit: for each shared operation of the decoder one lemma that says everything it can do. -/

namespace Sys2Proof.Machine

@[simp] theorem flenEncode_length (c : Config) (p : List Byte) :
    (flenEncode c p).length = c.flenLenBytes + p.length := by
  simp [flenEncode]

/-- Everything a header byte can do (R142, R143). -/
theorem flenHdrByte_spec {b : Byte} {s t : State} (hw : Buffer.wf s.fl.hdr = true) (h : flenHdrByte b s = some t) :
    s.fl.hcount < s.cfg.flenLenBytes ∧
      ((s.fl.hcount + 1 ≠ s.cfg.flenLenBytes ∧
          t = s.setFl ⟨s.fl.state, s.fl.hcount + 1, Buffer.write s.fl.hdr s.fl.hcount b, s.fl.len, s.fl.count,
            s.fl.buf⟩) ∨
        (s.fl.hcount + 1 = s.cfg.flenLenBytes ∧
          t = flenHeaderComplete (Buffer.write s.fl.hdr s.fl.hcount b)
            (fromLE (Buffer.readFrom s.fl.hdr 0 s.fl.hcount ++ [b])) s)) := by
  simp only [flenHdrByte, bufWrite] at h
  by_cases hc : s.fl.hcount < s.cfg.flenLenBytes
  · refine ⟨hc, ?_⟩
    simp only [hc, if_true] at h
    by_cases hk : s.fl.hcount + 1 = s.cfg.flenLenBytes
    · simp only [hk, if_true] at h
      have hread : Buffer.readFrom (Buffer.write s.fl.hdr s.fl.hcount b) 0 s.cfg.flenLenBytes =
          Buffer.readFrom s.fl.hdr 0 s.fl.hcount ++ [b] := by
        rw [← hk, Buffer.readFrom_succ, Buffer.readFrom_write hw (by omega), Buffer.read_write hw]
        simp
      simp only [bufRead, Nat.zero_add, le_refl, if_true, hread] at h
      exact .inr ⟨hk, (Option.some.inj h).symm⟩
    · simp only [hk, if_false] at h
      exact .inl ⟨hk, (Option.some.inj h).symm⟩
  · simp [hc] at h

/-- Everything a body byte can do (R144). -/
theorem flenBodyByte_spec {b : Byte} {s t : State} (hw : Buffer.wf s.fl.buf = true)
    (h : flenBodyByte b s = some t) :
    s.fl.count < s.cfg.flenMax ∧
      ((s.fl.count + 1 ≠ s.fl.len ∧
          t = s.setFl ⟨s.fl.state, s.fl.hcount, s.fl.hdr, s.fl.len, s.fl.count + 1,
            Buffer.write s.fl.buf s.fl.count b⟩) ∨
        (s.fl.count + 1 = s.fl.len ∧ s.fl.len ≤ s.cfg.flenMax ∧
          t = (s.post (.flenFrame (Buffer.readFrom s.fl.buf 0 s.fl.count ++ [b]))).setFl
            ⟨.hdr, s.fl.hcount, s.fl.hdr, s.fl.len, 0, Buffer.write s.fl.buf s.fl.count b⟩)) := by
  simp only [flenBodyByte, bufWrite] at h
  by_cases hc : s.fl.count < s.cfg.flenMax
  · refine ⟨hc, ?_⟩
    simp only [hc, if_true] at h
    by_cases hk : s.fl.count + 1 = s.fl.len
    · simp only [hk, if_true] at h
      have hread : Buffer.readFrom (Buffer.write s.fl.buf s.fl.count b) 0 s.fl.len =
          Buffer.readFrom s.fl.buf 0 s.fl.count ++ [b] := by
        rw [← hk, Buffer.readFrom_succ, Buffer.readFrom_write hw (by omega), Buffer.read_write hw]
        simp
      have hlen : s.fl.len ≤ s.cfg.flenMax := by omega
      simp only [bufRead, Nat.zero_add, hlen, if_true, hread] at h
      exact .inr ⟨hk, hlen, (Option.some.inj h).symm⟩
    · simp only [hk, if_false] at h
      exact .inl ⟨hk, (Option.some.inj h).symm⟩
  · simp [hc] at h

/-- Everything FLEN_RX_BYTE can do when it ends: the row of its state, and the status `OK` (R146). -/
theorem execFlenRxByte_next {b : Byte} {s t : State} (h : execFlenRxByte b s = .next t) :
    ∃ u, flenByte b s = some u ∧ t = u.respond (.status .ok) := by
  unfold execFlenRxByte at h
  split at h
  · rename_i u hu
    injection h with h
    exact ⟨u, hu, h.symm⟩
  · cases h

end Sys2Proof.Machine
end

