-- ==== Sys2Proof/Laws/Hdlc.lean ====
section
/-! SUPPORT. The HDLC unit: escaping over concatenations, the length of an encoded frame (R86), and for each shared
operation of the decoder one lemma that says everything it can do. -/

namespace Sys2Proof.Machine

@[simp] theorem escBytes_nil (c : Config) : escBytes c [] = [] := rfl

@[simp] theorem escBytes_cons (c : Config) (v : Byte) (s : List Byte) :
    escBytes c (v :: s) = escByte c v ++ escBytes c s := rfl

@[simp] theorem escBytes_append (c : Config) (s t : List Byte) :
    escBytes c (s ++ t) = escBytes c s ++ escBytes c t := by
  induction s with
  | nil => rfl
  | cons v s ih => simp [ih, List.append_assoc]

/-- Everything `escByte` can do (R105). -/
theorem escByte_spec (c : Config) (v : Byte) :
    (v ∈ c.escapeSet ∧ escByte c v = [c.hdlcEsc, v ^^^ c.escXor]) ∨ (v ∉ c.escapeSet ∧ escByte c v = [v]) := by
  unfold escByte
  by_cases h : v ∈ c.escapeSet
  · exact .inl ⟨h, by simp [h]⟩
  · exact .inr ⟨h, by simp [h]⟩

/-- One wire byte for each byte outside `ESCAPE_SET`, two for each member (R86). -/
theorem escBytes_length (c : Config) (s : List Byte) :
    (escBytes c s).length = (s.map fun v => if v ∈ c.escapeSet then 2 else 1).sum := by
  induction s with
  | nil => rfl
  | cons v s ih =>
    rcases escByte_spec c v with ⟨h, he⟩ | ⟨h, he⟩ <;> simp [he, ih, h] <;> omega

/-- The bounds of R86 on an escaped sequence. -/
theorem escBytes_length_bounds (c : Config) (s : List Byte) :
    s.length ≤ (escBytes c s).length ∧ (escBytes c s).length ≤ 2 * s.length := by
  induction s with
  | nil => exact ⟨le_refl _, le_refl _⟩
  | cons v s ih =>
    rcases escByte_spec c v with ⟨_, he⟩ | ⟨_, he⟩ <;> simp only [escBytes_cons, he, List.length_append,
      List.length_cons, List.length_nil] <;> omega

/-- The encoded length is between `|P| + 4` and `2|P| + 6` (R86, R263). -/
theorem hdlcEncode_length_bounds (c : Config) (p : List Byte) :
    p.length + 4 ≤ (hdlcEncode c p).length ∧ (hdlcEncode c p).length ≤ 2 * p.length + 6 := by
  have h := escBytes_length_bounds c (p ++ fcsBytes (fcs16 c p))
  have hf : (fcsBytes (fcs16 c p)).length = 2 := rfl
  simp only [List.length_append, hf] at h
  unfold hdlcEncode
  simp only [List.length_append, List.length_cons, List.length_nil]
  omega

/-- The class of a byte says which octet it is (R84). -/
theorem octetClass_spec (c : Config) (b : Byte) :
    (octetClass c b = .flag ∧ b = c.hdlcFlag) ∨
      (octetClass c b = .esc ∧ b = c.hdlcEsc ∧ b ≠ c.hdlcFlag) ∨
      (octetClass c b = .data ∧ b ≠ c.hdlcFlag ∧ b ≠ c.hdlcEsc) := by
  unfold octetClass
  by_cases hf : b = c.hdlcFlag
  · exact .inl ⟨by simp [hf], hf⟩
  · by_cases he : b = c.hdlcEsc
    · exact .inr (.inl ⟨by rw [if_neg hf, if_pos he], he, hf⟩)
    · exact .inr (.inr ⟨by rw [if_neg hf, if_neg he], hf, he⟩)

/-- Everything `Append` can do (R127). -/
theorem rxAppend_spec (v : Byte) (s : State) :
    (s.rx.len < s.cfg.hdlcRxCap ∧
        rxAppend v s = s.setRx ⟨.data, s.rx.len + 1, Buffer.write s.rx.buf s.rx.len v⟩) ∨
      (s.cfg.hdlcRxCap ≤ s.rx.len ∧
        rxAppend v s = (s.post (.hdlcDiscard .overflow)).setRx ⟨.hunt, 0, s.rx.buf⟩) := by
  unfold rxAppend
  split
  · rename_i h
    exact .inl ⟨h, rfl⟩
  · rename_i h
    exact .inr ⟨by omega, rfl⟩

/-- Everything `Close` can do when it ends (R128). -/
theorem rxClose_spec {s t : State} (h : rxClose s = some t) :
    (s.rx.len = 0 ∧ t = s.setRx ⟨.data, 0, s.rx.buf⟩) ∨
      (s.rx.len = 1 ∧ t = (s.post (.hdlcDiscard .short)).setRx ⟨.data, 0, s.rx.buf⟩) ∨
      (2 ≤ s.rx.len ∧ s.rx.len ≤ s.cfg.hdlcRxCap ∧
        t = (s.post (closeEvent s.cfg (Buffer.readFrom s.rx.buf 0 (s.rx.len - 2))
          (Buffer.readFrom s.rx.buf (s.rx.len - 2) 2))).setRx ⟨.data, 0, s.rx.buf⟩) := by
  simp only [rxClose] at h
  split at h
  · rename_i h0
    exact .inl ⟨h0, (Option.some.inj h).symm⟩
  · split at h
    · rename_i h1
      exact .inr (.inl ⟨h1, (Option.some.inj h).symm⟩)
    · split at h
      · rename_i h0 h1 _ _ p r hp hr
        obtain ⟨_, rfl⟩ := bufRead_spec hp
        obtain ⟨hc, rfl⟩ := bufRead_spec hr
        exact .inr (.inr ⟨by omega, by omega, (Option.some.inj h).symm⟩)
      · cases h

/-- A decoder whose `rx.len` is inside its buffer never leaves the buffer at a flag (R51). -/
theorem rxClose_isSome {s : State} (h : s.rx.len ≤ s.cfg.hdlcRxCap) : (rxClose s).isSome = true := by
  unfold rxClose
  split
  · rfl
  · split
    · rfl
    · have h0 : 0 + (s.rx.len - 2) ≤ s.cfg.hdlcRxCap := by omega
      have h2 : s.rx.len - 2 + 2 ≤ s.cfg.hdlcRxCap := by omega
      simp only [bufRead, if_pos h0, if_pos h2]
      rfl

/-- Everything a wire byte can do (R120): the cell of the table it selects. -/
theorem rxByte_spec {b : Byte} {s t : State} (h : rxByte b s = some t) :
    (s.rx.state = .hunt ∧ b = s.cfg.hdlcFlag ∧ t = s.setRx ⟨.data, 0, s.rx.buf⟩) ∨
      (s.rx.state = .hunt ∧ b ≠ s.cfg.hdlcFlag ∧ t = s) ∨
      (s.rx.state = .data ∧ b = s.cfg.hdlcFlag ∧ rxClose s = some t) ∨
      (s.rx.state = .data ∧ b = s.cfg.hdlcEsc ∧ b ≠ s.cfg.hdlcFlag ∧ t = s.setRx ⟨.esc, s.rx.len, s.rx.buf⟩) ∨
      (s.rx.state = .data ∧ b ≠ s.cfg.hdlcFlag ∧ b ≠ s.cfg.hdlcEsc ∧ t = rxAppend b s) ∨
      (s.rx.state = .esc ∧ b = s.cfg.hdlcFlag ∧
        t = (s.post (.hdlcDiscard .abort)).setRx ⟨.data, 0, s.rx.buf⟩) ∨
      (s.rx.state = .esc ∧ b ≠ s.cfg.hdlcFlag ∧ t = rxAppend (b ^^^ s.cfg.escXor) s) := by
  unfold rxByte at h
  rcases octetClass_spec s.cfg b with ⟨hc, hb⟩ | ⟨hc, hb, hf⟩ | ⟨hc, hf, hb⟩ <;>
    rcases hs : s.rx.state with _ | _ | _ <;> rw [hs, hc] at h <;> simp_all

/-- Everything HDLC_RX_BYTE can do when it ends: the byte's cell, and the status `OK` (R129). -/
theorem execHdlcRxByte_next {b : Byte} {s t : State} (h : execHdlcRxByte b s = .next t) :
    ∃ u, rxByte b s = some u ∧ t = u.respond (.status .ok) := by
  unfold execHdlcRxByte at h
  split at h
  · rename_i u hu
    injection h with h
    exact ⟨u, hu, h.symm⟩
  · cases h

end Sys2Proof.Machine
end

