-- ==== Sys2Proof/Laws/PerInstr.lean ====
section
/-! SUPPORT. A statement made for each instruction: the byte its encoding begins with is the byte of its row of
spec/opcode_table.json (columns "match" and "mask"), in the encoding space of its row (column "format"). -/

namespace Sys2Proof

/-- The "format" of a row and its "match" byte. -/
inductive Laws.TableRow where
  | op (byte : Byte)
  | tag (byte : Byte)
deriving DecidableEq, Repr

/-- The row a code word belongs to. -/
def Laws.rowOf : Code → Laws.TableRow
  | .op r => .op r.opcode
  | .tag b => .tag b

/-- The row of each instruction, as the table has it. -/
def Laws.tableRow : Instr → Laws.TableRow
  | .reset => .op 0x01#8
  | .hdlcTxFrame _ => .op 0x10#8
  | .hdlcTxBegin => .op 0x11#8
  | .hdlcTxByte _ => .op 0x12#8
  | .hdlcTxEnd => .op 0x13#8
  | .hdlcTxAbort => .op 0x14#8
  | .hdlcRxByte _ => .op 0x18#8
  | .flenTxFrame _ => .op 0x20#8
  | .flenRxByte _ => .op 0x28#8
  | .flenRxAbort => .op 0x29#8
  | .argPack _ _ _ => .op 0x30#8
  | .argUnpack _ _ => .op 0x31#8
  | .tagBool => .tag 0x62#8
  | .tagU8 => .tag 0x43#8
  | .tagU16 => .tag 0x53#8
  | .tagU32 => .tag 0x4C#8
  | .tagI32 => .tag 0x6C#8
  | .tagBlob => .tag 0x64#8
  | .tagUtf8 => .tag 0x55#8
  | .tagStructOpen => .tag 0x28#8
  | .tagStructClose => .tag 0x29#8
  | .tagArray => .tag 0x2A#8

/-- The encoding of the instruction is a word of its row. -/
def Laws.EncodingRow.Statement (i : Instr) : Prop := Laws.rowOf (encode i) = Laws.tableRow i

theorem Laws.EncodingRow.reset : Laws.EncodingRow.Statement .reset := rfl
theorem Laws.EncodingRow.hdlcTxFrame (payload : List Byte) : Laws.EncodingRow.Statement (.hdlcTxFrame payload) := rfl
theorem Laws.EncodingRow.hdlcTxBegin : Laws.EncodingRow.Statement .hdlcTxBegin := rfl
theorem Laws.EncodingRow.hdlcTxByte (b : Byte) : Laws.EncodingRow.Statement (.hdlcTxByte b) := rfl
theorem Laws.EncodingRow.hdlcTxEnd : Laws.EncodingRow.Statement .hdlcTxEnd := rfl
theorem Laws.EncodingRow.hdlcTxAbort : Laws.EncodingRow.Statement .hdlcTxAbort := rfl
theorem Laws.EncodingRow.hdlcRxByte (b : Byte) : Laws.EncodingRow.Statement (.hdlcRxByte b) := rfl
theorem Laws.EncodingRow.flenTxFrame (payload : List Byte) : Laws.EncodingRow.Statement (.flenTxFrame payload) := rfl
theorem Laws.EncodingRow.flenRxByte (b : Byte) : Laws.EncodingRow.Statement (.flenRxByte b) := rfl
theorem Laws.EncodingRow.flenRxAbort : Laws.EncodingRow.Statement .flenRxAbort := rfl
theorem Laws.EncodingRow.argPack (desc : List Byte) (vals : Values) (cap : Nat) : Laws.EncodingRow.Statement (.argPack desc vals cap) := rfl
theorem Laws.EncodingRow.argUnpack (desc input : List Byte) : Laws.EncodingRow.Statement (.argUnpack desc input) := rfl
theorem Laws.EncodingRow.tagBool : Laws.EncodingRow.Statement .tagBool := rfl
theorem Laws.EncodingRow.tagU8 : Laws.EncodingRow.Statement .tagU8 := rfl
theorem Laws.EncodingRow.tagU16 : Laws.EncodingRow.Statement .tagU16 := rfl
theorem Laws.EncodingRow.tagU32 : Laws.EncodingRow.Statement .tagU32 := rfl
theorem Laws.EncodingRow.tagI32 : Laws.EncodingRow.Statement .tagI32 := rfl
theorem Laws.EncodingRow.tagBlob : Laws.EncodingRow.Statement .tagBlob := rfl
theorem Laws.EncodingRow.tagUtf8 : Laws.EncodingRow.Statement .tagUtf8 := rfl
theorem Laws.EncodingRow.tagStructOpen : Laws.EncodingRow.Statement .tagStructOpen := rfl
theorem Laws.EncodingRow.tagStructClose : Laws.EncodingRow.Statement .tagStructClose := rfl
theorem Laws.EncodingRow.tagArray : Laws.EncodingRow.Statement .tagArray := rfl

end Sys2Proof
end

