-- ==== Sys2Proof/Laws/Step.lean ====
section
/-! SUPPORT. The step and lists of operations: one lemma that says everything a step can do, and the run of a
concatenation. -/

namespace Sys2Proof.Machine

@[simp] theorem execAll_nil (s : State) : execAll [] s = .next s := rfl

/-- A list whose first operation ends runs the rest in the state it left. -/
theorem execAll_cons {i : Instr} {s t : State} (rest : List Instr) (h : exec i s = .next t) :
    execAll (i :: rest) s = execAll rest t := by
  simp [execAll, h]

/-- A concatenation runs its second part in the state the first part left. -/
theorem execAll_append {as : List Instr} {s t : State} (bs : List Instr) (h : execAll as s = .next t) :
    execAll (as ++ bs) s = execAll bs t := by
  induction as generalizing s with
  | nil => cases h; rfl
  | cons i as ih =>
    cases hi : exec i s with
    | next u =>
      rw [execAll_cons as hi] at h
      rw [List.cons_append, execAll_cons (as ++ bs) hi]
      exact ih h
    | fault r => simp [execAll, hi] at h
    | refused r => simp [execAll, hi] at h

/-- Everything a step can do when it ends. -/
theorem step_next {s t : State} (h : step s = .next t) :
    (fetch s = .idle ∧ t = s) ∨ (∃ i u, fetch s = .run i u ∧ exec i u = .next t) ∨
      (∃ u, fetch s = .unknown u ∧ t = u.respond (.status .errUnknownOp)) ∨ fetch s = .done t := by
  unfold step at h
  cases hf : fetch s with
  | idle =>
    rw [hf] at h
    injection h with h
    exact .inl ⟨rfl, h.symm⟩
  | run i u =>
    rw [hf] at h
    exact .inr (.inl ⟨i, u, rfl, h⟩)
  | unknown u =>
    rw [hf] at h
    simp only [unknownOp, replyStatus] at h
    injection h with h
    exact .inr (.inr (.inl ⟨u, rfl, h.symm⟩))
  | done u =>
    rw [hf] at h
    injection h with h
    exact .inr (.inr (.inr (by rw [h])))
  | refuse r =>
    rw [hf] at h
    cases h

/-- Everything the host's next action can fetch when no walk is in progress and the configuration is legal. -/
theorem fetch_action {s : State} (hc : configLegal s.cfg = true) (hw : s.walk = none) : fetch s = fetchAction s := by
  simp [fetch, hc, hw]

/-- A conditional that answers `a` does so in one of its branches. -/
theorem ite_eq_cases {α : Type} {c : Prop} [Decidable c] {x y a : α} (h : (if c then x else y) = a) :
    (c ∧ x = a) ∨ (¬c ∧ y = a) := by
  by_cases hc : c
  · exact .inl ⟨hc, by rwa [if_pos hc] at h⟩
  · exact .inr ⟨hc, by rwa [if_neg hc] at h⟩

/-- An operation's request never decodes to a tag: the two encoding spaces are apart (R70, R80). -/
theorem decodeOp_isOperation {r : Request} {i : Instr} (h : decodeOp r = .ok i) : isOperation i := by
  unfold decodeOp at h
  iterate 12
    rcases ite_eq_cases h with ⟨_, h⟩ | ⟨_, h⟩
    · split at h
      · injection h with h
        subst h
        exact ⟨_, rfl⟩
      · cases h
  cases h

end Sys2Proof.Machine
end

