-- ==== Sys2Proof/Tests/Slice0.lean ====
section
/-! SUPPORT. The model's own tests: ill-formed terms, words of both encoding spaces, one step of each instruction on
the vectors of 95_test_vectors.md (K, H, T, X, F, Q, A, V, Z, named in each group's comment), and for every statement
with hypotheses a state and operands that meet them, at the boundary values of its clauses. -/

namespace Sys2Proof.Tests

open Sys2Proof Sys2Proof.Machine

/-! ### Helpers -/

/-- The default parameters with small buffers: `MAX_FRAME` 2, `HDLC_RX_CAP` 4, `FLEN_MAX` 3. -/
def small : Config := { defaultConfig with maxFrame := 2, hdlcRxCap := 4, flenMax := 3 }

/-- Power-on with the small parameters. -/
def start : State := { State.reset with cfg := small }

/-- A buffer that holds `bs` from index `i`. -/
def stored : Nat → List Byte → Buffer
  | _, [] => []
  | i, b :: bs => if b = 0#8 then stored (i + 1) bs else (i, b) :: stored (i + 1) bs

/-- An encoder with an open frame that holds `p`. -/
def txAt (p : List Byte) : State := start.setTx ⟨.open, fcsRun small small.fcsInit p, p.length⟩

/-- An HDLC decoder in state `st` with `bs` stored. -/
def rxAt (st : RxState) (bs : List Byte) : State := start.setRx ⟨st, bs.length, stored 0 bs⟩

/-- A FLEN decoder in FL_HDR with the header bytes `h`. -/
def flHdrAt (h : List Byte) : State := start.setFl ⟨.hdr, h.length, stored 0 h, 0, 0, []⟩

/-- A FLEN decoder in state `st` with `count` of `len` bytes, of which `bs` are stored. -/
def flAt (st : FlState) (len count : Nat) (bs : List Byte) : State :=
  start.setFl ⟨st, 0, [], len, count, stored 0 bs⟩

/-- A walk at position `pos` of `desc`. -/
def walkAt (desc : List Byte) (pos : Nat) (job : Job) : State := State.reset.setWalk (some ⟨desc, pos, job⟩)

/-- The host's next action. -/
def hostAt (a : HostAction) : State := start.setInbox [a]

/-- One value. -/
def one (v : Value) : Values := .cons v .nil

/-- The state of an outcome that is a next state. -/
def after (r : StepResult) : Option State :=
  match r with
  | .next s => some s
  | .fault _ => none
  | .refused _ => none

/-- The last reply of an outcome. -/
def lastReply (r : StepResult) : Option Reply := (after r).bind fun s => s.replies.getLast?

/-! ### Well-formedness: the check refuses a term outside each range of R71 -/

theorem test_long_hdlc_payload_refused :
    (Instr.hdlcTxFrame (List.replicate 4294967296 0#8)).wellFormed = false := by
  simp only [Instr.wellFormed, List.length_replicate, operandBound]
  decide

theorem test_long_flen_payload_refused :
    (Instr.flenTxFrame (List.replicate 4294967296 0#8)).wellFormed = false := by
  simp only [Instr.wellFormed, List.length_replicate, operandBound]
  decide

theorem test_long_input_refused : (Instr.argUnpack [] (List.replicate 4294967296 0#8)).wellFormed = false := by
  simp only [Instr.wellFormed, List.length_replicate, operandBound]
  decide

theorem test_great_capacity_refused : (Instr.argPack [] .nil 4294967296).wellFormed = false := by decide

theorem test_greatest_capacity_well_formed : (Instr.argPack [] .nil 4294967295).wellFormed = true := by decide

/-! ### Decoding: the words of R72 and R81 -/

theorem test_decode_reset : decode (.op ⟨0x01#8, []⟩) = .ok .reset := by decide
theorem test_decode_hdlcTxFrame :
    decode (.op ⟨0x10#8, [.bytes [0x7E#8, 0x01#8]]⟩) = .ok (.hdlcTxFrame [0x7E#8, 0x01#8]) := by decide
theorem test_decode_hdlcTxBegin : decode (.op ⟨0x11#8, []⟩) = .ok .hdlcTxBegin := by decide
theorem test_decode_hdlcTxByte : decode (.op ⟨0x12#8, [.byte 0x7E#8]⟩) = .ok (.hdlcTxByte 0x7E#8) := by decide
theorem test_decode_hdlcTxEnd : decode (.op ⟨0x13#8, []⟩) = .ok .hdlcTxEnd := by decide
theorem test_decode_hdlcTxAbort : decode (.op ⟨0x14#8, []⟩) = .ok .hdlcTxAbort := by decide
theorem test_decode_hdlcRxByte : decode (.op ⟨0x18#8, [.byte 0x41#8]⟩) = .ok (.hdlcRxByte 0x41#8) := by decide
theorem test_decode_flenTxFrame :
    decode (.op ⟨0x20#8, [.bytes [0x02#8]]⟩) = .ok (.flenTxFrame [0x02#8]) := by decide
theorem test_decode_flenRxByte : decode (.op ⟨0x28#8, [.byte 0xDD#8]⟩) = .ok (.flenRxByte 0xDD#8) := by decide
theorem test_decode_flenRxAbort : decode (.op ⟨0x29#8, []⟩) = .ok .flenRxAbort := by decide
theorem test_decode_argPack :
    decode (.op ⟨0x30#8, [.desc [0x43#8], .vals (one (.u8 2)), .cap 1500]⟩) =
      .ok (.argPack [0x43#8] (one (.u8 2)) 1500) := rfl
theorem test_decode_argUnpack :
    decode (.op ⟨0x31#8, [.desc [0x43#8], .bytes [0x05#8]]⟩) = .ok (.argUnpack [0x43#8] [0x05#8]) := by decide
theorem test_decode_tagBool : decode (.tag 0x62#8) = .ok .tagBool := by decide
theorem test_decode_tagU8 : decode (.tag 0x43#8) = .ok .tagU8 := by decide
theorem test_decode_tagU16 : decode (.tag 0x53#8) = .ok .tagU16 := by decide
theorem test_decode_tagU32 : decode (.tag 0x4C#8) = .ok .tagU32 := by decide
theorem test_decode_tagI32 : decode (.tag 0x6C#8) = .ok .tagI32 := by decide
theorem test_decode_tagBlob : decode (.tag 0x64#8) = .ok .tagBlob := by decide
theorem test_decode_tagUtf8 : decode (.tag 0x55#8) = .ok .tagUtf8 := by decide
theorem test_decode_tagStructOpen : decode (.tag 0x28#8) = .ok .tagStructOpen := by decide
theorem test_decode_tagStructClose : decode (.tag 0x29#8) = .ok .tagStructClose := by decide
theorem test_decode_tagArray : decode (.tag 0x2A#8) = .ok .tagArray := by decide

/-- R73, R82, R72: unassigned opcodes (Z5), an illegal tag (Q1's `x`), and operands of the wrong kind. -/
theorem test_decode_rejects :
    decode (.op ⟨0x00#8, []⟩) = .error (.unassignedOpcode 0x00#8) ∧
    decode (.op ⟨0x02#8, []⟩) = .error (.unassignedOpcode 0x02#8) ∧
    decode (.op ⟨0xFF#8, [.byte 0#8]⟩) = .error (.unassignedOpcode 0xFF#8) ∧
    decode (.op ⟨0x62#8, []⟩) = .error (.unassignedOpcode 0x62#8) ∧
    decode (.op ⟨0x12#8, []⟩) = .error (.wrongOperands 0x12#8) ∧
    decode (.op ⟨0x10#8, [.byte 0#8]⟩) = .error (.wrongOperands 0x10#8) ∧
    decode (.tag 0x78#8) = .error (.illegalTag 0x78#8) ∧
    decode (.tag 0x01#8) = .error (.illegalTag 0x01#8) := by decide

/-- The host's reading of a table word: an operation, one with its byte operand, a tag, and no instruction. -/
theorem test_decodeTableWord :
    decodeTableWord 8 0x13 = some .hdlcTxEnd ∧ decodeTableWord 16 0x7E12 = some (.hdlcTxByte 0x7E#8) ∧
    decodeTableWord 8 0x28 = some (.flenRxByte 0x00#8) ∧ decodeTableWord 8 0x2A = some .tagArray ∧
    decodeTableWord 8 0x30 = some (.argPack [] .nil 0) ∧ decodeTableWord 8 0x78 = none := by decide

/-- A placed word runs: an operation, a scalar tag and `*` over its eight zero bytes (log 9). -/
theorem test_withFetchWord :
    (after (step (State.reset.withFetchWord 8 0x11))).map (·.hOut) = some [0x7E#8] ∧
    lastReply (step (State.reset.withFetchWord 8 0x4C)) = some (.unpacked .ok (one (.u32 0)) 4) ∧
    (lastReply (step (State.reset.withFetchWord 8 0x2A))).map Reply.st = some .ok := by decide

/-! ### Small steps of each operation -/

/-- K1 to K6: `FCS16`. -/
theorem test_fcs16 :
    fcs16 defaultConfig [] = 0x0000#16 ∧ fcs16 defaultConfig [0x00#8] = 0xF078#16 ∧
    fcs16 defaultConfig [0x01#8, 0x02#8] = 0x358D#16 ∧
    fcs16 defaultConfig [0x31#8, 0x32#8, 0x33#8, 0x34#8, 0x35#8, 0x36#8, 0x37#8, 0x38#8, 0x39#8] = 0x906E#16 := by
  decide

/-- Z2, Z3, Z4: RESET of an open frame, a pending escape and a partial header. -/
theorem test_reset :
    (after (exec .reset (txAt [0x01#8]))).map (fun t => (t.hOut, t.tx.state)) = some ([0x7D#8, 0x7E#8], .idle) ∧
    (after (exec .reset (rxAt .esc [0x05#8]))).map (fun t => (t.rx.state, t.rx.len, t.evq)) = some (.hunt, 0, []) ∧
    (after (exec .reset (flHdrAt [0x02#8]))).map (fun t => (t.fl.hcount, t.evq)) = some (0, []) := by decide

/-- H4, H8, H18: the encoded frames. -/
theorem test_hdlcTxFrame :
    (after (exec (.hdlcTxFrame [0x7E#8]) State.reset)).map (·.hOut) =
      some [0x7E#8, 0x7D#8, 0x5E#8, 0x81#8, 0x6A#8, 0x7E#8] ∧
    (after (exec (.hdlcTxFrame [0x7E#8, 0x7D#8, 0x11#8, 0x13#8]) State.reset)).map (·.hOut) =
      some [0x7E#8, 0x7D#8, 0x5E#8, 0x7D#8, 0x5D#8, 0x7D#8, 0x31#8, 0x7D#8, 0x33#8, 0x2D#8, 0xD9#8, 0x7E#8] ∧
    (after (exec (.hdlcTxFrame [0x0D#8, 0x39#8]) State.reset)).map (·.hOut) =
      some [0x7E#8, 0x0D#8, 0x39#8, 0x7D#8, 0x5D#8, 0x7D#8, 0x33#8, 0x7E#8] := by decide

/-- T6, T7: an open frame and a payload longer than `MAX_FRAME`. -/
theorem test_hdlcTxFrame_refused :
    lastReply (exec (.hdlcTxFrame [0x01#8]) (txAt [])) = some (.status .errInvalidState) ∧
    lastReply (exec (.hdlcTxFrame [0#8, 0#8, 0#8]) start) = some (.status .errNoBufs) := by decide

/-- T1, T5: HDLC_TX_BEGIN. -/
theorem test_hdlcTxBegin :
    (after (exec .hdlcTxBegin start)).map (fun t => (t.hOut, t.tx.state)) = some ([0x7E#8], .open) ∧
    lastReply (exec .hdlcTxBegin (txAt [])) = some (.status .errInvalidState) := by decide

/-- P4 steps 1 and 4, T8: HDLC_TX_BYTE. -/
theorem test_hdlcTxByte :
    lastReply (exec (.hdlcTxByte 0x01#8) start) = some (.status .errInvalidState) ∧
    (after (exec (.hdlcTxByte 0x7E#8) (txAt []))).map (fun t => (t.hOut, t.tx.count)) = some ([0x7D#8, 0x5E#8], 1) ∧
    lastReply (exec (.hdlcTxByte 0x00#8) (txAt [0#8, 0#8])) = some (.status .errNoBufs) := by decide

/-- T1, T4: HDLC_TX_END. -/
theorem test_hdlcTxEnd :
    (after (exec .hdlcTxEnd (txAt [0x01#8, 0x02#8]))).map (fun t => (t.hOut, t.tx.state)) =
      some ([0x8D#8, 0x35#8, 0x7E#8], .idle) ∧
    lastReply (exec .hdlcTxEnd start) = some (.status .errInvalidState) := by decide

/-- T9, T10: HDLC_TX_ABORT. -/
theorem test_hdlcTxAbort :
    (after (exec .hdlcTxAbort (txAt [0x01#8]))).map (fun t => (t.hOut, t.tx.state)) =
      some ([0x7D#8, 0x7E#8], .idle) ∧
    lastReply (exec .hdlcTxAbort start) = some (.status .errInvalidState) := by decide

/-- X1, X2, X3, X5: the closing flag after a good frame, one byte, a bad FCS and a pending escape. -/
theorem test_hdlcRxByte_flag :
    (after (exec (.hdlcRxByte 0x7E#8) (rxAt .data [0x01#8, 0x02#8, 0x8D#8, 0x35#8]))).map (·.evq) =
      some [.hdlcFrame [0x01#8, 0x02#8]] ∧
    (after (exec (.hdlcRxByte 0x7E#8) (rxAt .data [0x05#8]))).map (·.evq) = some [.hdlcDiscard .short] ∧
    (after (exec (.hdlcRxByte 0x7E#8) (rxAt .data [0x01#8, 0x02#8, 0x00#8, 0x00#8]))).map (·.evq) =
      some [.hdlcDiscard .fcsMismatch] ∧
    (after (exec (.hdlcRxByte 0x7E#8) (rxAt .esc []))).map (·.evq) = some [.hdlcDiscard .abort] := by decide

/-- X7, X8, X11: an escape octet after an escape octet, a raw XON, and a byte too many. -/
theorem test_hdlcRxByte_data :
    (after (exec (.hdlcRxByte 0x7D#8) (rxAt .esc []))).map (fun t => (t.rx.state, Buffer.readFrom t.rx.buf 0 t.rx.len)) =
      some (.data, [0x5D#8]) ∧
    (after (exec (.hdlcRxByte 0x11#8) (rxAt .data []))).map (fun t => Buffer.readFrom t.rx.buf 0 t.rx.len) =
      some [0x11#8] ∧
    (after (exec (.hdlcRxByte 0x00#8) (rxAt .data [0#8, 0#8, 0#8, 0#8]))).map (fun t => (t.evq, t.rx.state, t.rx.len)) =
      some ([.hdlcDiscard .overflow], .hunt, 0) := by decide

/-- F1, F2, F3: FLEN_TX_FRAME. -/
theorem test_flenTxFrame :
    (after (exec (.flenTxFrame [0x01#8, 0x02#8]) State.reset)).map (·.fOut) = some [0x02#8, 0x00#8, 0x01#8, 0x02#8] ∧
    (after (exec (.flenTxFrame []) State.reset)).map (·.fOut) = some [0x00#8, 0x00#8] ∧
    lastReply (exec (.flenTxFrame [0#8, 0#8, 0#8, 0#8]) start) = some (.status .errNoBufs) := by decide

/-- F6, F7, P5 step 4: the last header byte. -/
theorem test_flenRxByte_header :
    (after (exec (.flenRxByte 0x00#8) (flHdrAt [0x00#8]))).map (fun t => (t.evq, t.fl.state)) =
      some ([.flenFrame []], .hdr) ∧
    (after (exec (.flenRxByte 0x05#8) (flHdrAt [0xDD#8]))).map (fun t => (t.evq, t.fl.state, t.fl.len)) =
      some ([.flenDiscard .oversize], .skip, 1501) ∧
    (after (exec (.flenRxByte 0x00#8) (flHdrAt [0x03#8]))).map (fun t => (t.evq, t.fl.state, t.fl.len)) =
      some ([], .body, 3) := by decide

/-- F5, R145: the last body byte and the last skipped byte. -/
theorem test_flenRxByte_body :
    (after (exec (.flenRxByte 0x02#8) (flAt .body 2 1 [0x01#8]))).map (fun t => (t.evq, t.fl.state)) =
      some ([.flenFrame [0x01#8, 0x02#8]], .hdr) ∧
    (after (exec (.flenRxByte 0xAA#8) (flAt .skip 1501 1500 []))).map (fun t => (t.evq, t.fl.state)) =
      some ([], .hdr) := by decide

/-- F8 to F11: FLEN_RX_ABORT. -/
theorem test_flenRxAbort :
    (after (exec .flenRxAbort (flAt .skip 1501 2 []))).map (fun t => (t.evq, t.fl.state)) = some ([], .hdr) ∧
    (after (exec .flenRxAbort (flAt .body 5 1 [0xAA#8]))).map (·.evq) = some [.flenDiscard .abort] ∧
    (after (exec .flenRxAbort (flHdrAt [0x05#8]))).map (·.evq) = some [.flenDiscard .abort] ∧
    (after (exec .flenRxAbort (flHdrAt []))).map (·.evq) = some [] := by decide

/-- A15, A17 to A21: ARG_PACK. -/
theorem test_argPack :
    packReply defaultConfig [0x43#8, 0x28#8, 0x53#8, 0x55#8, 0x29#8, 0x2A#8]
        (.cons (.u8 7) (one (.array (.cons (.struct (.cons (.u16 0x0102) (one (.str [0x61#8]))))
          (one (.struct (.cons (.u16 3) (one (.str [])))))))))  8 =
      .packed .ok [0x07#8, 0x02#8, 0x01#8, 0x61#8, 0x00#8, 0x03#8, 0x00#8, 0x00#8] ∧
    packReply defaultConfig [0x43#8, 0x53#8] (.cons (.u8 5) (one (.u16 0x1234))) 2 = .packed .errNoBufs [] ∧
    packReply defaultConfig [0x43#8, 0x53#8] (.cons (.u8 5) (one (.u16 0x1234))) 3 =
      .packed .ok [0x05#8, 0x34#8, 0x12#8] ∧
    packReply defaultConfig [0x43#8, 0x53#8] (one (.u8 5)) 16 = .packed .errInvalidArgs [] ∧
    packReply defaultConfig [0x43#8] (one (.u8 256)) 0 = .packed .errInvalidArgs [] ∧
    packReply defaultConfig [0x43#8] (one (.u16 5)) 1 = .packed .errInvalidArgs [] := by decide

/-- V11, V14, V17, V18, V20, V23: ARG_UNPACK. -/
theorem test_argUnpack :
    unpackReply defaultConfig [0x53#8, 0x2A#8] [0x01#8, 0x00#8, 0x02#8] = .unpacked .errParse .nil 0 ∧
    unpackReply defaultConfig [0x43#8, 0x53#8] [0x01#8, 0x02#8, 0x00#8, 0x09#8, 0x09#8] =
      .unpacked .ok (.cons (.u8 1) (one (.u16 2))) 3 ∧
    unpackReply defaultConfig [0x28#8, 0x43#8, 0x53#8, 0x29#8, 0x43#8] [0x01#8, 0x02#8] =
      .unpacked .errParse .nil 0 ∧
    unpackReply defaultConfig [0x43#8, 0x28#8, 0x43#8, 0x53#8, 0x29#8] [0x01#8, 0x02#8, 0x03#8] =
      .unpacked .errParse (one (.u8 1)) 1 ∧
    unpackReply defaultConfig [0x43#8, 0x29#8] [0x01#8] = .unpacked .errBadDesc .nil 0 ∧
    unpackReply defaultConfig [0x28#8, 0x43#8, 0x29#8, 0x2A#8] [0x01#8, 0x02#8] =
      .unpacked .ok (one (.array (.cons (.struct (one (.u8 1))) (one (.struct (one (.u8 2))))))) 2 := by decide

/-- Q1 to Q11, Q13, Q14: `WF`. -/
theorem test_wfDesc :
    wfDesc defaultConfig [0x78#8] = false ∧ wfDesc defaultConfig [0x28#8, 0x43#8] = false ∧
    wfDesc defaultConfig [0x43#8, 0x29#8] = false ∧ wfDesc defaultConfig [0x2A#8] = false ∧
    wfDesc defaultConfig [0x43#8, 0x2A#8, 0x2A#8] = false ∧ wfDesc defaultConfig [0x28#8, 0x2A#8, 0x29#8] = false ∧
    wfDesc defaultConfig [0x43#8, 0x2A#8, 0x53#8] = false ∧
    wfDesc defaultConfig [0x28#8, 0x43#8, 0x2A#8, 0x29#8, 0x2A#8] = false ∧
    wfDesc defaultConfig [0x28#8, 0x29#8, 0x2A#8] = false ∧
    wfDesc defaultConfig (List.replicate 9 0x28#8 ++ [0x43#8] ++ List.replicate 9 0x29#8) = false ∧
    wfDesc defaultConfig (List.replicate 8 0x28#8 ++ [0x43#8] ++ List.replicate 8 0x29#8) = true ∧
    wfDesc defaultConfig [] = true ∧ wfDesc defaultConfig [0x28#8, 0x43#8, 0x2A#8, 0x29#8] = true ∧
    wfDesc defaultConfig [0x28#8, 0x43#8, 0x29#8, 0x2A#8] = true := by decide

/-! ### Small steps of each tag: one value unpacked, one packed -/

/-- V2, A1. -/
theorem test_tagBool :
    lastReply (exec .tagBool (walkAt [0x62#8] 0 (.unpack [0x7F#8] 0 .nil [] 0))) =
      some (.unpacked .ok (one (.bool true)) 1) ∧
    lastReply (exec .tagBool (walkAt [0x62#8] 0 (.pack (one (.bool true)) [] [] 1))) = some (.packed .ok [0x01#8]) := by
  decide

/-- V13's first item, A2. -/
theorem test_tagU8 :
    lastReply (exec .tagU8 (walkAt [0x43#8] 0 (.unpack [0x01#8, 0x02#8] 0 .nil [] 0))) =
      some (.unpacked .ok (one (.u8 1)) 1) ∧
    lastReply (exec .tagU8 (walkAt [0x43#8] 0 (.pack (one (.u8 0xAB)) [] [] 1))) = some (.packed .ok [0xAB#8]) := by
  decide

/-- V3, A3. -/
theorem test_tagU16 :
    lastReply (exec .tagU16 (walkAt [0x53#8] 0 (.unpack [0x34#8, 0x12#8] 0 .nil [] 0))) =
      some (.unpacked .ok (one (.u16 0x1234)) 2) ∧
    lastReply (exec .tagU16 (walkAt [0x53#8] 0 (.pack (one (.u16 0x1234)) [] [] 2))) =
      some (.packed .ok [0x34#8, 0x12#8]) := by decide

/-- A4, both ways. -/
theorem test_tagU32 :
    lastReply (exec .tagU32 (walkAt [0x4C#8] 0 (.unpack [0xEF#8, 0xBE#8, 0xAD#8, 0xDE#8] 0 .nil [] 0))) =
      some (.unpacked .ok (one (.u32 0xDEADBEEF)) 4) ∧
    lastReply (exec .tagU32 (walkAt [0x4C#8] 0 (.pack (one (.u32 0xDEADBEEF)) [] [] 4))) =
      some (.packed .ok [0xEF#8, 0xBE#8, 0xAD#8, 0xDE#8]) := by decide

/-- V5, A5. -/
theorem test_tagI32 :
    lastReply (exec .tagI32 (walkAt [0x6C#8] 0 (.unpack [0x00#8, 0x00#8, 0x00#8, 0x80#8] 0 .nil [] 0))) =
      some (.unpacked .ok (one (.i32 (-2147483648))) 4) ∧
    lastReply (exec .tagI32 (walkAt [0x6C#8] 0 (.pack (one (.i32 (-2))) [] [] 4))) =
      some (.packed .ok [0xFE#8, 0xFF#8, 0xFF#8, 0xFF#8]) := by decide

/-- V7, V6, A7. -/
theorem test_tagBlob :
    lastReply (exec .tagBlob (walkAt [0x64#8] 0 (.unpack [0x02#8, 0x00#8, 0x09#8, 0x08#8, 0x07#8] 0 .nil [] 0))) =
      some (.unpacked .ok (one (.blob [0x09#8, 0x08#8])) 4) ∧
    lastReply (exec .tagBlob (walkAt [0x64#8] 0 (.unpack [0x03#8, 0x00#8, 0x01#8, 0x02#8] 0 .nil [] 0))) =
      some (.unpacked .errParse .nil 0) ∧
    lastReply (exec .tagBlob (walkAt [0x64#8] 0 (.pack (one (.blob [0x01#8, 0x02#8, 0x03#8])) [] [] 5))) =
      some (.packed .ok [0x03#8, 0x00#8, 0x01#8, 0x02#8, 0x03#8]) := by decide

/-- V9, V8, A9, A22. -/
theorem test_tagUtf8 :
    lastReply (exec .tagUtf8 (walkAt [0x55#8] 0 (.unpack [0x68#8, 0x69#8, 0x00#8, 0x41#8] 0 .nil [] 0))) =
      some (.unpacked .ok (one (.str [0x68#8, 0x69#8])) 3) ∧
    lastReply (exec .tagUtf8 (walkAt [0x55#8] 0 (.unpack [0x68#8, 0x69#8] 0 .nil [] 0))) =
      some (.unpacked .errParse .nil 0) ∧
    lastReply (exec .tagUtf8 (walkAt [0x55#8] 0 (.pack (one (.str [0x68#8, 0x69#8])) [] [] 3))) =
      some (.packed .ok [0x68#8, 0x69#8, 0x00#8]) ∧
    lastReply (exec .tagUtf8 (walkAt [0x55#8] 0 (.pack (one (.str [0x61#8, 0x00#8, 0x62#8])) [] [] 16))) =
      some (.packed .errInvalidArgs []) := by decide

/-- R178: `(` of `(C)` enters the members; that of `(C)*` is left to the `*`. -/
theorem test_tagStructOpen :
    (after (exec .tagStructOpen (walkAt [0x28#8, 0x43#8, 0x29#8] 0 (.unpack [0x01#8] 0 .nil [] 0)))).map (·.walk) =
      some (some ⟨[0x28#8, 0x43#8, 0x29#8], 1, .unpack [0x01#8] 0 .nil [.nil] 0⟩) ∧
    (after (exec .tagStructOpen
        (walkAt [0x28#8, 0x43#8, 0x29#8, 0x2A#8] 0 (.unpack [0x01#8] 0 .nil [] 0)))).map (·.walk) =
      some (some ⟨[0x28#8, 0x43#8, 0x29#8, 0x2A#8], 3, .unpack [0x01#8] 0 .nil [] 0⟩) := by decide

/-- V24, A12: `)` of `()`. -/
theorem test_tagStructClose :
    lastReply (exec .tagStructClose (walkAt [0x28#8, 0x29#8] 1 (.unpack [] 0 .nil [.nil] 0))) =
      some (.unpacked .ok (one (.struct .nil)) 0) ∧
    lastReply (exec .tagStructClose (walkAt [0x28#8, 0x29#8] 1 (.pack .nil [.nil] [] 0))) =
      some (.packed .ok []) := by decide

/-- V10, V11, A13: `*` of `S*`. -/
theorem test_tagArray :
    lastReply (exec .tagArray (walkAt [0x53#8, 0x2A#8] 1 (.unpack [0x01#8, 0x00#8, 0x02#8, 0x00#8] 0 .nil [] 0))) =
      some (.unpacked .ok (one (.array (.cons (.u16 1) (one (.u16 2))))) 4) ∧
    lastReply (exec .tagArray (walkAt [0x53#8, 0x2A#8] 1 (.unpack [0x01#8, 0x00#8, 0x02#8] 0 .nil [] 0))) =
      some (.unpacked .errParse .nil 0) ∧
    lastReply (exec .tagArray
        (walkAt [0x53#8, 0x2A#8] 1 (.pack (one (.array (.cons (.u16 1) (one (.u16 2))))) [] [] 4))) =
      some (.packed .ok [0x01#8, 0x00#8, 0x02#8, 0x00#8]) := by decide

/-! ### Witnesses: for each statement with hypotheses, inputs that meet them, clause by clause -/

theorem small_legal : configLegal small = true := by decide
theorem small_standard : configStandard small := ⟨fun _ => Iff.rfl, rfl, by decide⟩

theorem witness_DecodeAndEncodeAgree :
    decode (.op ⟨0x12#8, [.byte 0xFF#8]⟩) = .ok (.hdlcTxByte 0xFF#8) ∧ decode (.tag 0x2A#8) = .ok .tagArray := by
  decide

/-- Z5: the unassigned opcodes 0x00, 0x02, 0x15, 0x32 and 0xFF. -/
theorem witness_UnassignedOpcodeChangesNothing :
    ∀ op ∈ [0x00#8, 0x02#8, 0x15#8, 0x32#8, 0xFF#8],
      configLegal (hostAt (.issue ⟨op, []⟩)).cfg = true ∧ (hostAt (.issue ⟨op, []⟩)).walk = none ∧
      (hostAt (.issue ⟨op, []⟩)).inbox = .issue ⟨op, []⟩ :: [] ∧
      op ∉ [0x01#8, 0x10#8, 0x11#8, 0x12#8, 0x13#8, 0x14#8, 0x18#8, 0x20#8, 0x28#8, 0x29#8, 0x30#8, 0x31#8] ∧
      lastReply (step (hostAt (.issue ⟨op, []⟩))) = some (.status .errUnknownOp) := by
  decide

theorem witness_StepRunsTheDecodedOperation :
    configLegal (hostAt (.issue ⟨0x12#8, [.byte 0x7E#8]⟩)).cfg = true ∧
    (hostAt (.issue ⟨0x12#8, [.byte 0x7E#8]⟩)).walk = none ∧
    (hostAt (.issue ⟨0x12#8, [.byte 0x7E#8]⟩)).inbox = .issue ⟨0x12#8, [.byte 0x7E#8]⟩ :: [] ∧
    decode (.op ⟨0x12#8, [.byte 0x7E#8]⟩) = .ok (.hdlcTxByte 0x7E#8) ∧
    (Instr.hdlcTxByte 0x7E#8).wellFormed = true := by decide

/-- The first and the last tag of `CS`. -/
theorem witness_StepRunsTheNextTag :
    configLegal (walkAt [0x43#8, 0x53#8] 0 (.unpack [] 0 .nil [] 0)).cfg = true ∧
    (walkAt [0x43#8, 0x53#8] 0 (.unpack [] 0 .nil [] 0)).walk = some ⟨[0x43#8, 0x53#8], 0, .unpack [] 0 .nil [] 0⟩ ∧
    ([0x43#8, 0x53#8] : List Byte)[0]? = some 0x43#8 ∧ decode (.tag 0x43#8) = .ok .tagU8 ∧
    ([0x43#8, 0x53#8] : List Byte)[1]? = some 0x53#8 ∧ decode (.tag 0x53#8) = .ok .tagU16 := by decide

/-- A configuration that breaks each of R8 (a) to (e) alone, and one at the bounds that breaks none. -/
theorem witness_IllegalConfigurationIsRefused :
    configLegal { small with hdlcXoff := 0x11#8 } = false ∧ configLegal { small with escXor := 0x03#8 } = false ∧
    configLegal { small with maxFrame := 0 } = false ∧ configLegal { small with flenMax := 65536 } = false ∧
    configLegal { small with argMaxDepth := 0 } = false ∧
    configLegal { small with maxFrame := 1, flenMax := 65535, argMaxDepth := 1 } = true := by decide

theorem witness_HostReadsRemoveOnlyHeads :
    configLegal start.cfg = true ∧ start.walk = none ∧ start.inbox = [] ∧
    (hostAt (.takeHOut 0)).inbox = .takeHOut 0 :: [] ∧ (hostAt (.takeFOut 1)).inbox = .takeFOut 1 :: [] ∧
    (hostAt (.takeEvents 2)).inbox = .takeEvents 2 :: [] := by decide

theorem witness_HdlcTxFrameEmitsTheEncodedFrame :
    (txAt []).tx.state = .open ∧ start.tx.state = .idle ∧ start.cfg.maxFrame < ([0#8, 0#8, 0#8] : List Byte).length ∧
    ([0#8, 0#8] : List Byte).length ≤ start.cfg.maxFrame := by decide

theorem witness_HdlcTxByteFeedsTheOpenFrame :
    start.tx.state = .idle ∧ (txAt [0#8, 0#8]).tx.state = .open ∧ (txAt [0#8, 0#8]).tx.count = small.maxFrame ∧
    (txAt [0#8]).tx.state = .open ∧ (txAt [0#8]).tx.count ≠ small.maxFrame := by decide

theorem witness_HdlcTxBeginOpensAFrame :
    start.tx.state = .idle ∧ (txAt [0x01#8]).tx.state = .open := by decide

theorem witness_HdlcTxEndClosesTheFrame :
    start.tx.state = .idle ∧ (txAt [0x01#8]).tx.state = .open := by decide

theorem witness_HdlcTxAbortAbandonsTheFrame :
    start.tx.state = .idle ∧ (txAt [0x01#8]).tx.state = .open := by decide

theorem witness_IncrementalFrameEqualsWholeFrame :
    start.tx.state = .idle ∧ ([0x7E#8, 0x01#8] : List Byte).length ≤ start.cfg.maxFrame := by decide

/-- The default parameters are those of the FCS statements. -/
theorem witness_FcsResidueIsTheGoodFcs :
    defaultConfig.fcsPoly = 0x8408#16 ∧ defaultConfig.fcsInit = 0xFFFF#16 ∧ defaultConfig.fcsXorout = 0xFFFF#16 := by
  decide

/-- The first bit of the payload `[01]`, and the last bit of its FCS. -/
theorem witness_FcsDetectsASingleFlippedBit :
    [0x01#8] ++ [lo8 (fcs16 small [0x01#8]), hi8 (fcs16 small [0x01#8])] = [] ++ 0x01#8 :: [0xF1#8, 0xE1#8] ∧
    [] ++ flipBit 0x01#8 0 :: [0xF1#8, 0xE1#8] = [0x00#8] ++ [0xF1#8, 0xE1#8] ∧
    [0x01#8] ++ [lo8 (fcs16 small [0x01#8]), hi8 (fcs16 small [0x01#8])] = [0x01#8, 0xF1#8] ++ 0xE1#8 :: [] ∧
    [0x01#8, 0xF1#8] ++ flipBit 0xE1#8 7 :: [] = [0x01#8] ++ [0xF1#8, 0x61#8] := by decide

theorem witness_HuntIgnoresAllButAFlag :
    start.rx.state = .hunt ∧ 0x7E#8 = start.cfg.hdlcFlag ∧ 0x7D#8 ≠ start.cfg.hdlcFlag := by decide

/-- Zero, one and two stored bytes, and a full buffer. -/
theorem witness_FlagClosesTheFrame :
    (rxAt .data []).rx.state = .data ∧ (rxAt .data []).rx.len = 0 ∧ (rxAt .data [0x05#8]).rx.len = 1 ∧
    2 ≤ (rxAt .data [0#8, 0#8]).rx.len ∧ (rxAt .data [0#8, 0#8]).rx.len ≤ small.hdlcRxCap ∧
    2 ≤ (rxAt .data [1#8, 2#8, 3#8, 4#8]).rx.len ∧ (rxAt .data [1#8, 2#8, 3#8, 4#8]).rx.len ≤ small.hdlcRxCap := by
  decide

theorem witness_EscapeStaysPendingUntilItsPartner :
    (rxAt .data [0x05#8]).rx.state = .data ∧ small.hdlcEsc ≠ small.hdlcFlag ∧ (rxAt .esc [0x05#8]).rx.state = .esc := by
  decide

/-- One free byte, and none; a raw XON is data. -/
theorem witness_DataByteIsStoredOrOverflows :
    0x11#8 ≠ small.hdlcFlag ∧ 0x11#8 ≠ small.hdlcEsc ∧
    (rxAt .data [1#8, 0#8, 3#8]).rx.state = .data ∧ Buffer.wf (rxAt .data [1#8, 0#8, 3#8]).rx.buf = true ∧
    (rxAt .data [1#8, 0#8, 3#8]).rx.len < small.hdlcRxCap ∧
    (rxAt .data [1#8, 0#8, 3#8, 4#8]).rx.state = .data ∧ Buffer.wf (rxAt .data [1#8, 0#8, 3#8, 4#8]).rx.buf = true ∧
    small.hdlcRxCap ≤ (rxAt .data [1#8, 0#8, 3#8, 4#8]).rx.len := by decide

/-- One free byte, and none; the escape octet is a partner like any other. -/
theorem witness_EscapedByteIsUnescaped :
    0x7D#8 ≠ small.hdlcFlag ∧ (rxAt .esc [1#8, 0#8, 3#8]).rx.state = .esc ∧
    Buffer.wf (rxAt .esc [1#8, 0#8, 3#8]).rx.buf = true ∧ (rxAt .esc [1#8, 0#8, 3#8]).rx.len < small.hdlcRxCap ∧
    (rxAt .esc [1#8, 0#8, 3#8, 4#8]).rx.state = .esc ∧ Buffer.wf (rxAt .esc [1#8, 0#8, 3#8, 4#8]).rx.buf = true ∧
    small.hdlcRxCap ≤ (rxAt .esc [1#8, 0#8, 3#8, 4#8]).rx.len := by decide

/-- The longest payload, at a decoder that hunts, one between frames, and one with a full buffer and a pending
escape. -/
theorem witness_HdlcRoundTrip :
    configLegal small = true ∧ configStandard small ∧ ([0x7E#8, 0x11#8] : List Byte).length ≤ small.maxFrame ∧
    (start.rx.state = .hunt ∧ start.rx.len ≤ small.hdlcRxCap ∧ Buffer.wf start.rx.buf = true) ∧
    ((rxAt .data []).rx.state = .data ∧ (rxAt .data []).rx.len = 0 ∧ Buffer.wf (rxAt .data []).rx.buf = true) ∧
    ((rxAt .esc [1#8, 2#8, 3#8, 4#8]).rx.len ≤ small.hdlcRxCap ∧
      Buffer.wf (rxAt .esc [1#8, 2#8, 3#8, 4#8]).rx.buf = true) :=
  ⟨small_legal, small_standard, by decide, by decide, by decide, by decide⟩

theorem witness_HdlcResynchronises :
    configLegal small = true ∧ configStandard small ∧ ([] : List Byte).length ≤ small.maxFrame ∧
    (rxAt .esc [1#8, 2#8, 3#8, 4#8]).rx.len ≤ small.hdlcRxCap ∧
    Buffer.wf (rxAt .esc [1#8, 2#8, 3#8, 4#8]).rx.buf = true :=
  ⟨small_legal, small_standard, by decide, by decide, by decide⟩

theorem witness_EncodedFrameHoldsNoFalseFlag : configLegal small = true ∧ configStandard small :=
  ⟨small_legal, small_standard⟩

/-- K1: the empty frame's body `00 00`, delivered at its closing flag. -/
theorem witness_DeliveredFramesAreExact :
    configLegal start.cfg = true ∧ Buffer.wf start.rx.buf = true ∧ start.cfg.hdlcFlag ∉ [0x00#8, 0x00#8] ∧
    ∃ t u, execAll (hdlcRxBytes (start.cfg.hdlcFlag :: [0x00#8, 0x00#8])) start = .next t ∧
      exec (.hdlcRxByte start.cfg.hdlcFlag) t = .next u ∧ u.evq = t.evq ++ [.hdlcFrame []] :=
  ⟨by decide, by decide, by decide, _, _, rfl, rfl, by decide⟩

/-- A lone payload byte, the last FCS byte, and the second byte of the pair of an escaped payload byte. -/
theorem witness_FlippedBitDiscardsOnlyItsFrame :
    configLegal start.cfg = true ∧ (∀ v, v ∈ start.cfg.escapeSet ↔ v ∈ reservedOctets start.cfg) ∧
    start.cfg.hdlcRxCap = start.cfg.maxFrame + 2 ∧ 1 ≤ start.cfg.flenLenBytes ∧
    ([0x01#8] : List Byte).length ≤ start.cfg.maxFrame ∧ ([] : List Byte).length ≤ start.cfg.maxFrame ∧
    start.cfg.fcsPoly = 0x8408#16 ∧ Buffer.wf start.rx.buf = true ∧ start.rx.state = .hunt ∧
    [0x01#8] ++ [lo8 (fcs16 small [0x01#8]), hi8 (fcs16 small [0x01#8])] = [] ++ 0x01#8 :: [0xF1#8, 0xE1#8] ∧
    (0x01#8 ∉ small.escapeSet ∧ [0x03#8] = [flipBit 0x01#8 1] ∧ flipBit 0x01#8 1 ≠ small.hdlcFlag ∧
      flipBit 0x01#8 1 ≠ small.hdlcEsc) ∧
    (0xE1#8 ∉ small.escapeSet ∧ [0x61#8] = [flipBit 0xE1#8 7] ∧ flipBit 0xE1#8 7 ≠ small.hdlcFlag ∧
      flipBit 0xE1#8 7 ≠ small.hdlcEsc) ∧
    [0x7E#8] ++ [lo8 (fcs16 small [0x7E#8]), hi8 (fcs16 small [0x7E#8])] = [] ++ 0x7E#8 :: [0x81#8, 0x6A#8] ∧
    (0x7E#8 ∈ small.escapeSet ∧ [0x7D#8, 0x5F#8] = [small.hdlcEsc, flipBit (0x7E#8 ^^^ small.escXor) 0] ∧
      flipBit (0x7E#8 ^^^ small.escXor) 0 ≠ small.hdlcFlag) := by decide

theorem witness_FlenTxFrameEmitsHeaderAndPayload :
    start.cfg.flenMax < ([0#8, 0#8, 0#8, 0#8] : List Byte).length ∧
    ([0#8, 0#8, 0#8] : List Byte).length ≤ start.cfg.flenMax := by decide

/-- A first header byte; a last one that makes the length 0, `FLEN_MAX`, and `FLEN_MAX` + 1. -/
theorem witness_FlenHeaderByteIsCollected :
    (flHdrAt []).fl.state = .hdr ∧ (flHdrAt []).fl.hcount + 1 < small.flenLenBytes ∧
    (flHdrAt [0x03#8]).fl.state = .hdr ∧ (flHdrAt [0x03#8]).fl.hcount < small.flenLenBytes ∧
    Buffer.wf (flHdrAt [0x03#8]).fl.hdr = true ∧ (flHdrAt [0x03#8]).fl.hcount + 1 = small.flenLenBytes ∧
    0 = fromLE (Buffer.readFrom (flHdrAt [0x00#8]).fl.hdr 0 1 ++ [0x00#8]) ∧
    small.flenMax = fromLE (Buffer.readFrom (flHdrAt [0x03#8]).fl.hdr 0 1 ++ [0x00#8]) ∧
    small.flenMax + 1 = fromLE (Buffer.readFrom (flHdrAt [0x04#8]).fl.hdr 0 1 ++ [0x00#8]) := by decide

/-- The last byte but one, and the last, of a body of `FLEN_MAX` bytes. -/
theorem witness_FlenBodyByteIsStored :
    (flAt .body 3 1 [1#8]).fl.state = .body ∧ (flAt .body 3 1 [1#8]).fl.count + 1 < (flAt .body 3 1 [1#8]).fl.len ∧
    (flAt .body 3 1 [1#8]).fl.len ≤ small.flenMax ∧ Buffer.wf (flAt .body 3 1 [1#8]).fl.buf = true ∧
    (flAt .body 3 2 [1#8, 2#8]).fl.count + 1 = (flAt .body 3 2 [1#8, 2#8]).fl.len ∧
    Buffer.wf (flAt .body 3 2 [1#8, 2#8]).fl.buf = true := by decide

theorem witness_FlenSkippedByteIsCounted :
    (flAt .skip 4 3 []).fl.state = .skip ∧ (flAt .skip 4 3 []).fl.count + 1 = (flAt .skip 4 3 []).fl.len ∧
    (flAt .skip 4 2 []).fl.count + 1 ≠ (flAt .skip 4 2 []).fl.len := by decide

theorem witness_FlenRxAbortDropsThePartialFrame :
    ((flHdrAt [1#8]).fl.state = .hdr ∧ 0 < (flHdrAt [1#8]).fl.hcount) ∧ (flAt .body 3 0 []).fl.state = .body ∧
    ((flHdrAt []).fl.state = .hdr ∧ (flHdrAt []).fl.hcount = 0) ∧ (flAt .skip 4 3 []).fl.state = .skip := by decide

theorem witness_FlenRoundTrip :
    configLegal start.cfg = true ∧ 1 ≤ start.cfg.flenLenBytes ∧
    ([1#8, 2#8, 3#8] : List Byte).length ≤ start.cfg.flenMax ∧ start.fl.state = .hdr ∧ start.fl.hcount = 0 ∧
    Buffer.wf start.fl.hdr = true ∧ Buffer.wf start.fl.buf = true := by decide

/-- The descriptor `(C*)` (Q13) passes every check, at the greatest depth a limit of 1 allows. -/
theorem passes_checks :
    PassesChecks { small with argMaxDepth := 1 } [0x28#8, 0x43#8, 0x2A#8, 0x29#8]
      [.structOpen, .scalar .u8, .array, .structClose] (.cons (.st (.cons (.ar (.sc .u8)) .nil)) .nil) where
  legal := by decide
  balance := by simpa using (balanced_iff 0 [.structOpen, .scalar .u8, .array, .structClose]).mp (by decide)
  depth := by
    simpa using (depthWithin_iff 1 0 [.structOpen, .scalar .u8, .array, .structClose] (by decide) (by decide)).mp
      (by decide)
  placed := by
    intro k hk
    simpa [endsElement] using
      (starsPlaced_iff false [.structOpen, .scalar .u8, .array, .structClose]).mp (by decide) k hk
  terminal := (arraysTerminal_iff _).mp (by decide)
  grammar := by decide
  progress := (arraysProgress_iff _ _).mp (by decide)

/-- Q13 is accepted; Q1, Q2, Q10's form, Q5, Q7 and Q9 fail one check each. Q1 meets the refusal's hypothesis. -/
theorem witness_IllFormedDescriptorIsRefused :
    (∃ c desc ts its, PassesChecks c desc ts its) ∧ (¬ ∃ ts its, PassesChecks small [0x78#8] ts its) ∧
    balanced 0 [.structOpen, .scalar .u8] = false ∧
    depthWithin 1 0 [.structOpen, .structOpen, .structClose, .structClose] = false ∧
    starsPlaced false [.scalar .u8, .array, .array] = false ∧
    arraysTerminal [.scalar .u8, .array, .scalar .u16] = false ∧
    parseDesc [.structOpen, .structClose, .array] = some (.cons (.ar (.st .nil)) .nil) ∧
    arraysProgress small (.cons (.ar (.st .nil)) .nil) = false := by
  refine ⟨⟨_, _, _, _, passes_checks⟩, ?_, by decide⟩
  rintro ⟨ts, its, h⟩
  have hn : tagsOf [0x78#8] = some ts := tagsOf_eq_some.mpr h.legal
  exact absurd hn (by rw [show tagsOf [0x78#8] = none by decide]; simp)

/-- A25, A19, A17, A18: no item list, no match, one byte too many, and exactly the capacity. -/
theorem witness_ArgPackReturnsTheBytes :
    wfItems small [0x78#8] = none ∧ wfItems small [0x43#8, 0x53#8] = some (.cons (.sc .u8) (.cons (.sc .u16) .nil)) ∧
    matchItems small (.cons (.sc .u8) (.cons (.sc .u16) .nil)) (one (.u8 5)) = false ∧
    matchItems small (.cons (.sc .u8) (.cons (.sc .u16) .nil)) (.cons (.u8 5) (one (.u16 0x1234))) = true ∧
    (encItems small (.cons (.sc .u8) (.cons (.sc .u16) .nil)) (.cons (.u8 5) (one (.u16 0x1234)))).length = 3 := by
  decide

/-- V20, V14, V18: no item list, every item, and an item that starves. -/
theorem witness_ArgUnpackReturnsTheValues :
    wfItems small [0x43#8, 0x29#8] = none ∧ wfItems small [0x43#8, 0x53#8] = some (.cons (.sc .u8) (.cons (.sc .u16) .nil)) ∧
    decItems small [1#8, 2#8, 0#8, 9#8] (.cons (.sc .u8) (.cons (.sc .u16) .nil)) 0 =
      some (.cons (.u8 1) (one (.u16 2)), 3) ∧
    Items.cons (.sc .u8) (.cons (.sc .u16) .nil) = Items.append (.cons (.sc .u8) .nil) (.cons (.sc .u16) .nil) ∧
    decItems small [1#8, 2#8] (.cons (.sc .u8) .nil) 0 = some (one (.u8 1), 1) ∧
    decItem small [1#8, 2#8] (.sc .u16) 1 = none := by decide

/-- A13: an array of two values, at exactly its length. -/
theorem witness_ArgRoundTrip :
    wfItems small [0x53#8, 0x2A#8] = some (.cons (.ar (.sc .u16)) .nil) ∧
    matchItems small (.cons (.ar (.sc .u16)) .nil) (one (.array (.cons (.u16 1) (one (.u16 2))))) = true ∧
    (encItems small (.cons (.ar (.sc .u16)) .nil) (one (.array (.cons (.u16 1) (one (.u16 2)))))).length ≤ 4 := by
  decide

theorem witness_TrailingBytesAreIgnored :
    0x2A#8 ∉ [0x43#8, 0x53#8] ∧
    unpackReply small [0x43#8, 0x53#8] [1#8, 2#8, 0#8] = .unpacked .ok (.cons (.u8 1) (one (.u16 2))) 3 := by decide

theorem witness_ArrayLoopTerminates :
    1 ≤ minWidth small (.sc .utf8) ∧ ([0x61#8, 0x00#8] : List Byte).length - 0 ≤ 7 ∧
    decItem small [0x61#8, 0x00#8] (.sc .utf8) 0 = some (.str [0x61#8], 2) := by decide

theorem witness_ScalarTagWireForms :
    ([0x68#8, 0x00#8, 0x41#8] : List Byte).drop 0 = [0x68#8] ++ 0x00#8 :: [0x41#8] ∧ 0x00#8 ∉ [0x68#8] ∧
    0x00#8 ∉ ([0x68#8, 0x00#8, 0x41#8] : List Byte).drop 2 ∧
    matchScalar defaultConfig .u8 (.u8 255) = true ∧ matchScalar defaultConfig .u8 (.u16 5) = false := by decide

/-- The last position, and the end, of a descriptor of two tags; a full capacity and one
byte too many; and V20's ill-formed descriptor. -/
theorem witness_WalkGoesOnOrEnds :
    (walkAt [0x43#8, 0x29#8] 0 (.unpack [] 0 .nil [] 0)).walk = some ⟨[0x43#8, 0x29#8], 0, .unpack [] 0 .nil [] 0⟩ ∧
    wfDesc defaultConfig [0x43#8, 0x29#8] = false ∧
    (1 < (⟨[0x43#8, 0x53#8], 0, .unpack [] 0 .nil [] 0⟩ : Walk).desc.length) ∧
    ((⟨[0x43#8, 0x53#8], 0, .unpack [] 0 .nil [] 0⟩ : Walk).desc.length ≤ 2) ∧
    (([1#8] : List Byte).length ≤ 1 ∧ 0 < ([1#8] : List Byte).length) := by decide

/-- `C` with one byte left, with none, and the `C` of `C*`. -/
theorem witness_ScalarTagUnpacksAtTheCursor :
    (walkAt [0x43#8] 0 (.unpack [5#8] 0 .nil [] 0)).walk = some ⟨[0x43#8], 0, .unpack [5#8] 0 .nil [] 0⟩ ∧
    wfDesc defaultConfig [0x43#8] = true ∧ ([0x43#8] : List Byte)[0 + 1]? ≠ some 0x2A#8 ∧
    unpackScalar defaultConfig .u8 [5#8] 0 = some (.u8 5, 1) ∧ unpackScalar defaultConfig .u8 [5#8] 1 = none ∧
    wfDesc defaultConfig [0x43#8, 0x2A#8] = true ∧ ([0x43#8, 0x2A#8] : List Byte)[0 + 1]? = some 0x2A#8 := by decide

/-- `C` with 255 and with 256 to pack (A20), and with no value, and the `C` of `C*`. -/
theorem witness_ScalarTagPacksTheNextValue :
    (walkAt [0x43#8] 0 (.pack (one (.u8 255)) [] [] 1)).walk = some ⟨[0x43#8], 0, .pack (one (.u8 255)) [] [] 1⟩ ∧
    wfDesc defaultConfig [0x43#8] = true ∧ ([0x43#8] : List Byte)[0 + 1]? ≠ some 0x2A#8 ∧
    matchScalar defaultConfig .u8 (.u8 255) = true ∧ matchScalar defaultConfig .u8 (.u8 256) = false ∧
    wfDesc defaultConfig [0x43#8, 0x2A#8] = true ∧ ([0x43#8, 0x2A#8] : List Byte)[0 + 1]? = some 0x2A#8 := by decide

/-- `()`, where the structure closes at once, and `(C)*`. -/
theorem witness_StructOpenEntersTheList :
    (∀ vs, Value.u8 1 ≠ .struct vs) ∧
    (walkAt [0x28#8, 0x29#8] 0 (.unpack [] 0 .nil [] 0)).walk = some ⟨[0x28#8, 0x29#8], 0, .unpack [] 0 .nil [] 0⟩ ∧
    wfDesc defaultConfig [0x28#8, 0x29#8] = true ∧
    matchingClose 0 (([0x28#8, 0x29#8] : List Byte).drop (0 + 1)) = some 0 ∧
    ([0x28#8, 0x29#8] : List Byte)[0 + 0 + 2]? ≠ some 0x2A#8 ∧
    (walkAt [0x28#8, 0x29#8] 0 (.pack (one (.struct .nil)) [] [] 0)).walk =
      some ⟨[0x28#8, 0x29#8], 0, .pack (.cons (.struct .nil) .nil) [] [] 0⟩ ∧
    wfDesc defaultConfig [0x28#8, 0x43#8, 0x29#8, 0x2A#8] = true ∧
    matchingClose 0 (([0x28#8, 0x43#8, 0x29#8, 0x2A#8] : List Byte).drop (0 + 1)) = some 1 ∧
    ([0x28#8, 0x43#8, 0x29#8, 0x2A#8] : List Byte)[0 + 1 + 2]? = some 0x2A#8 :=
  ⟨by simp, by decide⟩

theorem witness_StructCloseReturnsToTheList :
    wfDesc defaultConfig [0x28#8, 0x29#8] = true ∧
    (walkAt [0x28#8, 0x29#8] 1 (.unpack [] 0 .nil [.nil] 0)).walk =
      some ⟨[0x28#8, 0x29#8], 1, .unpack [] 0 .nil (.nil :: []) 0⟩ ∧
    (walkAt [0x28#8, 0x29#8] 1 (.pack .nil [.nil] [] 0)).walk =
      some ⟨[0x28#8, 0x29#8], 1, .pack .nil (.nil :: []) [] 0⟩ ∧
    (walkAt [0x28#8, 0x29#8] 1 (.pack (one (.u8 0)) [.nil] [] 0)).walk =
      some ⟨[0x28#8, 0x29#8], 1, .pack (.cons (.u8 0) .nil) (.nil :: []) [] 0⟩ := by decide

/-- `S*` over four bytes, over three, and at the end of the input; two values to pack. -/
theorem witness_ArrayTagTakesTheRest :
    wfDesc defaultConfig [0x53#8, 0x2A#8] = true ∧ elementBefore [0x53#8, 0x2A#8] 1 = some (.sc .u16) ∧
    arrayLoop (decItem defaultConfig [1#8, 0#8, 2#8, 0#8] (.sc .u16)) 4 (4 - 0) 0 =
      some (.cons (.u16 1) (one (.u16 2)), 4) ∧
    arrayLoop (decItem defaultConfig [1#8, 0#8, 2#8] (.sc .u16)) 3 (3 - 0) 0 = none ∧
    arrayLoop (decItem defaultConfig [] (.sc .u16)) 0 (0 - 0) 0 = some (.nil, 0) ∧
    allValues (matchItem defaultConfig (.sc .u16)) (.cons (.u16 1) (one (.u16 65535))) = true ∧
    matchItem defaultConfig (.ar (.sc .u16)) (.array (one (.u16 65536))) = false := by decide

theorem witness_TagWalkComputesArgUnpack :
    configLegal (walkAt [0x43#8] 0 (.unpack [5#8] 0 .nil [] 0)).cfg = true ∧
    (walkAt [0x43#8] 0 (.unpack [5#8] 0 .nil [] 0)).walk = some (unpackWalk [0x43#8] [5#8]) := by decide

theorem witness_TagWalkComputesArgPack :
    configLegal (walkAt [0x43#8] 0 (.pack (one (.u8 5)) [] [] 1)).cfg = true ∧
    (walkAt [0x43#8] 0 (.pack (one (.u8 5)) [] [] 1)).walk = some (packWalk [0x43#8] (one (.u8 5)) 1) := by decide

/-- A good state in the middle of everything: an open frame, a pending escape, a FLEN body, and a request. -/
def busy : State :=
  { start with
    tx := ⟨.open, fcsRun small small.fcsInit [0x01#8, 0x02#8], 2⟩
    rx := ⟨.esc, 4, stored 0 [1#8, 2#8, 3#8, 4#8]⟩
    fl := ⟨.body, 0, stored 0 [3#8, 0#8], 3, 2, stored 0 [1#8, 2#8]⟩
    evq := [.hdlcFrame [0x01#8, 0x02#8], .flenDiscard .oversize]
    inbox := [.issue ⟨0x18#8, [.byte 0x5E#8]⟩] }

theorem busy_ok : StateOk busy where
  legal := by decide
  standard := small_standard
  tx := ⟨by decide, fun _ => ⟨[0x01#8, 0x02#8], by decide, by decide⟩, by decide⟩
  rx := ⟨by decide, by decide⟩
  fl := ⟨by decide, by decide, by decide, by decide, by decide, by decide⟩
  buffers := ⟨by decide, by decide, by decide, by decide, by decide, by decide⟩
  events := by
    intro e he
    simp only [busy, List.mem_cons, List.not_mem_nil, or_false] at he
    rcases he with rfl | rfl
    · exact (by decide : ([0x01#8, 0x02#8] : List Byte).length ≤ small.maxFrame)
    · trivial
  noWalk := rfl

/-- The step of `busy` overflows the full buffer. -/
theorem witness_EveryStepKeepsAGoodState : StateOk busy ∧ ∃ t, step busy = .next t ∧ t.rx.state = .hunt :=
  ⟨busy_ok, _, rfl, rfl⟩

/-- A decoder in RX_DATA; one with a full buffer and the longest partial frame, which ends in an escape octet; and one
in RX_ESC with no byte, and with a full buffer. -/
theorem witness_AbortSequenceDiscardsAnOpenFrame :
    ((rxAt .data [0x05#8]).rx.state = .data ∧ small.hdlcEsc ≠ small.hdlcFlag) ∧
    (configLegal small = true ∧ configStandard small ∧ ([0x01#8, 0x7D#8] : List Byte).length ≤ small.maxFrame ∧
      (rxAt .data [1#8, 2#8, 3#8, 4#8]).rx.len ≤ small.hdlcRxCap) ∧
    ((rxAt .esc []).rx.state = .esc ∧ (rxAt .esc []).rx.len ≤ small.hdlcRxCap) ∧
    ((rxAt .esc [1#8, 2#8, 3#8, 4#8]).rx.state = .esc ∧ (rxAt .esc [1#8, 2#8, 3#8, 4#8]).rx.len ≤ small.hdlcRxCap) :=
  ⟨by decide, ⟨small_legal, small_standard, by decide, by decide⟩, by decide, by decide⟩

theorem witness_AbortDiscardsEvenAfterAPendingEscape : StateOk busy ∧ busy.rx.state = .esc := ⟨busy_ok, rfl⟩

/-- A reachable state one step from power-on. -/
theorem witness_NoReachableStateFaults : ∃ s, Reachable s ∧ s.hOut = [0x7E#8] :=
  ⟨_, .step _ _ (.start small [.issue ⟨0x11#8, []⟩] small_legal small_standard) rfl, rfl⟩

theorem witness_EveryOperationReturnsAStatusOfTheTable :
    isOperation .hdlcTxEnd ∧ ∃ t, exec .hdlcTxEnd start = .next t ∧ t.replies = [.status .errInvalidState] :=
  ⟨⟨_, rfl⟩, _, rfl, rfl⟩

/-- An error of each form of reply: a status, no bytes, no values, and the values before one that starves. -/
theorem witness_AnErrorChangesNothing :
    (isOperation .hdlcTxEnd ∧ lastReply (exec .hdlcTxEnd start) = some (.status .errInvalidState)) ∧
    (isOperation (.argPack [0x43#8] .nil 0) ∧
      lastReply (exec (.argPack [0x43#8] .nil 0) start) = some (.packed .errInvalidArgs [])) ∧
    (isOperation (.argUnpack [0x2A#8] []) ∧
      lastReply (exec (.argUnpack [0x2A#8] []) start) = some (.unpacked .errBadDesc .nil 0)) ∧
    lastReply (exec (.argUnpack [0x43#8, 0x43#8] [1#8]) start) = some (.unpacked .errParse (one (.u8 1)) 1) :=
  ⟨⟨⟨_, rfl⟩, by decide⟩, ⟨⟨_, rfl⟩, by decide⟩, ⟨⟨_, rfl⟩, by decide⟩, by decide⟩

/-- One instruction of each clause ends. -/
theorem witness_UnitsShareNoState :
    (∃ t, exec (.hdlcTxByte 0x01#8) (txAt []) = .next t) ∧ (∃ t, exec (.hdlcRxByte 0x7E#8) start = .next t) ∧
    (∃ t, exec (.flenTxFrame [0x01#8]) start = .next t) ∧ (∃ t, exec (.flenRxByte 0x01#8) start = .next t) ∧
    (∃ t, exec (.argUnpack [0x43#8] [0x01#8]) start = .next t) ∧
    (∃ t, exec (Instr.ofTag (.scalar .u8)) (walkAt [0x43#8] 0 (.unpack [5#8] 0 .nil [] 0)) = .next t) :=
  ⟨⟨_, rfl⟩, ⟨_, rfl⟩, ⟨_, rfl⟩, ⟨_, rfl⟩, ⟨_, rfl⟩, ⟨_, rfl⟩⟩

theorem witness_OutputsAreAppendOnly : ∃ t, exec .hdlcTxBegin start = .next t ∧ t.hOut = [0x7E#8] := ⟨_, rfl, rfl⟩

/-- No walk; one byte past the end of each buffer. -/
theorem witness_ModelStopsByName :
    start.walk = none ∧
    ((rxAt .data [1#8, 2#8, 3#8, 4#8, 5#8]).rx.state = .data ∧ 2 ≤ (rxAt .data [1#8, 2#8, 3#8, 4#8, 5#8]).rx.len ∧
      small.hdlcRxCap < (rxAt .data [1#8, 2#8, 3#8, 4#8, 5#8]).rx.len) ∧
    ((flHdrAt [1#8, 2#8]).fl.state = .hdr ∧ small.flenLenBytes ≤ (flHdrAt [1#8, 2#8]).fl.hcount) ∧
    ((flAt .body 9 3 []).fl.state = .body ∧ small.flenMax ≤ (flAt .body 9 3 []).fl.count) := by decide

end Sys2Proof.Tests
end

section
/-! PROOF. The step: what it runs and what it refuses (00_scope.md R6 and R8, 30_encoding.md R70). -/

namespace Sys2Proof.Machine

/-! ### The legality check in the words of R8 -/

theorem octetsDistinct_iff (c : Config) : octetsDistinct c = true ↔ (reservedOctets c).Nodup := by
  simp [octetsDistinct, reservedOctets, and_assoc]

theorem escapesUnreserved_iff (c : Config) :
    escapesUnreserved c = true ↔ ∀ v ∈ c.escapeSet, v ^^^ c.escXor ∉ c.escapeSet := by
  simp [escapesUnreserved]

/-- The check `configLegal` is the conjunction of R8 (a) to (e). -/
theorem configLegal_iff (c : Config) :
    configLegal c = true ↔
      (reservedOctets c).Nodup ∧ (∀ v ∈ c.escapeSet, v ^^^ c.escXor ∉ c.escapeSet) ∧ 1 ≤ c.maxFrame ∧
        c.flenMax ≤ 2 ^ (8 * c.flenLenBytes) - 1 ∧ 1 ≤ c.argMaxDepth := by
  simp only [configLegal, Bool.and_eq_true, decide_eq_true_eq, octetsDistinct_iff, escapesUnreserved_iff, and_assoc]

/-! ### What an instruction refuses -/

theorem replyStatus_ne_refused {s : State} {st : Status} {r : Refusal} : replyStatus s st ≠ .refused r := nofun

/-- The shape of most operations: a test that ends the operation with a status, and what follows it. -/
theorem guard_ne_refused {p : Prop} [Decidable p] {s : State} {st : Status} {x : StepResult} {r : Refusal}
    (hx : x ≠ .refused r) : (if p then replyStatus s st else x) ≠ .refused r := by
  split
  · exact replyStatus_ne_refused
  · exact hx

theorem execHdlcRxByte_ne_refused {b : Byte} {s : State} {r : Refusal} : execHdlcRxByte b s ≠ .refused r := by
  unfold execHdlcRxByte
  split
  · exact replyStatus_ne_refused
  · exact nofun

theorem execFlenRxByte_ne_refused {b : Byte} {s : State} {r : Refusal} : execFlenRxByte b s ≠ .refused r := by
  unfold execFlenRxByte
  split
  · exact replyStatus_ne_refused
  · exact nofun

/-- An operation ends with a status or faults; it is never refused (R220). -/
theorem exec_operation_ne_refused {i : Instr} (hi : isOperation i) (s : State) (r : Refusal) :
    exec i s ≠ .refused r := by
  cases i with
  | reset => exact replyStatus_ne_refused
  | hdlcTxFrame p => exact guard_ne_refused (guard_ne_refused replyStatus_ne_refused)
  | hdlcTxBegin => exact guard_ne_refused replyStatus_ne_refused
  | hdlcTxByte b => exact guard_ne_refused (guard_ne_refused replyStatus_ne_refused)
  | hdlcTxEnd => exact guard_ne_refused replyStatus_ne_refused
  | hdlcTxAbort => exact guard_ne_refused replyStatus_ne_refused
  | hdlcRxByte b => exact execHdlcRxByte_ne_refused
  | flenTxFrame p => exact guard_ne_refused replyStatus_ne_refused
  | flenRxByte b => exact execFlenRxByte_ne_refused
  | flenRxAbort => exact replyStatus_ne_refused
  | argPack desc vals cap => exact nofun
  | argUnpack desc input => exact nofun
  | tagBool | tagU8 | tagU16 | tagU32 | tagI32 | tagBlob | tagUtf8 | tagStructOpen | tagStructClose | tagArray =>
    obtain ⟨_, he⟩ := hi
    cases he

/-- What a tag does to the walk in progress (R171 to R180). -/
def tagAction : Tag → Walk → State → State
  | .scalar t => scalarTag t
  | .structOpen => structOpenTag
  | .structClose => structCloseTag
  | .array => arrayTag

theorem exec_ofTag (t : Tag) (s : State) : exec (Instr.ofTag t) s = onWalk (tagAction t) s := by
  cases t with
  | scalar u => cases u <;> rfl
  | structOpen => rfl
  | structClose => rfl
  | array => rfl

/-- A tag is refused only outside a walk (log 7). -/
theorem onWalk_refused {act : Walk → State → State} {s : State} {r : Refusal} (h : onWalk act s = .refused r) :
    s.walk = none ∧ r = .tagOutsideWalk := by
  unfold onWalk at h
  split at h
  · rename_i hw
    injection h with h
    exact ⟨hw, h.symm⟩
  · rcases ite_eq_cases h with ⟨_, h⟩ | ⟨_, h⟩ <;> cases h

theorem isOperation_or_eq_ofTag (i : Instr) : isOperation i ∨ ∃ t, i = Instr.ofTag t := by
  cases i with
  | tagBool => exact .inr ⟨.scalar .bool, rfl⟩
  | tagU8 => exact .inr ⟨.scalar .u8, rfl⟩
  | tagU16 => exact .inr ⟨.scalar .u16, rfl⟩
  | tagU32 => exact .inr ⟨.scalar .u32, rfl⟩
  | tagI32 => exact .inr ⟨.scalar .i32, rfl⟩
  | tagBlob => exact .inr ⟨.scalar .blob, rfl⟩
  | tagUtf8 => exact .inr ⟨.scalar .utf8, rfl⟩
  | tagStructOpen => exact .inr ⟨.structOpen, rfl⟩
  | tagStructClose => exact .inr ⟨.structClose, rfl⟩
  | tagArray => exact .inr ⟨.array, rfl⟩
  | _ => exact .inl ⟨_, rfl⟩

/-- The one refusal an instruction can give. -/
theorem exec_refused {i : Instr} {s : State} {r : Refusal} (h : exec i s = .refused r) :
    s.walk = none ∧ r = .tagOutsideWalk := by
  rcases isOperation_or_eq_ofTag i with hi | ⟨t, rfl⟩
  · exact absurd h (exec_operation_ne_refused hi s r)
  · exact onWalk_refused (exec_ofTag t s ▸ h)

/-! ### The request at the head of the inbox -/

theorem fetchAction_issue {s : State} {q : Request} {rest : List HostAction} (h : s.inbox = .issue q :: rest) :
    fetchAction s = fetchRequest q (s.setInbox rest) := by
  simp [fetchAction, h]

theorem fetchRequest_run {q : Request} {i : Instr} (s : State) (hd : decode (.op q) = .ok i)
    (hwf : i.wellFormed = true) : fetchRequest q s = .run i s := by
  simp [fetchRequest, hd, hwf]

/-! ### What the fetch refuses -/

theorem fetchTag_ne_refuse (w : Walk) (s : State) (r : Refusal) : fetchTag w s ≠ .refuse r := by
  unfold fetchTag
  split
  · exact nofun
  · split <;> exact nofun

/-- A request is refused only for its operands: their kinds, or their ranges (log 5). -/
theorem fetchRequest_refuse {q : Request} {s : State} {r : Refusal} (h : fetchRequest q s = .refuse r) :
    r = .operandRange ∨ ∃ op, r = .wrongOperands op := by
  unfold fetchRequest at h
  split at h
  · rcases ite_eq_cases h with ⟨_, h⟩ | ⟨_, h⟩
    · cases h
    · injection h with h
      exact .inl h.symm
  · cases h
  · injection h with h
    exact .inr ⟨_, h.symm⟩
  · injection h with h
    exact .inr ⟨_, h.symm⟩

/-- Of the host's actions only a request can be refused. -/
theorem fetchAction_refuse {s : State} {r : Refusal} (h : fetchAction s = .refuse r) :
    r = .operandRange ∨ ∃ op, r = .wrongOperands op := by
  rcases hin : s.inbox with _ | ⟨a, rest⟩
  · simp [fetchAction, hin] at h
  · cases a with
    | issue q => exact fetchRequest_refuse (fetchAction_issue hin ▸ h)
    | takeHOut n | takeFOut n | takeEvents n => simp [fetchAction, hin] at h

theorem fetch_illegal {s : State} (hc : ¬ configLegal s.cfg = true) : fetch s = .refuse .illegalConfiguration :=
  if_neg hc

/-- Once the configuration is legal, the fetch refuses only a request's operands. -/
theorem fetch_legal_refuse {s : State} {r : Refusal} (hc : configLegal s.cfg = true) (h : fetch s = .refuse r) :
    r = .operandRange ∨ ∃ op, r = .wrongOperands op := by
  cases hw : s.walk with
  | none => exact fetchAction_refuse (fetch_action hc hw ▸ h)
  | some w =>
    rw [fetch, if_pos hc, hw] at h
    exact absurd h (fetchTag_ne_refuse w s r)

/-! ### The step by what it fetched -/

theorem step_of_fetch_run {s t : State} {i : Instr} (h : fetch s = .run i t) : step s = exec i t := by
  simp [step, h]

theorem step_of_fetch_refuse {s : State} {r : Refusal} (h : fetch s = .refuse r) : step s = .refused r := by
  simp [step, h]

/-- Everything that can refuse a step: the fetch, or the instruction it fetched. -/
theorem step_refused {s : State} {r : Refusal} (h : step s = .refused r) :
    fetch s = .refuse r ∨ ∃ i t, fetch s = .run i t ∧ exec i t = .refused r := by
  unfold step at h
  cases hf : fetch s with
  | idle => rw [hf] at h; cases h
  | run i t =>
    rw [hf] at h
    exact .inr ⟨i, t, rfl, h⟩
  | unknown t => rw [hf] at h; cases h
  | done t => rw [hf] at h; cases h
  | refuse q =>
    rw [hf] at h
    injection h with h
    exact .inl (by rw [h])

/-- A step refuses the configuration exactly when the check of R8 fails: nothing else a step does gives that reason. -/
theorem step_illegalConfiguration_iff (s : State) :
    step s = .refused .illegalConfiguration ↔ ¬ configLegal s.cfg = true := by
  constructor
  · intro h hc
    rcases step_refused h with hf | ⟨i, t, -, he⟩
    · rcases fetch_legal_refuse hc hf with hr | ⟨_, hr⟩ <;> cases hr
    · obtain ⟨-, hr⟩ := exec_refused he
      cases hr
  · exact fun hc => step_of_fetch_refuse (fetch_illegal hc)

/-! ### The statements -/

/-- Settles O6: the check is R8's conjunction, and no fetch under a legal configuration and no instruction gives the
refusal `illegalConfiguration`. -/
theorem illegalConfigurationIsRefused : Obligations.IllegalConfigurationIsRefused := fun s =>
  (step_illegalConfiguration_iff s).trans (configLegal_iff s.cfg).not

/-- Settles O4: the fetch takes the request out of the inbox and hands its instruction to `exec`. -/
theorem stepRunsTheDecodedOperation : Obligations.StepRunsTheDecodedOperation := by
  intro s q rest i hc hw hin hd hwf
  have hfetch : fetch s = .run i (s.setInbox rest) :=
    calc fetch s = fetchAction s := fetch_action hc hw
      _ = fetchRequest q (s.setInbox rest) := fetchAction_issue hin
      _ = .run i (s.setInbox rest) := fetchRequest_run _ hd hwf
  exact step_of_fetch_run hfetch

end Sys2Proof.Machine
end

section
/-! PROOF. What each operation can do when it ends (30_encoding.md R72): its guards, the writes that follow, and the
reply. For the units' decoders: which fields a byte writes. -/

namespace Sys2Proof.Machine

theorem replyStatus_next {s t : State} {st : Status} (h : replyStatus s st = .next t) :
    t = s.respond (.status st) := by
  injection h with h
  exact h.symm

theorem TxState.ne_open_iff {st : TxState} : st ≠ .open ↔ st = .idle := by cases st <;> decide

theorem TxState.ne_idle_iff {st : TxState} : st ≠ .idle ↔ st = .open := by cases st <;> decide

/-! ### The encoder (R112 to R116) -/

theorem execHdlcTxFrame_next {p : List Byte} {s t : State} (h : execHdlcTxFrame p s = .next t) :
    (s.tx.state = .open ∧ t = s.respond (.status .errInvalidState)) ∨
      (s.tx.state = .idle ∧ s.cfg.maxFrame < p.length ∧ t = s.respond (.status .errNoBufs)) ∨
      (s.tx.state = .idle ∧ p.length ≤ s.cfg.maxFrame ∧
        t = (s.emitH (hdlcEncode s.cfg p)).respond (.status .ok)) := by
  rcases ite_eq_cases h with ⟨hopen, h⟩ | ⟨hnot, h⟩
  · exact .inl ⟨hopen, replyStatus_next h⟩
  · have hidle := TxState.ne_open_iff.mp hnot
    rcases ite_eq_cases h with ⟨hlen, h⟩ | ⟨hlen, h⟩
    · exact .inr (.inl ⟨hidle, hlen, replyStatus_next h⟩)
    · exact .inr (.inr ⟨hidle, Nat.le_of_not_lt hlen, replyStatus_next h⟩)

theorem execHdlcTxBegin_next {s t : State} (h : execHdlcTxBegin s = .next t) :
    (s.tx.state = .open ∧ t = s.respond (.status .errInvalidState)) ∨
      (s.tx.state = .idle ∧
        t = ((s.emitH [s.cfg.hdlcFlag]).setTx ⟨.open, s.cfg.fcsInit, 0⟩).respond (.status .ok)) := by
  rcases ite_eq_cases h with ⟨hopen, h⟩ | ⟨hidle, h⟩
  · exact .inl ⟨hopen, replyStatus_next h⟩
  · exact .inr ⟨TxState.ne_open_iff.mp hidle, replyStatus_next h⟩

theorem execHdlcTxByte_next {b : Byte} {s t : State} (h : execHdlcTxByte b s = .next t) :
    (s.tx.state = .idle ∧ t = s.respond (.status .errInvalidState)) ∨
      (s.tx.state = .open ∧ s.tx.count = s.cfg.maxFrame ∧ t = s.respond (.status .errNoBufs)) ∨
      (s.tx.state = .open ∧ s.tx.count ≠ s.cfg.maxFrame ∧
        t = ((s.emitH (escByte s.cfg b)).setTx ⟨s.tx.state, fcsStep s.cfg s.tx.fcs b, s.tx.count + 1⟩).respond
          (.status .ok)) := by
  rcases ite_eq_cases h with ⟨hidle, h⟩ | ⟨hnot, h⟩
  · exact .inl ⟨hidle, replyStatus_next h⟩
  · have hopen := TxState.ne_idle_iff.mp hnot
    rcases ite_eq_cases h with ⟨hfull, h⟩ | ⟨hroom, h⟩
    · exact .inr (.inl ⟨hopen, hfull, replyStatus_next h⟩)
    · exact .inr (.inr ⟨hopen, hroom, replyStatus_next h⟩)

theorem execHdlcTxEnd_next {s t : State} (h : execHdlcTxEnd s = .next t) :
    (s.tx.state = .idle ∧ t = s.respond (.status .errInvalidState)) ∨
      (s.tx.state = .open ∧
        t = ((s.emitH (escByte s.cfg (lo8 (s.tx.fcs ^^^ s.cfg.fcsXorout)) ++
          escByte s.cfg (hi8 (s.tx.fcs ^^^ s.cfg.fcsXorout)) ++ [s.cfg.hdlcFlag])).setTx (txIdle s.cfg)).respond
          (.status .ok)) := by
  rcases ite_eq_cases h with ⟨hidle, h⟩ | ⟨hopen, h⟩
  · exact .inl ⟨hidle, replyStatus_next h⟩
  · exact .inr ⟨TxState.ne_idle_iff.mp hopen, replyStatus_next h⟩

theorem execHdlcTxAbort_next {s t : State} (h : execHdlcTxAbort s = .next t) :
    (s.tx.state = .idle ∧ t = s.respond (.status .errInvalidState)) ∨
      (s.tx.state = .open ∧ t = ((s.emitH (abortBytes s.cfg)).setTx (txIdle s.cfg)).respond (.status .ok)) := by
  rcases ite_eq_cases h with ⟨hidle, h⟩ | ⟨hopen, h⟩
  · exact .inl ⟨hidle, replyStatus_next h⟩
  · exact .inr ⟨TxState.ne_idle_iff.mp hopen, replyStatus_next h⟩

/-! ### FLEN, RESET and the ARG operations (R140, R147, R186, R187, R251) -/

theorem execFlenTxFrame_next {p : List Byte} {s t : State} (h : execFlenTxFrame p s = .next t) :
    (s.cfg.flenMax < p.length ∧ t = s.respond (.status .errNoBufs)) ∨
      (p.length ≤ s.cfg.flenMax ∧ t = (s.emitF (flenEncode s.cfg p)).respond (.status .ok)) := by
  rcases ite_eq_cases h with ⟨hlen, h⟩ | ⟨hlen, h⟩
  · exact .inl ⟨hlen, replyStatus_next h⟩
  · exact .inr ⟨Nat.le_of_not_lt hlen, replyStatus_next h⟩

theorem execFlenRxAbort_next {s t : State} (h : execFlenRxAbort s = .next t) :
    (flenPartial s.fl = true ∧
        t = ((s.post (.flenDiscard .abort)).setFl (flIdle s.fl)).respond (.status .ok)) ∨
      (flenPartial s.fl = false ∧ t = (s.setFl (flIdle s.fl)).respond (.status .ok)) := by
  obtain rfl := replyStatus_next h
  cases hp : flenPartial s.fl with
  | true => exact .inl ⟨rfl, rfl⟩
  | false => exact .inr ⟨rfl, rfl⟩

/-- What RESET sends before the units become idle (R252). -/
def resetBytes (s : State) : List Byte := if s.tx.state = .open then abortBytes s.cfg else []

theorem execReset_next {s t : State} (h : execReset s = .next t) :
    t = ((((s.emitH (resetBytes s)).setTx (txIdle s.cfg)).setRx ⟨.hunt, 0, s.rx.buf⟩).setFl (flIdle s.fl)).respond
      (.status .ok) := by
  obtain rfl := replyStatus_next h
  unfold resetBytes
  split
  · rfl
  · simp [State.emitH]

theorem execArgPack_next {desc : List Byte} {vals : Values} {cap : Nat} {s t : State}
    (h : execArgPack desc vals cap s = .next t) : t = s.respond (packReply s.cfg desc vals cap) := by
  injection h with h
  exact h.symm

theorem execArgUnpack_next {desc input : List Byte} {s t : State} (h : execArgUnpack desc input s = .next t) :
    t = s.respond (unpackReply s.cfg desc input) := by
  injection h with h
  exact h.symm

/-! ### The fields a received byte writes (R120, R141, R229) -/

/-- `Append` writes the HDLC decoder and posts at most one event. -/
theorem rxAppend_writes (v : Byte) (s : State) :
    ∃ u, rxAppend v s = s.setRx u ∨ ∃ e, rxAppend v s = (s.post e).setRx u := by
  rcases rxAppend_spec v s with ⟨-, h⟩ | ⟨-, h⟩
  · exact ⟨_, .inl h⟩
  · exact ⟨_, .inr ⟨_, h⟩⟩

/-- A byte to the HDLC decoder writes that decoder and posts at most one event. -/
theorem rxByte_writes {b : Byte} {s t : State} (h : rxByte b s = some t) :
    ∃ u, t = s.setRx u ∨ ∃ e, t = (s.post e).setRx u := by
  rcases rxByte_spec h with ⟨-, -, ht⟩ | ⟨-, -, ht⟩ | ⟨-, -, hclose⟩ | ⟨-, -, -, ht⟩ | ⟨-, -, -, rfl⟩ |
    ⟨-, -, ht⟩ | ⟨-, -, rfl⟩
  · exact ⟨_, .inl ht⟩
  · exact ⟨s.rx, .inl ht⟩
  · rcases rxClose_spec hclose with ⟨-, ht⟩ | ⟨-, ht⟩ | ⟨-, -, ht⟩
    · exact ⟨_, .inl ht⟩
    · exact ⟨_, .inr ⟨_, ht⟩⟩
    · exact ⟨_, .inr ⟨_, ht⟩⟩
  · exact ⟨_, .inl ht⟩
  · exact rxAppend_writes _ s
  · exact ⟨_, .inr ⟨_, ht⟩⟩
  · exact rxAppend_writes _ s

/-- Everything a complete header can do (R143). -/
theorem flenHeaderComplete_spec (hdr : Buffer) (len : Nat) (s : State) :
    (len = 0 ∧ flenHeaderComplete hdr len s =
        (s.post (.flenFrame [])).setFl ⟨s.fl.state, 0, hdr, s.fl.len, s.fl.count, s.fl.buf⟩) ∨
      (s.cfg.flenMax < len ∧ flenHeaderComplete hdr len s =
        (s.post (.flenDiscard .oversize)).setFl ⟨.skip, 0, hdr, len, 0, s.fl.buf⟩) ∨
      (1 ≤ len ∧ len ≤ s.cfg.flenMax ∧ flenHeaderComplete hdr len s =
        s.setFl ⟨.body, 0, hdr, len, 0, s.fl.buf⟩) := by
  unfold flenHeaderComplete
  split
  · exact .inl ⟨‹_›, rfl⟩
  · split
    · exact .inr (.inl ⟨‹_›, rfl⟩)
    · exact .inr (.inr ⟨by omega, by omega, rfl⟩)

/-- Everything a skipped byte can do (R145). -/
theorem flenSkipByte_spec (s : State) :
    (s.fl.count + 1 = s.fl.len ∧
        flenSkipByte s = s.setFl ⟨.hdr, s.fl.hcount, s.fl.hdr, s.fl.len, 0, s.fl.buf⟩) ∨
      (s.fl.count + 1 ≠ s.fl.len ∧
        flenSkipByte s = s.setFl ⟨s.fl.state, s.fl.hcount, s.fl.hdr, s.fl.len, s.fl.count + 1, s.fl.buf⟩) := by
  unfold flenSkipByte
  split
  · exact .inl ⟨‹_›, rfl⟩
  · exact .inr ⟨‹_›, rfl⟩

/-- A header byte writes the FLEN decoder and posts at most one event, whatever its buffers hold. -/
theorem flenHdrByte_writes {b : Byte} {s t : State} (h : flenHdrByte b s = some t) :
    ∃ u, t = s.setFl u ∨ ∃ e, t = (s.post e).setFl u := by
  unfold flenHdrByte at h
  split at h
  · cases h
  · rename_i hdr _
    split at h
    · split at h
      · cases h
      · rename_i bytes _
        obtain rfl := Option.some.inj h
        rcases flenHeaderComplete_spec hdr (fromLE bytes) s with ⟨-, ht⟩ | ⟨-, ht⟩ | ⟨-, -, ht⟩
        · exact ⟨_, .inr ⟨_, ht⟩⟩
        · exact ⟨_, .inr ⟨_, ht⟩⟩
        · exact ⟨_, .inl ht⟩
    · exact ⟨_, .inl (Option.some.inj h).symm⟩

/-- A body byte writes the FLEN decoder and posts at most one event, whatever its buffers hold. -/
theorem flenBodyByte_writes {b : Byte} {s t : State} (h : flenBodyByte b s = some t) :
    ∃ u, t = s.setFl u ∨ ∃ e, t = (s.post e).setFl u := by
  unfold flenBodyByte at h
  split at h
  · cases h
  · split at h
    · split at h
      · cases h
      · exact ⟨_, .inr ⟨_, (Option.some.inj h).symm⟩⟩
    · exact ⟨_, .inl (Option.some.inj h).symm⟩

/-- Everything a FLEN byte can do (R141): the row of the table that `fl.state` selects. -/
theorem flenByte_spec {b : Byte} {s t : State} (h : flenByte b s = some t) :
    (s.fl.state = .hdr ∧ flenHdrByte b s = some t) ∨ (s.fl.state = .body ∧ flenBodyByte b s = some t) ∨
      (s.fl.state = .skip ∧ t = flenSkipByte s) := by
  unfold flenByte at h
  split at h
  · exact .inl ⟨‹_›, h⟩
  · exact .inr (.inl ⟨‹_›, h⟩)
  · exact .inr (.inr ⟨‹_›, (Option.some.inj h).symm⟩)

/-- A byte to the FLEN decoder writes that decoder and posts at most one event. -/
theorem flenByte_writes {b : Byte} {s t : State} (h : flenByte b s = some t) :
    ∃ u, t = s.setFl u ∨ ∃ e, t = (s.post e).setFl u := by
  rcases flenByte_spec h with ⟨-, hh⟩ | ⟨-, hb⟩ | ⟨-, rfl⟩
  · exact flenHdrByte_writes hh
  · exact flenBodyByte_writes hb
  · rcases flenSkipByte_spec s with ⟨-, ht⟩ | ⟨-, ht⟩
    · exact ⟨_, .inl ht⟩
    · exact ⟨_, .inl ht⟩

/-! ### The fields a tag writes (R182) -/

/-- From `s` to `t` the walk goes on, or it ends with one reply; nothing else changes. -/
def WalkMoves (s t : State) : Prop := (∃ w, t = s.setWalk (some w)) ∨ ∃ r, t = walkClose s r

theorem walkClose_moves (s : State) (r : Reply) : WalkMoves s (walkClose s r) := .inr ⟨r, rfl⟩

theorem walkTo_moves (s : State) (w : Walk) (pos : Nat) (job : Job) : WalkMoves s (walkTo s w pos job) := by
  rcases walkTo_spec s w pos job with ⟨-, h⟩ | ⟨-, h⟩
  · exact .inl ⟨_, h⟩
  · exact .inr ⟨_, h⟩

theorem scalarTag_moves (t : ScalarTag) (w : Walk) (s : State) : WalkMoves s (scalarTag t w s) := by
  unfold scalarTag
  split
  · exact walkTo_moves ..
  · split
    · exact walkClose_moves ..
    · split
      · exact walkTo_moves ..
      · exact walkClose_moves ..
    · split
      · exact walkClose_moves ..
      · exact walkTo_moves ..

theorem structOpenTag_moves (w : Walk) (s : State) : WalkMoves s (structOpenTag w s) := by
  unfold structOpenTag
  split
  · exact walkClose_moves ..
  · split
    · exact walkTo_moves ..
    · split
      · exact walkTo_moves ..
      · exact walkClose_moves ..
      · exact walkTo_moves ..

theorem structCloseTag_moves (w : Walk) (s : State) : WalkMoves s (structCloseTag w s) := by
  unfold structCloseTag
  split
  · exact walkTo_moves ..
  · exact walkClose_moves ..
  · exact walkTo_moves ..
  · exact walkClose_moves ..
  · exact walkClose_moves ..

theorem arrayTag_moves (w : Walk) (s : State) : WalkMoves s (arrayTag w s) := by
  unfold arrayTag
  split
  · exact walkClose_moves ..
  · split
    · exact walkClose_moves ..
    · split
      · exact walkTo_moves ..
      · exact walkClose_moves ..
    · split
      · exact walkClose_moves ..
      · exact walkTo_moves ..

theorem tagAction_moves (t : Tag) (w : Walk) (s : State) : WalkMoves s (tagAction t w s) := by
  cases t with
  | scalar u => exact scalarTag_moves u w s
  | structOpen => exact structOpenTag_moves w s
  | structClose => exact structCloseTag_moves w s
  | array => exact arrayTag_moves w s

/-- A tag that ends in a next state moves the walk and writes nothing else. -/
theorem exec_ofTag_moves {g : Tag} {s t : State} (h : exec (Instr.ofTag g) s = .next t) :
    s.walk ≠ none ∧ WalkMoves s t := by
  rw [exec_ofTag] at h
  obtain ⟨w, hw, ⟨-, rfl⟩ | ⟨-, rfl⟩⟩ := onWalk_next h
  · exact ⟨by simp [hw], tagAction_moves g w s⟩
  · exact ⟨by simp [hw], walkClose_moves ..⟩

end Sys2Proof.Machine
end

section
/-! PROOF. What an instruction never does to the outputs and the parameters (10_state.md R35 to R37 and R43,
60_exceptions.md R229). -/

namespace Sys2Proof.Machine

/-- `t` extends `s`: the outputs of `s` are prefixes of those of `t`, with at most one event more, and the parameters
and the inbox are the same. -/
structure Extends (s t : State) : Prop where
  hOut : s.hOut <+: t.hOut
  fOut : s.fOut <+: t.fOut
  replies : s.replies <+: t.replies
  evq : t.evq = s.evq ∨ ∃ e, t.evq = s.evq ++ [e]
  cfg : t.cfg = s.cfg
  inbox : t.inbox = s.inbox

/-! ### One rule for each write -/

theorem Extends.refl (s : State) : Extends s s :=
  ⟨List.prefix_rfl, List.prefix_rfl, List.prefix_rfl, .inl rfl, rfl, rfl⟩

theorem Extends.emitH {s t : State} (h : Extends s t) (bytes : List Byte) : Extends s (t.emitH bytes) :=
  ⟨h.hOut.trans (List.prefix_append ..), h.fOut, h.replies, h.evq, h.cfg, h.inbox⟩

theorem Extends.emitF {s t : State} (h : Extends s t) (bytes : List Byte) : Extends s (t.emitF bytes) :=
  ⟨h.hOut, h.fOut.trans (List.prefix_append ..), h.replies, h.evq, h.cfg, h.inbox⟩

theorem Extends.respond {s t : State} (h : Extends s t) (r : Reply) : Extends s (t.respond r) :=
  ⟨h.hOut, h.fOut, h.replies.trans (List.prefix_append ..), h.evq, h.cfg, h.inbox⟩

theorem Extends.setTx {s t : State} (h : Extends s t) (u : TxUnit) : Extends s (t.setTx u) :=
  ⟨h.hOut, h.fOut, h.replies, h.evq, h.cfg, h.inbox⟩

theorem Extends.setRx {s t : State} (h : Extends s t) (u : RxUnit) : Extends s (t.setRx u) :=
  ⟨h.hOut, h.fOut, h.replies, h.evq, h.cfg, h.inbox⟩

theorem Extends.setFl {s t : State} (h : Extends s t) (u : FlUnit) : Extends s (t.setFl u) :=
  ⟨h.hOut, h.fOut, h.replies, h.evq, h.cfg, h.inbox⟩

theorem Extends.setWalk {s t : State} (h : Extends s t) (w : Option Walk) : Extends s (t.setWalk w) :=
  ⟨h.hOut, h.fOut, h.replies, h.evq, h.cfg, h.inbox⟩

/-- One event may be posted, before anything else is written. -/
theorem Extends.post (s : State) (e : Event) : Extends s (s.post e) :=
  ⟨List.prefix_rfl, List.prefix_rfl, List.prefix_rfl, .inr ⟨e, rfl⟩, rfl, rfl⟩

theorem WalkMoves.extends {s t : State} (h : WalkMoves s t) : Extends s t := by
  rcases h with ⟨w, rfl⟩ | ⟨r, rfl⟩
  · exact (Extends.refl s).setWalk _
  · exact ((Extends.refl s).setWalk none).respond r

/-! ### The operations -/

theorem execHdlcRxByte_extends {b : Byte} {s t : State} (h : execHdlcRxByte b s = .next t) : Extends s t := by
  obtain ⟨u, hu, rfl⟩ := execHdlcRxByte_next h
  obtain ⟨x, rfl | ⟨e, rfl⟩⟩ := rxByte_writes hu
  · exact ((Extends.refl s).setRx x).respond _
  · exact ((Extends.post s e).setRx x).respond _

theorem execFlenRxByte_extends {b : Byte} {s t : State} (h : execFlenRxByte b s = .next t) : Extends s t := by
  obtain ⟨u, hu, rfl⟩ := execFlenRxByte_next h
  obtain ⟨x, rfl | ⟨e, rfl⟩⟩ := flenByte_writes hu
  · exact ((Extends.refl s).setFl x).respond _
  · exact ((Extends.post s e).setFl x).respond _

theorem exec_extends {i : Instr} {s t : State} (h : exec i s = .next t) : Extends s t := by
  have hs : Extends s s := .refl s
  rcases isOperation_or_eq_ofTag i with hi | ⟨g, rfl⟩
  · cases i with
    | reset =>
      obtain rfl := execReset_next h
      exact ((((hs.emitH _).setTx _).setRx _).setFl _).respond _
    | hdlcTxFrame p =>
      rcases execHdlcTxFrame_next h with ⟨-, rfl⟩ | ⟨-, -, rfl⟩ | ⟨-, -, rfl⟩
      · exact hs.respond _
      · exact hs.respond _
      · exact (hs.emitH _).respond _
    | hdlcTxBegin =>
      rcases execHdlcTxBegin_next h with ⟨-, rfl⟩ | ⟨-, rfl⟩
      · exact hs.respond _
      · exact ((hs.emitH _).setTx _).respond _
    | hdlcTxByte b =>
      rcases execHdlcTxByte_next h with ⟨-, rfl⟩ | ⟨-, -, rfl⟩ | ⟨-, -, rfl⟩
      · exact hs.respond _
      · exact hs.respond _
      · exact ((hs.emitH _).setTx _).respond _
    | hdlcTxEnd =>
      rcases execHdlcTxEnd_next h with ⟨-, rfl⟩ | ⟨-, rfl⟩
      · exact hs.respond _
      · exact ((hs.emitH _).setTx _).respond _
    | hdlcTxAbort =>
      rcases execHdlcTxAbort_next h with ⟨-, rfl⟩ | ⟨-, rfl⟩
      · exact hs.respond _
      · exact ((hs.emitH _).setTx _).respond _
    | hdlcRxByte b => exact execHdlcRxByte_extends h
    | flenTxFrame p =>
      rcases execFlenTxFrame_next h with ⟨-, rfl⟩ | ⟨-, rfl⟩
      · exact hs.respond _
      · exact (hs.emitF _).respond _
    | flenRxByte b => exact execFlenRxByte_extends h
    | flenRxAbort =>
      rcases execFlenRxAbort_next h with ⟨-, rfl⟩ | ⟨-, rfl⟩
      · exact ((Extends.post s _).setFl _).respond _
      · exact (hs.setFl _).respond _
    | argPack desc vals cap =>
      obtain rfl := execArgPack_next h
      exact hs.respond _
    | argUnpack desc input =>
      obtain rfl := execArgUnpack_next h
      exact hs.respond _
    | tagBool | tagU8 | tagU16 | tagU32 | tagI32 | tagBlob | tagUtf8 | tagStructOpen | tagStructClose | tagArray =>
      obtain ⟨_, he⟩ := hi
      cases he
  · exact (exec_ofTag_moves h).2.extends

/-- Settles O58: every instruction is a sequence of writes that each extend the outputs, with one event at most. -/
theorem outputsAreAppendOnly : Obligations.OutputsAreAppendOnly := by
  intro i s t h
  obtain ⟨hH, hF, hreplies, hevq, hcfg, hinbox⟩ := exec_extends h
  exact ⟨hH, hF, hreplies, hevq, hcfg, hinbox⟩

end Sys2Proof.Machine
end

section
/-! PROOF. The invariant `StateOk` of 10_state.md R41, R22 and R51: what each write of the state needs to keep it, that
power-on has it, and that every step keeps it. -/

namespace Sys2Proof.Machine

/-! ### The buffers (R50, R51) -/

/-- A buffer in its canonical form, inside `cap` bytes. -/
structure BufferOk (cap : Nat) (m : Buffer) : Prop where
  wf : Buffer.wf m = true
  within : bufferWithin cap m = true

theorem BufferOk.nil (cap : Nat) : BufferOk cap [] := ⟨rfl, rfl⟩

theorem bufferWithin_cons {cap : Nat} {cell : Host.Cell} {m : Buffer} :
    bufferWithin cap (cell :: m) = true ↔ cell.1 < cap ∧ bufferWithin cap m = true := by
  simp [bufferWithin]

theorem bufferWithin_write {cap i : Nat} {m : Buffer} (v : Byte) (hm : bufferWithin cap m = true) (hi : i < cap) :
    bufferWithin cap (Buffer.write m i v) = true := by
  induction m with
  | nil =>
    unfold Buffer.write
    split
    · rfl
    · exact bufferWithin_cons.mpr ⟨hi, rfl⟩
  | cons cell rest ih =>
    obtain ⟨hj, hrest⟩ := bufferWithin_cons.mp hm
    unfold Buffer.write
    split
    · split
      · exact hm
      · exact bufferWithin_cons.mpr ⟨hi, hm⟩
    · split
      · split
        · exact hrest
        · exact bufferWithin_cons.mpr ⟨hi, hrest⟩
      · exact bufferWithin_cons.mpr ⟨hj, ih hrest⟩

theorem BufferOk.write {cap i : Nat} {m : Buffer} (h : BufferOk cap m) (v : Byte) (hi : i < cap) :
    BufferOk cap (Buffer.write m i v) :=
  ⟨Buffer.write_wf h.wf, bufferWithin_write v h.within hi⟩

theorem StateOk.rxBuf {s : State} (h : StateOk s) : BufferOk s.cfg.hdlcRxCap s.rx.buf :=
  ⟨h.buffers.rxBuf, h.buffers.rxBufWithin⟩

theorem StateOk.flHdr {s : State} (h : StateOk s) : BufferOk s.cfg.flenLenBytes s.fl.hdr :=
  ⟨h.buffers.flHdr, h.buffers.flHdrWithin⟩

theorem StateOk.flBuf {s : State} (h : StateOk s) : BufferOk s.cfg.flenMax s.fl.buf :=
  ⟨h.buffers.flBuf, h.buffers.flBufWithin⟩

theorem BuffersOk.of_buffers {s : State} (hrx : BufferOk s.cfg.hdlcRxCap s.rx.buf)
    (hhdr : BufferOk s.cfg.flenLenBytes s.fl.hdr) (hbuf : BufferOk s.cfg.flenMax s.fl.buf) : BuffersOk s :=
  ⟨hrx.wf, hhdr.wf, hbuf.wf, hrx.within, hhdr.within, hbuf.within⟩

/-! ### Each unit's invariant reads only the parameters and that unit -/

theorem TxOk.congr {s t : State} (h : TxOk s) (hc : t.cfg = s.cfg) (hu : t.tx = s.tx) : TxOk t := by
  obtain ⟨hidle, hopened, hcount⟩ := h
  rw [← hc, ← hu] at *
  exact ⟨hidle, hopened, hcount⟩

theorem RxOk.congr {s t : State} (h : RxOk s) (hc : t.cfg = s.cfg) (hu : t.rx = s.rx) : RxOk t := by
  obtain ⟨hhunt, hlen⟩ := h
  rw [← hu] at hhunt
  rw [← hc, ← hu] at hlen
  exact ⟨hhunt, hlen⟩

theorem FlOk.congr {s t : State} (h : FlOk s) (hc : t.cfg = s.cfg) (hu : t.fl = s.fl) : FlOk t := by
  obtain ⟨hhcount, hhdr, hcount, hbody, hskip, hlen⟩ := h
  rw [← hc, ← hu] at *
  exact ⟨hhcount, hhdr, hcount, hbody, hskip, hlen⟩

/-! ### Each unit's invariant, by the unit's state -/

theorem TxOk.of_idle {s : State} (h : s.tx = txIdle s.cfg) : TxOk s where
  idle _ := by simp [h, txIdle]
  opened ho := by simp [h, txIdle] at ho
  count := by simp [h, txIdle]

theorem TxOk.of_open {s : State} {p : List Byte} (ho : s.tx.state = .open)
    (hfcs : s.tx.fcs = fcsRun s.cfg s.cfg.fcsInit p) (hcount : s.tx.count = p.length)
    (hle : p.length ≤ s.cfg.maxFrame) : TxOk s where
  idle hi := by simp [ho] at hi
  opened _ := ⟨p, hfcs, hcount⟩
  count := hcount ▸ hle

/-- A decoder with nothing stored, in any state. -/
theorem RxOk.of_empty {s : State} (h : s.rx.len = 0) : RxOk s := ⟨fun _ => h, by omega⟩

/-- A decoder inside a frame. -/
theorem RxOk.of_ne_hunt {s : State} (hne : s.rx.state ≠ .hunt) (hlen : s.rx.len ≤ s.cfg.hdlcRxCap) : RxOk s :=
  ⟨fun h => absurd h hne, hlen⟩

theorem FlOk.of_hdr {s : State} (hs : s.fl.state = .hdr) (hh : s.fl.hcount < s.cfg.flenLenBytes)
    (hc : s.fl.count = 0) (hl : s.fl.len < 2 ^ (8 * s.cfg.flenLenBytes)) : FlOk s where
  hcount := hh
  hdr _ := hc
  count h := by simp [hs] at h
  body h := by simp [hs] at h
  skip h := by simp [hs] at h
  len := hl

theorem FlOk.of_body {s : State} (hs : s.fl.state = .body) (hh : s.fl.hcount < s.cfg.flenLenBytes)
    (hc : s.fl.count < s.fl.len) (hm : s.fl.len ≤ s.cfg.flenMax) (hl : s.fl.len < 2 ^ (8 * s.cfg.flenLenBytes)) :
    FlOk s where
  hcount := hh
  hdr h := by simp [hs] at h
  count _ := hc
  body _ := ⟨by omega, hm⟩
  skip h := by simp [hs] at h
  len := hl

theorem FlOk.of_skip {s : State} (hs : s.fl.state = .skip) (hh : s.fl.hcount < s.cfg.flenLenBytes)
    (hc : s.fl.count < s.fl.len) (hm : s.cfg.flenMax < s.fl.len) (hl : s.fl.len < 2 ^ (8 * s.cfg.flenLenBytes)) :
    FlOk s where
  hcount := hh
  hdr h := by simp [hs] at h
  count _ := hc
  body h := by simp [hs] at h
  skip _ := hm
  len := hl

/-- A header has at least one byte, so an idle FLEN decoder is inside it. -/
theorem FlOk.of_idle {s : State} {u : FlUnit} (hcfg : configStandard s.cfg) (h : s.fl = flIdle u) : FlOk s := by
  obtain ⟨-, -, hbytes⟩ := hcfg
  exact .of_hdr (by rw [h]; rfl) (by rw [h]; exact hbytes) (by rw [h]; rfl) (by rw [h]; exact Nat.two_pow_pos _)

/-! ### One rule for each write -/

/-- The invariant reads only the parameters, the units, the events and the walk. -/
theorem StateOk.of_same_units {s t : State} (h : StateOk s) (hc : t.cfg = s.cfg) (htx : t.tx = s.tx)
    (hrx : t.rx = s.rx) (hfl : t.fl = s.fl) (hw : t.walk = s.walk) (he : ∀ e ∈ t.evq, eventBounded s.cfg e) :
    StateOk t where
  legal := hc ▸ h.legal
  standard := hc ▸ h.standard
  tx := h.tx.congr hc htx
  rx := h.rx.congr hc hrx
  fl := h.fl.congr hc hfl
  buffers := by
    apply BuffersOk.of_buffers <;> rw [hc]
    · rw [hrx]; exact h.rxBuf
    · rw [hfl]; exact h.flHdr
    · rw [hfl]; exact h.flBuf
  events := hc ▸ he
  noWalk := hw.trans h.noWalk

theorem StateOk.emitH {s : State} (h : StateOk s) (bytes : List Byte) : StateOk (s.emitH bytes) :=
  h.of_same_units rfl rfl rfl rfl rfl h.events

theorem StateOk.emitF {s : State} (h : StateOk s) (bytes : List Byte) : StateOk (s.emitF bytes) :=
  h.of_same_units rfl rfl rfl rfl rfl h.events

theorem StateOk.respond {s : State} (h : StateOk s) (r : Reply) : StateOk (s.respond r) :=
  h.of_same_units rfl rfl rfl rfl rfl h.events

theorem StateOk.setInbox {s : State} (h : StateOk s) (acts : List HostAction) : StateOk (s.setInbox acts) :=
  h.of_same_units rfl rfl rfl rfl rfl h.events

theorem StateOk.takeHOut {s : State} (h : StateOk s) (n : Nat) : StateOk (s.takeHOut n) :=
  h.of_same_units rfl rfl rfl rfl rfl h.events

theorem StateOk.takeFOut {s : State} (h : StateOk s) (n : Nat) : StateOk (s.takeFOut n) :=
  h.of_same_units rfl rfl rfl rfl rfl h.events

theorem StateOk.takeEvents {s : State} (h : StateOk s) (n : Nat) : StateOk (s.takeEvents n) :=
  h.of_same_units rfl rfl rfl rfl rfl fun e he => h.events e (List.mem_of_mem_drop he)

theorem StateOk.post {s : State} {e : Event} (h : StateOk s) (hb : eventBounded s.cfg e) : StateOk (s.post e) :=
  h.of_same_units rfl rfl rfl rfl rfl fun e' he => by
    rcases List.mem_append.mp he with hold | hnew
    · exact h.events e' hold
    · exact List.mem_singleton.mp hnew ▸ hb

theorem StateOk.post_hdlcDiscard {s : State} (h : StateOk s) (r : HdlcReason) : StateOk (s.post (.hdlcDiscard r)) :=
  h.post trivial

theorem StateOk.post_flenDiscard {s : State} (h : StateOk s) (r : FlenReason) : StateOk (s.post (.flenDiscard r)) :=
  h.post trivial

theorem StateOk.post_flenFrame {s : State} {p : List Byte} (h : StateOk s) (hp : p.length ≤ s.cfg.flenMax) :
    StateOk (s.post (.flenFrame p)) :=
  h.post hp

theorem StateOk.setTx {s : State} {u : TxUnit} (h : StateOk s) (hu : TxOk (s.setTx u)) : StateOk (s.setTx u) where
  legal := h.legal
  standard := h.standard
  tx := hu
  rx := h.rx.congr rfl rfl
  fl := h.fl.congr rfl rfl
  buffers := .of_buffers h.rxBuf h.flHdr h.flBuf
  events := h.events
  noWalk := h.noWalk

theorem StateOk.setRx {s : State} {u : RxUnit} (h : StateOk s) (hu : RxOk (s.setRx u))
    (hbuf : BufferOk s.cfg.hdlcRxCap u.buf) : StateOk (s.setRx u) where
  legal := h.legal
  standard := h.standard
  tx := h.tx.congr rfl rfl
  rx := hu
  fl := h.fl.congr rfl rfl
  buffers := .of_buffers hbuf h.flHdr h.flBuf
  events := h.events
  noWalk := h.noWalk

theorem StateOk.setFl {s : State} {u : FlUnit} (h : StateOk s) (hu : FlOk (s.setFl u))
    (hhdr : BufferOk s.cfg.flenLenBytes u.hdr) (hbuf : BufferOk s.cfg.flenMax u.buf) : StateOk (s.setFl u) where
  legal := h.legal
  standard := h.standard
  tx := h.tx.congr rfl rfl
  rx := h.rx.congr rfl rfl
  fl := hu
  buffers := .of_buffers h.rxBuf hhdr hbuf
  events := h.events
  noWalk := h.noWalk

theorem StateOk.setTx_txIdle {s : State} (h : StateOk s) : StateOk (s.setTx (txIdle s.cfg)) := h.setTx (.of_idle rfl)

/-- The HDLC decoder drops what it has stored, in any state. -/
theorem StateOk.setRx_empty {s : State} (h : StateOk s) (st : RxState) : StateOk (s.setRx ⟨st, 0, s.rx.buf⟩) :=
  h.setRx (.of_empty rfl) h.rxBuf

theorem StateOk.setFl_flIdle {s : State} (h : StateOk s) : StateOk (s.setFl (flIdle s.fl)) :=
  h.setFl (.of_idle h.standard rfl) h.flHdr h.flBuf

/-! ### Power-on (R42, R250) -/

/-- A machine at power-on, with any legal parameters and any actions to come, is in a good state. -/
theorem powerOn_stateOk {c : Config} (acts : List HostAction) (hlegal : configLegal c = true)
    (hstd : configStandard c) :
    StateOk ⟨c, txIdle c, State.reset.rx, State.reset.fl, [], [], [], none, acts, []⟩ where
  legal := hlegal
  standard := hstd
  tx := .of_idle rfl
  rx := .of_empty rfl
  fl := .of_idle (u := State.reset.fl) hstd rfl
  buffers := .of_buffers (.nil _) (.nil _) (.nil _)
  events := nofun
  noWalk := rfl

theorem defaultConfig_legal : configLegal defaultConfig = true := by decide

theorem defaultConfig_standard : configStandard defaultConfig := ⟨fun _ => .rfl, rfl, by decide⟩

/-- Settles O53: power-on with the default parameters and no action to come. -/
theorem powerOnIsAGoodState : Obligations.PowerOnIsAGoodState :=
  powerOn_stateOk [] defaultConfig_legal defaultConfig_standard

/-! ### The encoder (R41 (c) and (d)) -/

theorem StateOk.execHdlcTxBegin {s t : State} (h : StateOk s) (ht : execHdlcTxBegin s = .next t) : StateOk t := by
  rcases execHdlcTxBegin_next ht with ⟨-, rfl⟩ | ⟨-, rfl⟩
  · exact h.respond _
  · exact ((h.emitH _).setTx (.of_open (p := []) rfl rfl rfl (Nat.zero_le _))).respond _

/-- The byte joins the bytes the FCS register has run over, and `tx.count` stays within `MAX_FRAME`. -/
theorem StateOk.execHdlcTxByte {b : Byte} {s t : State} (h : StateOk s) (ht : execHdlcTxByte b s = .next t) :
    StateOk t := by
  rcases execHdlcTxByte_next ht with ⟨-, rfl⟩ | ⟨-, -, rfl⟩ | ⟨hopen, hroom, rfl⟩
  · exact h.respond _
  · exact h.respond _
  · obtain ⟨p, hfcs, hcount⟩ := h.tx.opened hopen
    have hmax := h.tx.count
    have hrun : fcsStep s.cfg s.tx.fcs b = fcsRun s.cfg s.cfg.fcsInit (p ++ [b]) := by
      rw [fcsRun_append, hfcs]
      rfl
    have hlen : s.tx.count + 1 = (p ++ [b]).length := by simp [hcount]
    have hle : (p ++ [b]).length ≤ s.cfg.maxFrame := by omega
    refine ((h.emitH _).setTx ?_).respond _
    exact .of_open (p := p ++ [b]) hopen hrun hlen hle

theorem StateOk.execHdlcTxEnd {s t : State} (h : StateOk s) (ht : execHdlcTxEnd s = .next t) : StateOk t := by
  rcases execHdlcTxEnd_next ht with ⟨-, rfl⟩ | ⟨-, rfl⟩
  · exact h.respond _
  · exact (h.emitH _).setTx_txIdle.respond _

theorem StateOk.execHdlcTxAbort {s t : State} (h : StateOk s) (ht : execHdlcTxAbort s = .next t) : StateOk t := by
  rcases execHdlcTxAbort_next ht with ⟨-, rfl⟩ | ⟨-, rfl⟩
  · exact h.respond _
  · exact (h.emitH _).setTx_txIdle.respond _

/-! ### The HDLC decoder (R41 (a) and (b)) -/

theorem closeEvent_bounded {c : Config} {p : List Byte} (r : List Byte) (hp : p.length ≤ c.maxFrame) :
    eventBounded c (closeEvent c p r) := by
  unfold closeEvent
  split
  · exact hp
  · trivial

theorem StateOk.rxAppend {s : State} (h : StateOk s) (v : Byte) : StateOk (rxAppend v s) := by
  rcases rxAppend_spec v s with ⟨hroom, ht⟩ | ⟨-, ht⟩
  · rw [ht]
    exact h.setRx (.of_ne_hunt nofun hroom) (h.rxBuf.write v hroom)
  · rw [ht]
    exact (h.post_hdlcDiscard _).setRx_empty .hunt

/-- A delivered payload is what `rx.buf` holds but for the two FCS bytes, so it is within `MAX_FRAME` (R28). -/
theorem StateOk.rxClose {s t : State} (h : StateOk s) (ht : rxClose s = some t) : StateOk t := by
  rcases rxClose_spec ht with ⟨-, rfl⟩ | ⟨-, rfl⟩ | ⟨-, hlen, rfl⟩
  · exact h.setRx_empty .data
  · exact (h.post_hdlcDiscard _).setRx_empty .data
  · obtain ⟨-, hcap, -⟩ := h.standard
    have hp : (Buffer.readFrom s.rx.buf 0 (s.rx.len - 2)).length ≤ s.cfg.maxFrame := by
      rw [Buffer.readFrom_length]
      omega
    exact (h.post (closeEvent_bounded _ hp)).setRx_empty .data

theorem StateOk.rxByte {b : Byte} {s t : State} (h : StateOk s) (ht : rxByte b s = some t) : StateOk t := by
  rcases rxByte_spec ht with ⟨-, -, rfl⟩ | ⟨-, -, rfl⟩ | ⟨-, -, hclose⟩ | ⟨-, -, -, rfl⟩ | ⟨-, -, -, rfl⟩ |
    ⟨-, -, rfl⟩ | ⟨-, -, rfl⟩
  · exact h.setRx_empty .data
  · exact h
  · exact h.rxClose hclose
  · exact h.setRx (.of_ne_hunt nofun h.rx.len) h.rxBuf
  · exact h.rxAppend b
  · exact (h.post_hdlcDiscard _).setRx_empty .data
  · exact h.rxAppend _

/-! ### The FLEN decoder (R41 (e) to (h)) -/

/-- A complete header leaves a length that fits its field (R22). -/
theorem StateOk.flenHeaderComplete {s : State} {hdr : Buffer} {len : Nat} (h : StateOk s)
    (hs : s.fl.state = .hdr) (hhdr : BufferOk s.cfg.flenLenBytes hdr) (hlen : len < 2 ^ (8 * s.cfg.flenLenBytes)) :
    StateOk (flenHeaderComplete hdr len s) := by
  obtain ⟨-, -, hbytes⟩ := h.standard
  rcases flenHeaderComplete_spec hdr len s with ⟨-, ht⟩ | ⟨hmax, ht⟩ | ⟨hpos, hmax, ht⟩
  · rw [ht]
    exact (h.post_flenFrame (Nat.zero_le _)).setFl (.of_hdr hs hbytes (h.fl.hdr hs) h.fl.len) hhdr h.flBuf
  · rw [ht]
    exact (h.post_flenDiscard _).setFl (.of_skip rfl hbytes (Nat.zero_lt_of_lt hmax) hmax hlen) hhdr h.flBuf
  · rw [ht]
    exact h.setFl (.of_body rfl hbytes hpos hmax hlen) hhdr h.flBuf

theorem StateOk.flenHdrByte {b : Byte} {s t : State} (h : StateOk s) (hs : s.fl.state = .hdr)
    (ht : flenHdrByte b s = some t) : StateOk t := by
  obtain ⟨hroom, ⟨hmore, rfl⟩ | ⟨hlast, rfl⟩⟩ := flenHdrByte_spec h.flHdr.wf ht
  · have hnext : s.fl.hcount + 1 < s.cfg.flenLenBytes := by omega
    exact h.setFl (.of_hdr hs hnext (h.fl.hdr hs) h.fl.len) (h.flHdr.write b hroom) h.flBuf
  · have hlen := fromLE_lt (Buffer.readFrom s.fl.hdr 0 s.fl.hcount ++ [b])
    rw [List.length_append, Buffer.readFrom_length, List.length_singleton, hlast] at hlen
    exact h.flenHeaderComplete hs (h.flHdr.write b hroom) hlen

theorem StateOk.flenBodyByte {b : Byte} {s t : State} (h : StateOk s) (hs : s.fl.state = .body)
    (ht : flenBodyByte b s = some t) : StateOk t := by
  have hcount := h.fl.count (.inl hs)
  obtain ⟨-, hmax⟩ := h.fl.body hs
  obtain ⟨hroom, ⟨hmore, rfl⟩ | ⟨hlast, -, rfl⟩⟩ := flenBodyByte_spec h.flBuf.wf ht
  · have hnext : s.fl.count + 1 < s.fl.len := by omega
    exact h.setFl (.of_body hs h.fl.hcount hnext hmax h.fl.len) h.flHdr (h.flBuf.write b hroom)
  · have hp : (Buffer.readFrom s.fl.buf 0 s.fl.count ++ [b]).length ≤ s.cfg.flenMax := by
      rw [List.length_append, Buffer.readFrom_length]
      exact hroom
    exact (h.post_flenFrame hp).setFl (.of_hdr rfl h.fl.hcount rfl h.fl.len) h.flHdr (h.flBuf.write b hroom)

theorem StateOk.flenSkipByte {s : State} (h : StateOk s) (hs : s.fl.state = .skip) : StateOk (flenSkipByte s) := by
  have hcount := h.fl.count (.inr hs)
  rcases flenSkipByte_spec s with ⟨-, ht⟩ | ⟨hmore, ht⟩
  · rw [ht]
    exact h.setFl (.of_hdr rfl h.fl.hcount rfl h.fl.len) h.flHdr h.flBuf
  · have hnext : s.fl.count + 1 < s.fl.len := by omega
    rw [ht]
    exact h.setFl (.of_skip hs h.fl.hcount hnext (h.fl.skip hs) h.fl.len) h.flHdr h.flBuf

theorem StateOk.flenByte {b : Byte} {s t : State} (h : StateOk s) (ht : flenByte b s = some t) : StateOk t := by
  rcases flenByte_spec ht with ⟨hs, hhdr⟩ | ⟨hs, hbody⟩ | ⟨hs, rfl⟩
  · exact h.flenHdrByte hs hhdr
  · exact h.flenBodyByte hs hbody
  · exact h.flenSkipByte hs

/-! ### Every instruction and every step -/

theorem StateOk.exec {i : Instr} {s t : State} (h : StateOk s) (ht : exec i s = .next t) : StateOk t := by
  rcases isOperation_or_eq_ofTag i with hi | ⟨g, rfl⟩
  · cases i with
    | reset =>
      obtain rfl := execReset_next ht
      exact (((h.emitH _).setTx_txIdle.setRx_empty .hunt).setFl_flIdle).respond _
    | hdlcTxFrame p =>
      rcases execHdlcTxFrame_next ht with ⟨-, rfl⟩ | ⟨-, -, rfl⟩ | ⟨-, -, rfl⟩
      · exact h.respond _
      · exact h.respond _
      · exact (h.emitH _).respond _
    | hdlcTxBegin => exact h.execHdlcTxBegin ht
    | hdlcTxByte b => exact h.execHdlcTxByte ht
    | hdlcTxEnd => exact h.execHdlcTxEnd ht
    | hdlcTxAbort => exact h.execHdlcTxAbort ht
    | hdlcRxByte b =>
      obtain ⟨u, hu, rfl⟩ := execHdlcRxByte_next ht
      exact (h.rxByte hu).respond _
    | flenTxFrame p =>
      rcases execFlenTxFrame_next ht with ⟨-, rfl⟩ | ⟨-, rfl⟩
      · exact h.respond _
      · exact (h.emitF _).respond _
    | flenRxByte b =>
      obtain ⟨u, hu, rfl⟩ := execFlenRxByte_next ht
      exact (h.flenByte hu).respond _
    | flenRxAbort =>
      rcases execFlenRxAbort_next ht with ⟨-, rfl⟩ | ⟨-, rfl⟩
      · exact (h.post_flenDiscard _).setFl_flIdle.respond _
      · exact h.setFl_flIdle.respond _
    | argPack desc vals cap =>
      obtain rfl := execArgPack_next ht
      exact h.respond _
    | argUnpack desc input =>
      obtain rfl := execArgUnpack_next ht
      exact h.respond _
    | tagBool | tagU8 | tagU16 | tagU32 | tagI32 | tagBlob | tagUtf8 | tagStructOpen | tagStructClose | tagArray =>
      obtain ⟨_, he⟩ := hi
      cases he
  · obtain ⟨hwalk, -⟩ := exec_ofTag_moves ht
    exact absurd h.noWalk hwalk

/-- Whatever a step has fetched, the state it goes on with is good. -/
def FetchedOk : Fetched → Prop
  | .idle => True
  | .run _ u => StateOk u
  | .unknown u => StateOk u
  | .done u => StateOk u
  | .refuse _ => True

theorem StateOk.fetchRequest {s : State} (h : StateOk s) (q : Request) : FetchedOk (fetchRequest q s) := by
  unfold Machine.fetchRequest
  split
  · split
    · exact h
    · trivial
  · exact h
  · trivial
  · trivial

theorem StateOk.fetchAction {s : State} (h : StateOk s) : FetchedOk (fetchAction s) := by
  unfold Machine.fetchAction
  split
  · trivial
  · exact (h.setInbox _).fetchRequest _
  · exact (h.setInbox _).takeHOut _
  · exact (h.setInbox _).takeFOut _
  · exact (h.setInbox _).takeEvents _

theorem StateOk.fetch {s : State} (h : StateOk s) : FetchedOk (fetch s) :=
  fetch_action h.legal h.noWalk ▸ h.fetchAction

theorem StateOk.step {s t : State} (h : StateOk s) (ht : step s = .next t) : StateOk t := by
  have hf := h.fetch
  rcases step_next ht with ⟨-, rfl⟩ | ⟨i, u, hrun, hexec⟩ | ⟨u, hunknown, rfl⟩ | hdone
  · exact h
  · rw [hrun] at hf
    exact hf.exec hexec
  · rw [hunknown] at hf
    exact hf.respond _
  · rw [hdone] at hf
    exact hf

/-- Settles O54: what a step fetches is a good state, and each instruction is a sequence of writes that keep one. -/
theorem everyStepKeepsAGoodState : Obligations.EveryStepKeepsAGoodState := fun _ _ h ht => h.step ht

end Sys2Proof.Machine
end

section
/-! PROOF. The step between operations (60_exceptions.md R238, 70_reset_and_hazards.md R265), and where the model stops
by a name of its own (log 7 and 12). -/

namespace Sys2Proof.Machine

/-! ### The host's reads -/

theorem step_of_fetch_idle {s : State} (h : fetch s = .idle) : step s = .next s := by simp [step, h]

theorem step_of_fetch_done {s t : State} (h : fetch s = .done t) : step s = .next t := by simp [step, h]

theorem fetchAction_nil {s : State} (h : s.inbox = []) : fetchAction s = .idle := by simp [fetchAction, h]

theorem fetchAction_takeHOut {s : State} {n : Nat} {rest : List HostAction} (h : s.inbox = .takeHOut n :: rest) :
    fetchAction s = .done ((s.setInbox rest).takeHOut n) := by
  simp [fetchAction, h]

theorem fetchAction_takeFOut {s : State} {n : Nat} {rest : List HostAction} (h : s.inbox = .takeFOut n :: rest) :
    fetchAction s = .done ((s.setInbox rest).takeFOut n) := by
  simp [fetchAction, h]

theorem fetchAction_takeEvents {s : State} {n : Nat} {rest : List HostAction} (h : s.inbox = .takeEvents n :: rest) :
    fetchAction s = .done ((s.setInbox rest).takeEvents n) := by
  simp [fetchAction, h]

/-- Settles O7: with no walk the fetch is the host's next action, and a read of an output is the whole step. -/
theorem hostReadsRemoveOnlyHeads : Obligations.HostReadsRemoveOnlyHeads := by
  intro s n rest hc hw
  have hfetch := fetch_action hc hw
  refine ⟨fun hin => ?_, fun hin => ?_, fun hin => ?_, fun hin => ?_⟩
  · exact step_of_fetch_idle (hfetch.trans (fetchAction_nil hin))
  · exact step_of_fetch_done (hfetch.trans (fetchAction_takeHOut hin))
  · exact step_of_fetch_done (hfetch.trans (fetchAction_takeFOut hin))
  · exact step_of_fetch_done (hfetch.trans (fetchAction_takeEvents hin))

/-! ### Stops -/

theorem onWalk_of_no_walk {act : Walk → State → State} {s : State} (h : s.walk = none) :
    onWalk act s = .refused .tagOutsideWalk := by
  simp [onWalk, h]

theorem bufWrite_eq_none {cap i : Nat} {m : Buffer} {v : Byte} (h : cap ≤ i) : bufWrite cap m i v = none :=
  if_neg (Nat.not_lt.mpr h)

/-- `Close()` leaves the buffer when the two FCS bytes it would read lie outside it. -/
theorem rxClose_eq_none {s : State} (h2 : 2 ≤ s.rx.len) (hcap : s.cfg.hdlcRxCap < s.rx.len) : rxClose s = none := by
  cases hclose : rxClose s with
  | none => rfl
  | some t =>
    rcases rxClose_spec hclose with ⟨hlen, -⟩ | ⟨hlen, -⟩ | ⟨-, hlen, -⟩ <;> omega

theorem rxByte_flag_of_data {s : State} (h : s.rx.state = .data) : rxByte s.cfg.hdlcFlag s = rxClose s := by
  have hclass : octetClass s.cfg s.cfg.hdlcFlag = .flag := if_pos rfl
  simp only [rxByte, h, hclass]

theorem flenByte_of_hdr {s : State} (b : Byte) (h : s.fl.state = .hdr) : flenByte b s = flenHdrByte b s := by
  simp only [flenByte, h]

theorem flenByte_of_body {s : State} (b : Byte) (h : s.fl.state = .body) : flenByte b s = flenBodyByte b s := by
  simp only [flenByte, h]

theorem flenHdrByte_eq_none {s : State} (b : Byte) (h : s.cfg.flenLenBytes ≤ s.fl.hcount) :
    flenHdrByte b s = none := by
  simp only [flenHdrByte, bufWrite_eq_none h]

theorem flenBodyByte_eq_none {s : State} (b : Byte) (h : s.cfg.flenMax ≤ s.fl.count) : flenBodyByte b s = none := by
  simp only [flenBodyByte, bufWrite_eq_none h]

theorem execHdlcRxByte_fault {b : Byte} {s : State} (h : rxByte b s = none) :
    exec (.hdlcRxByte b) s = .fault .bufferIndex := by
  simp only [exec, execHdlcRxByte, h]

theorem execFlenRxByte_fault {b : Byte} {s : State} (h : flenByte b s = none) :
    exec (.flenRxByte b) s = .fault .bufferIndex := by
  simp only [exec, execFlenRxByte, h]

/-- Settles O60: a tag acts only on a walk, and a decoder faults where the write or the read it needs is outside its
buffer. -/
theorem modelStopsByName : Obligations.ModelStopsByName := by
  refine ⟨fun t s hw => ?_, fun s hs h2 hcap => ?_, fun s b hs hfull => ?_, fun s b hs hfull => ?_⟩
  · exact (exec_ofTag t s).trans (onWalk_of_no_walk hw)
  · exact execHdlcRxByte_fault ((rxByte_flag_of_data hs).trans (rxClose_eq_none h2 hcap))
  · exact execFlenRxByte_fault ((flenByte_of_hdr b hs).trans (flenHdrByte_eq_none b hfull))
  · exact execFlenRxByte_fault ((flenByte_of_body b hs).trans (flenBodyByte_eq_none b hfull))

end Sys2Proof.Machine
end

section
/-! PROOF. No reachable state faults (20_memory.md R51, R52, 60_exceptions.md R230): an instruction faults only where a
decoder would leave its buffer, and the invariant `StateOk` keeps each index a decoder computes inside its buffer. -/

namespace Sys2Proof.Machine

/-! ### Accesses inside a buffer are defined (R52) -/

theorem bufWrite_of_lt {cap i : Nat} {m : Buffer} {v : Byte} (h : i < cap) :
    bufWrite cap m i v = some (Buffer.write m i v) :=
  if_pos h

theorem bufRead_of_le {cap i n : Nat} {m : Buffer} (h : i + n ≤ cap) :
    bufRead cap m i n = some (Buffer.readFrom m i n) :=
  if_pos h

/-! ### A decoder with its indexes inside its buffers takes every byte (R120, R141) -/

/-- `Close()` reads two ranges that lie below `rx.len`. -/
theorem rxClose_defined {s : State} (h : s.rx.len ≤ s.cfg.hdlcRxCap) : ∃ t, rxClose s = some t := by
  have hpayload : 0 + (s.rx.len - 2) ≤ s.cfg.hdlcRxCap := by omega
  simp only [rxClose, bufRead_of_le hpayload]
  split
  · exact ⟨_, rfl⟩
  · split
    · exact ⟨_, rfl⟩
    · have hfcs : s.rx.len - 2 + 2 ≤ s.cfg.hdlcRxCap := by omega
      exact ⟨_, by rw [bufRead_of_le hfcs]⟩

/-- Of the cells of R120's table only the closing flag's reads the buffer. -/
theorem rxByte_defined {s : State} (b : Byte) (h : s.rx.len ≤ s.cfg.hdlcRxCap) : ∃ t, rxByte b s = some t := by
  unfold rxByte
  cases s.rx.state with
  | hunt => cases octetClass s.cfg b <;> exact ⟨_, rfl⟩
  | data =>
    cases octetClass s.cfg b with
    | flag => exact rxClose_defined h
    | esc | data => exact ⟨_, rfl⟩
  | esc => cases octetClass s.cfg b <;> exact ⟨_, rfl⟩

theorem flenHdrByte_defined {s : State} (b : Byte) (h : s.fl.hcount < s.cfg.flenLenBytes) :
    ∃ t, flenHdrByte b s = some t := by
  have hall : 0 + s.cfg.flenLenBytes ≤ s.cfg.flenLenBytes := by omega
  simp only [flenHdrByte, bufWrite_of_lt h, bufRead_of_le hall]
  split
  · exact ⟨_, rfl⟩
  · exact ⟨_, rfl⟩

theorem flenBodyByte_defined {s : State} (b : Byte) (hcount : s.fl.count < s.fl.len)
    (hlen : s.fl.len ≤ s.cfg.flenMax) : ∃ t, flenBodyByte b s = some t := by
  have hroom : s.fl.count < s.cfg.flenMax := by omega
  have hall : 0 + s.fl.len ≤ s.cfg.flenMax := by omega
  simp only [flenBodyByte, bufWrite_of_lt hroom, bufRead_of_le hall]
  split
  · exact ⟨_, rfl⟩
  · exact ⟨_, rfl⟩

/-- R41 (e) to (g) keep the index of the selected row inside the buffer that row writes. -/
theorem flenByte_defined {s : State} (b : Byte) (h : FlOk s) : ∃ t, flenByte b s = some t := by
  cases hs : s.fl.state with
  | hdr => exact flenByte_of_hdr b hs ▸ flenHdrByte_defined b h.hcount
  | body =>
    obtain ⟨-, hlen⟩ := h.body hs
    exact flenByte_of_body b hs ▸ flenBodyByte_defined b (h.count (.inl hs)) hlen
  | skip => exact ⟨flenSkipByte s, by simp only [flenByte, hs]⟩

/-! ### What cannot fault -/

theorem replyStatus_noFault (s : State) (st : Status) : noFault (replyStatus s st) := trivial

theorem guard_noFault {p : Prop} [Decidable p] {s : State} {st : Status} {x : StepResult} (hx : noFault x) :
    noFault (if p then replyStatus s st else x) := by
  split
  · exact replyStatus_noFault s st
  · exact hx

theorem onWalk_noFault (act : Walk → State → State) (s : State) : noFault (onWalk act s) := by
  unfold onWalk
  split
  · trivial
  · split <;> trivial

theorem execHdlcRxByte_noFault {b : Byte} {s : State} (h : ∃ t, rxByte b s = some t) :
    noFault (execHdlcRxByte b s) := by
  obtain ⟨t, ht⟩ := h
  simp only [execHdlcRxByte, ht, replyStatus_noFault]

theorem execFlenRxByte_noFault {b : Byte} {s : State} (h : ∃ t, flenByte b s = some t) :
    noFault (execFlenRxByte b s) := by
  obtain ⟨t, ht⟩ := h
  simp only [execFlenRxByte, ht, replyStatus_noFault]

/-- In a good state no instruction faults: only the two received bytes could, and their decoders take them. -/
theorem exec_noFault (i : Instr) {s : State} (h : StateOk s) : noFault (exec i s) := by
  rcases isOperation_or_eq_ofTag i with hi | ⟨g, rfl⟩
  · cases i with
    | reset => exact replyStatus_noFault ..
    | hdlcTxFrame p => exact guard_noFault (guard_noFault (replyStatus_noFault ..))
    | hdlcTxBegin => exact guard_noFault (replyStatus_noFault ..)
    | hdlcTxByte b => exact guard_noFault (guard_noFault (replyStatus_noFault ..))
    | hdlcTxEnd => exact guard_noFault (replyStatus_noFault ..)
    | hdlcTxAbort => exact guard_noFault (replyStatus_noFault ..)
    | hdlcRxByte b => exact execHdlcRxByte_noFault (rxByte_defined b h.rx.len)
    | flenTxFrame p => exact guard_noFault (replyStatus_noFault ..)
    | flenRxByte b => exact execFlenRxByte_noFault (flenByte_defined b h.fl)
    | flenRxAbort => exact replyStatus_noFault ..
    | argPack desc vals cap => trivial
    | argUnpack desc input => trivial
    | tagBool | tagU8 | tagU16 | tagU32 | tagI32 | tagBlob | tagUtf8 | tagStructOpen | tagStructClose | tagArray =>
      obtain ⟨_, he⟩ := hi
      cases he
  · exact exec_ofTag g s ▸ onWalk_noFault (tagAction g) s

/-- A step faults only by the instruction it runs, which runs in a good state when the step starts in one. -/
theorem step_noFault {s : State} (h : StateOk s) : noFault (step s) := by
  have hf := h.fetch
  unfold step
  cases hfetch : fetch s with
  | run i u =>
    rw [hfetch] at hf
    exact exec_noFault i hf
  | idle | unknown u | done u | refuse r => trivial

/-- The invariant holds at power-on and every step keeps it. -/
theorem Reachable.stateOk {s : State} (h : Reachable s) : StateOk s := by
  induction h with
  | start c acts hlegal hstd => exact powerOn_stateOk acts hlegal hstd
  | step _ _ _ ht ih => exact ih.step ht

/-- Settles O55: every reachable state is good, and a good state's next step does not fault. -/
theorem noReachableStateFaults : Obligations.NoReachableStateFaults := fun _ h =>
  ⟨h.stateOk, step_noFault h.stateOk⟩

end Sys2Proof.Machine
end

section
/-! PROOF. The frame of each unit (20_memory.md R66, 40_hdlc.md R110, 41_flen.md R150): which fields its operations
write, read off from what each operation can do when it ends. -/

namespace Sys2Proof.Machine

/-- The encoder's operations write the encoder and `H_OUT`. -/
theorem hdlcTx_frame {i : Instr} {s t : State} {p : List Byte} {b : Byte}
    (hi : i ∈ [.hdlcTxFrame p, .hdlcTxBegin, .hdlcTxByte b, .hdlcTxEnd, .hdlcTxAbort]) (h : exec i s = .next t) :
    t = { s with tx := t.tx, hOut := t.hOut, replies := t.replies } := by
  simp only [List.mem_cons, List.not_mem_nil, or_false] at hi
  rcases hi with rfl | rfl | rfl | rfl | rfl
  · rcases execHdlcTxFrame_next h with ⟨-, rfl⟩ | ⟨-, -, rfl⟩ | ⟨-, -, rfl⟩ <;> rfl
  · rcases execHdlcTxBegin_next h with ⟨-, rfl⟩ | ⟨-, rfl⟩ <;> rfl
  · rcases execHdlcTxByte_next h with ⟨-, rfl⟩ | ⟨-, -, rfl⟩ | ⟨-, -, rfl⟩ <;> rfl
  · rcases execHdlcTxEnd_next h with ⟨-, rfl⟩ | ⟨-, rfl⟩ <;> rfl
  · rcases execHdlcTxAbort_next h with ⟨-, rfl⟩ | ⟨-, rfl⟩ <;> rfl

/-- The HDLC decoder's operation writes that decoder and `EVQ`. -/
theorem hdlcRxByte_frame {b : Byte} {s t : State} (h : exec (.hdlcRxByte b) s = .next t) :
    t = { s with rx := t.rx, evq := t.evq, replies := t.replies } := by
  obtain ⟨u, hu, rfl⟩ := execHdlcRxByte_next h
  obtain ⟨x, rfl | ⟨e, rfl⟩⟩ := rxByte_writes hu <;> rfl

/-- The FLEN encoder has no state of its own: it writes `F_OUT`. -/
theorem flenTxFrame_frame {p : List Byte} {s t : State} (h : exec (.flenTxFrame p) s = .next t) :
    t = { s with fOut := t.fOut, replies := t.replies } := by
  rcases execFlenTxFrame_next h with ⟨-, rfl⟩ | ⟨-, rfl⟩ <;> rfl

/-- The FLEN decoder's operations write that decoder and `EVQ`. -/
theorem flenRx_frame {i : Instr} {s t : State} {b : Byte} (hi : i ∈ [.flenRxByte b, .flenRxAbort])
    (h : exec i s = .next t) : t = { s with fl := t.fl, evq := t.evq, replies := t.replies } := by
  simp only [List.mem_cons, List.not_mem_nil, or_false] at hi
  rcases hi with rfl | rfl
  · obtain ⟨u, hu, rfl⟩ := execFlenRxByte_next h
    obtain ⟨x, rfl | ⟨e, rfl⟩⟩ := flenByte_writes hu <;> rfl
  · rcases execFlenRxAbort_next h with ⟨-, rfl⟩ | ⟨-, rfl⟩ <;> rfl

/-- The ARG unit has no state between operations: it only replies. -/
theorem arg_frame {i : Instr} {s t : State} {d input : List Byte} {vs : Values} {n : Nat}
    (hi : i ∈ [.argPack d vs n, .argUnpack d input]) (h : exec i s = .next t) :
    t = { s with replies := t.replies } := by
  simp only [List.mem_cons, List.not_mem_nil, or_false] at hi
  rcases hi with rfl | rfl
  · obtain rfl := execArgPack_next h
    rfl
  · obtain rfl := execArgUnpack_next h
    rfl

theorem WalkMoves.frame {s t : State} (h : WalkMoves s t) :
    t = { s with walk := t.walk, replies := t.replies } := by
  rcases h with ⟨w, rfl⟩ | ⟨r, rfl⟩ <;> rfl

/-- Settles O59: each operation's writes are writes of its own unit and of that unit's output. -/
theorem unitsShareNoState : Obligations.UnitsShareNoState :=
  ⟨fun _ _ _ _ _ hi h => hdlcTx_frame hi h,
    fun _ _ _ h => hdlcRxByte_frame h,
    fun _ _ _ h => flenTxFrame_frame h,
    fun _ _ _ _ hi h => flenRx_frame hi h,
    fun _ _ _ _ _ _ _ hi h => arg_frame hi h,
    fun _ _ _ h => (exec_ofTag_moves h).2.frame⟩

end Sys2Proof.Machine
end

section
/-! PROOF. The step at the edges of the two encoding spaces: an opcode outside the map (30_encoding.md R73), and the tag
at the position of a walk (30_encoding.md R80 to R82, 42_argcodec.md R182). -/

namespace Sys2Proof.Machine

/-! ### An opcode outside the map -/

/-- The decoder compares the opcode with the twelve of R72's map and, when it is none of them, never looks at the
operands. -/
theorem decode_unassigned {q : Request}
    (h : q.opcode ∉ [0x01#8, 0x10#8, 0x11#8, 0x12#8, 0x13#8, 0x14#8, 0x18#8, 0x20#8, 0x28#8, 0x29#8, 0x30#8, 0x31#8]) :
    decode (.op q) = .error (.unassignedOpcode q.opcode) := by
  simp only [List.mem_cons, List.not_mem_nil, or_false, not_or] at h
  simp only [decode, decodeOp, h, if_false]

theorem fetchRequest_unknown {q : Request} {op : Byte} (s : State)
    (hd : decode (.op q) = .error (.unassignedOpcode op)) : fetchRequest q s = .unknown s := by
  simp only [fetchRequest, hd]

theorem step_of_fetch_unknown {s t : State} (h : fetch s = .unknown t) :
    step s = .next (t.respond (.status .errUnknownOp)) := by
  simp only [step, h, unknownOp, replyStatus]

/-- Settles O3: the request leaves the inbox, its opcode decodes to none of the twelve, and the one write that follows is
the reply. -/
theorem unassignedOpcodeChangesNothing : Obligations.UnassignedOpcodeChangesNothing := by
  intro s q rest hc hw hin hop
  have hfetch : fetch s = .unknown (s.setInbox rest) :=
    calc fetch s = fetchAction s := fetch_action hc hw
      _ = fetchRequest q (s.setInbox rest) := fetchAction_issue hin
      _ = .unknown (s.setInbox rest) := fetchRequest_unknown _ (decode_unassigned hop)
  exact step_of_fetch_unknown hfetch

/-! ### The tag at the position of a walk -/

/-- Everything a walk in progress can fetch when the configuration is legal: the inbox waits. -/
theorem fetch_walk {s : State} {w : Walk} (hc : configLegal s.cfg = true) (hw : s.walk = some w) :
    fetch s = fetchTag w s := by
  simp only [fetch, hc, hw, if_true]

theorem fetchTag_run {w : Walk} {b : Byte} {i : Instr} (s : State) (hb : w.desc[w.pos]? = some b)
    (hd : decode (.tag b) = .ok i) : fetchTag w s = .run i s := by
  simp only [fetchTag, hb, hd]

/-- Settles O5: under a legal configuration a walk in progress is what the step fetches from, and its tag runs in the
state as it stands. -/
theorem stepRunsTheNextTag : Obligations.StepRunsTheNextTag := fun s _ _ _ hc hw hb hd =>
  step_of_fetch_run ((fetch_walk hc hw).trans (fetchTag_run s hb hd))

end Sys2Proof.Machine
end

section
/-! PROOF. The FCS (40_hdlc.md section 1): the shift of R100 is linear, and one-to-one when the generator's top bit is
set. So a register determines the byte that led to it, and one residue tells the good two last bytes from all others. -/

namespace Sys2Proof.Machine

/-! ### The shift of R100 -/

/-- One pass of the loop is linear: the generator enters when one, and only one, of the two low bits is set. -/
theorem fcsShift_xor (poly x y : Half) : fcsShift poly (x ^^^ y) = fcsShift poly x ^^^ fcsShift poly y := by
  have hcancel : x >>> 1 ^^^ poly ^^^ (y >>> 1 ^^^ poly) = x >>> 1 ^^^ y >>> 1 ^^^ (poly ^^^ poly) := by ac_rfl
  unfold fcsShift
  rw [BitVec.getLsbD_xor, BitVec.ushiftRight_xor_distrib]
  cases x.getLsbD 0 <;> cases y.getLsbD 0
  case false.false => rfl
  case false.true => exact BitVec.xor_assoc _ _ _
  case true.false => exact (show x >>> 1 ^^^ y >>> 1 ^^^ poly = x >>> 1 ^^^ poly ^^^ y >>> 1 by ac_rfl)
  case true.true => exact (hcancel.trans (by simp)).symm

theorem fcsShifts_xor (poly : Half) (n : Nat) (x y : Half) :
    fcsShifts poly n (x ^^^ y) = fcsShifts poly n x ^^^ fcsShifts poly n y := by
  induction n generalizing x y with
  | zero => rfl
  | succ n ih => simp only [fcsShifts, fcsShift_xor, ih]

theorem fcsShifts_add (poly : Half) (m n : Nat) (x : Half) :
    fcsShifts poly (m + n) x = fcsShifts poly n (fcsShifts poly m x) := by
  induction m generalizing x with
  | zero => simp [fcsShifts]
  | succ m ih => rw [Nat.succ_add, fcsShifts, fcsShifts, ih]

/-- While the low bits are zero the generator does not enter. -/
theorem fcsShifts_of_low_zero (poly : Half) (n : Nat) (x : Half) (h : ∀ i < n, x.getLsbD i = false) :
    fcsShifts poly n x = x >>> n := by
  induction n generalizing x with
  | zero => simp [fcsShifts]
  | succ n ih =>
    have hshift : fcsShift poly x = x >>> 1 := by
      simp only [fcsShift, h 0 (Nat.succ_pos n), Bool.false_eq_true, if_false]
    have hlow : ∀ i < n, (x >>> 1).getLsbD i = false := by
      intro i hi
      rw [BitVec.getLsbD_ushiftRight]
      exact h (1 + i) (by omega)
    rw [fcsShifts, hshift, ih _ hlow, ← BitVec.shiftRight_add, Nat.add_comm 1 n]

/-- Only zero shifts to zero: a generator that entered leaves its top bit set. -/
theorem fcsShift_eq_zero {poly x : Half} (hp : poly.msb = true) (h : fcsShift poly x = 0#16) : x = 0#16 := by
  unfold fcsShift at h
  split at h
  · have hmsb := congrArg BitVec.msb h
    simp [BitVec.msb_xor, hp] at hmsb
  · rename_i hbit
    have hodd : x.toNat % 2 = 0 := by
      simpa [BitVec.getLsbD, Nat.testBit_zero] using hbit
    have hhalf : x.toNat / 2 = 0 := by
      simpa [Nat.shiftRight_eq_div_pow] using congrArg BitVec.toNat h
    exact BitVec.eq_of_toNat_eq (by simp; omega)

theorem fcsShifts_eq_zero {poly : Half} (hp : poly.msb = true) {n : Nat} {x : Half} (h : fcsShifts poly n x = 0#16) :
    x = 0#16 := by
  induction n generalizing x with
  | zero => exact h
  | succ n ih => exact fcsShift_eq_zero hp (ih h)

/-- A linear map with nothing but zero in its kernel is one-to-one. -/
theorem fcsShifts_inj {poly : Half} (hp : poly.msb = true) {n : Nat} {x y : Half} :
    fcsShifts poly n x = fcsShifts poly n y ↔ x = y := by
  constructor
  · intro h
    have hzero : fcsShifts poly n (x ^^^ y) = 0#16 := by rw [fcsShifts_xor, h, BitVec.xor_self]
    exact BitVec.xor_eq_zero_iff.mp (fcsShifts_eq_zero hp hzero)
  · exact congrArg _

/-! ### A word and its two bytes (R9, R102) -/

/-- The word of two bytes on the wire, low byte first. -/
def wordOf (a b : Byte) : Half := a.setWidth 16 ^^^ (b.setWidth 16) <<< 8

theorem wordOf_lo8_hi8 (f : Half) : wordOf (lo8 f) (hi8 f) = f := by
  apply BitVec.eq_of_getLsbD_eq
  intro i hi
  by_cases h8 : i < 8
  · simp [wordOf, lo8, hi8, h8, hi]
  · simp [wordOf, lo8, hi8, h8, hi, show 8 + (i - 8) = i by omega, show i - 8 < 8 by omega]

theorem ushiftRight_eight (f : Half) : f >>> 8 = (hi8 f).setWidth 16 := by
  apply BitVec.eq_of_toNat_eq
  have hf := f.isLt
  simp [hi8, BitVec.extractLsb'_toNat, Nat.shiftRight_eq_div_pow]
  omega

/-- A byte above bit 8 is only moved down by eight shifts. -/
theorem fcsShifts_high_byte (poly : Half) (b : Byte) :
    fcsShifts poly 8 ((b.setWidth 16) <<< 8) = b.setWidth 16 := by
  have hlow : ∀ i < 8, ((b.setWidth 16 : Half) <<< 8).getLsbD i = false := fun i hi => by simp [hi]
  rw [fcsShifts_of_low_zero poly 8 _ hlow]
  apply BitVec.eq_of_toNat_eq
  have hb := b.isLt
  simp [Nat.shiftRight_eq_div_pow, Nat.shiftLeft_eq]
  omega

/-! ### The step of R101 is eight shifts -/

/-- Eight shifts move the high byte down and look up the low one. -/
theorem fcsShifts_eight (poly g : Half) : fcsShifts poly 8 g = (g >>> 8) ^^^ fcsTable poly (lo8 g) :=
  calc fcsShifts poly 8 g
      = fcsShifts poly 8 (wordOf (lo8 g) (hi8 g)) := by rw [wordOf_lo8_hi8]
    _ = fcsTable poly (lo8 g) ^^^ (hi8 g).setWidth 16 := by rw [wordOf, fcsShifts_xor, fcsShifts_high_byte, fcsTable]
    _ = (g >>> 8) ^^^ fcsTable poly (lo8 g) := by rw [ushiftRight_eight, BitVec.xor_comm]

/-- Settles O15: the byte is below bit 8, so it does not change what the step shifts down, and the rest is eight shifts
of the one register. -/
theorem fcsStepEqualsTheBitSerialForm : Obligations.FcsStepEqualsTheBitSerialForm := by
  intro c f b
  have hhigh : (f ^^^ b.setWidth 16) >>> 8 = f >>> 8 := by
    ext i hi
    simp
  rw [fcsStepSerial, fcsShifts_eight, hhigh, fcsStep, lo8]

/-! ### The residue (R104) -/

/-- Two bytes enter as one word: the second waits above bit 8 while the first is shifted out. -/
theorem fcsRun_pair (c : Config) (f : Half) (a b : Byte) :
    fcsRun c f [a, b] = fcsShifts c.fcsPoly 16 (f ^^^ wordOf a b) := by
  calc fcsRun c f [a, b]
      = fcsShifts c.fcsPoly 8 (fcsShifts c.fcsPoly 8 (f ^^^ a.setWidth 16) ^^^ b.setWidth 16) := by
        simp only [fcsRun, fcsStepEqualsTheBitSerialForm c, fcsStepSerial]
    _ = fcsShifts c.fcsPoly 8 (fcsShifts c.fcsPoly 8 (f ^^^ wordOf a b)) := by
        rw [wordOf, ← BitVec.xor_assoc, fcsShifts_xor _ 8 (f ^^^ a.setWidth 16), fcsShifts_high_byte]
    _ = fcsShifts c.fcsPoly 16 (f ^^^ wordOf a b) := (fcsShifts_add _ 8 8 _).symm

/-- What the register holds after a sequence and its FCS: the same for every sequence. -/
def fcsResidue (c : Config) : Half := fcsShifts c.fcsPoly 16 c.fcsXorout

/-- The register over a sequence cancels in its FCS. -/
theorem fcsRun_fcsBytes (c : Config) (p : List Byte) :
    fcsRun c c.fcsInit (p ++ fcsBytes (fcs16 c p)) = fcsResidue c := by
  rw [fcsRun_append, fcsBytes, fcsRun_pair, wordOf_lo8_hi8, fcs16, ← BitVec.xor_assoc, BitVec.xor_self,
    BitVec.zero_xor, fcsResidue]

/-- Settles O16: the residue of the default parameters is a fixed word. -/
theorem fcsResidueIsTheGoodFcs : Obligations.FcsResidueIsTheGoodFcs := by
  intro c p hpoly _ hxor
  have hword : fcsShifts 0x8408#16 16 0xFFFF#16 = 0xF0B8#16 := by simp [fcsShifts, fcsShift]
  calc fcsRun c c.fcsInit (p ++ fcsBytes (fcs16 c p))
      = fcsShifts c.fcsPoly 16 c.fcsXorout := fcsRun_fcsBytes c p
    _ = 0xF0B8#16 := by rw [hpoly, hxor, hword]

/-! ### Detection (R109) -/

/-- Two bytes that read as a word are its wire form (R102). -/
theorem eq_fcsBytes_of_fromLE {f : Half} {r : List Byte} (hr : r.length = 2) (h : f.toNat = fromLE r) :
    r = fcsBytes f :=
  fromLE_inj hr (h.symm.trans (fromLE_fcsBytes f).symm)

/-- A good FCS leaves the residue. -/
theorem fcsRun_of_good {c : Config} {p r : List Byte} (hr : r.length = 2) (h : (fcs16 c p).toNat = fromLE r) :
    fcsRun c c.fcsInit (p ++ r) = fcsResidue c := by
  rw [eq_fcsBytes_of_fromLE hr h, fcsRun_fcsBytes]

theorem setWidth_half_inj {v w : Byte} (h : v.setWidth 16 = (w.setWidth 16 : Half)) : v = w := by
  have hnat := congrArg BitVec.toNat h
  simp only [BitVec.toNat_setWidth] at hnat
  exact BitVec.eq_of_toNat_eq (by omega)

/-- With the generator's top bit set, registers that differ stay apart over the same byte, and two bytes drive one
register apart. -/
theorem fcsStep_eq_iff {c : Config} (hp : c.fcsPoly.msb = true) {f g : Half} {v w : Byte} :
    fcsStep c f v = fcsStep c g w ↔ f ^^^ v.setWidth 16 = g ^^^ w.setWidth 16 := by
  simp only [fcsStepEqualsTheBitSerialForm c, fcsStepSerial, fcsShifts_inj hp]

theorem fcsRun_inj {c : Config} (hp : c.fcsPoly.msb = true) {f g : Half} {s : List Byte}
    (h : fcsRun c f s = fcsRun c g s) : f = g := by
  induction s generalizing f g with
  | nil => exact h
  | cons b s ih => exact (BitVec.xor_left_inj _).mp ((fcsStep_eq_iff hp).mp (ih h))

/-- A changed byte changes the register over the whole sequence. -/
theorem fcsRun_changed_byte {c : Config} (hp : c.fcsPoly.msb = true) {f : Half} {before after : List Byte} {v w : Byte}
    (h : fcsRun c f (before ++ v :: after) = fcsRun c f (before ++ w :: after)) : v = w := by
  simp only [fcsRun_append, fcsRun] at h
  exact setWidth_half_inj ((BitVec.xor_right_inj _).mp ((fcsStep_eq_iff hp).mp (fcsRun_inj hp h)))

theorem flipBit_ne {v : Byte} {k : Nat} (hk : k < 8) : flipBit v k ≠ v := by
  intro h
  have hbit : (1#8 <<< k) = 0#8 := (BitVec.xor_right_inj _).mp (h.trans BitVec.xor_zero.symm)
  have hk' := congrArg (fun x => x.getLsbD k) hbit
  simp [hk] at hk'

/-- Settles O17: both sequences would leave the residue, yet the flip changes the register over the whole. -/
theorem fcsDetectsASingleFlippedBit : Obligations.FcsDetectsASingleFlippedBit := by
  intro c p before after p' r' v k hpoly hk hsent hgot hr hgood
  have hmsb : c.fcsPoly.msb = true := by rw [hpoly]; decide
  have hsame : fcsRun c c.fcsInit (before ++ flipBit v k :: after) = fcsRun c c.fcsInit (before ++ v :: after) := by
    rw [hgot, fcsRun_of_good hr hgood, ← hsent]
    exact (fcsRun_fcsBytes c p).symm
  exact flipBit_ne hk (fcsRun_changed_byte hmsb hsame)

end Sys2Proof.Machine
end

section
/-! PROOF. The HDLC encoder (40_hdlc.md sections 2 and 3): each operation by its guard, the frame put together byte by
byte, and the escape pairs of an encoded frame. -/

namespace Sys2Proof.Machine

/-! ### Lists of operations -/

@[simp] theorem hdlcTxBytes_nil : hdlcTxBytes [] = [] := rfl

@[simp] theorem hdlcTxBytes_cons (b : Byte) (bs : List Byte) :
    hdlcTxBytes (b :: bs) = .hdlcTxByte b :: hdlcTxBytes bs := rfl

/-- One operation is a list of one. -/
theorem execAll_singleton {i : Instr} {s t : State} (h : exec i s = .next t) : execAll [i] s = .next t :=
  (execAll_cons [] h).trans (execAll_nil t)

/-- The replies of a frame: one for its first operation, one for each of `n`, one for its last. -/
theorem replicate_around {α : Type} (n : Nat) (r : α) :
    List.replicate (n + 2) r = [r] ++ List.replicate n r ++ [r] := by
  rw [List.replicate_succ, List.replicate_succ']
  rfl

/-! ### The operations by their guards (R112 to R116) -/

theorem guard_pos {p : Prop} [Decidable p] {s : State} {st : Status} {x : StepResult} (hp : p) :
    (if p then replyStatus s st else x) = .next (s.respond (.status st)) :=
  if_pos hp

theorem exec_hdlcTxFrame_accepted {p : List Byte} {s : State} (hs : s.tx.state = .idle)
    (hp : p.length ≤ s.cfg.maxFrame) :
    exec (.hdlcTxFrame p) s = .next ((s.emitH (hdlcEncode s.cfg p)).respond (.status .ok)) :=
  (if_neg (TxState.ne_open_iff.mpr hs)).trans (if_neg (Nat.not_lt.mpr hp))

theorem exec_hdlcTxBegin_idle {s : State} (hs : s.tx.state = .idle) :
    exec .hdlcTxBegin s =
      .next (((s.emitH [s.cfg.hdlcFlag]).setTx ⟨.open, s.cfg.fcsInit, 0⟩).respond (.status .ok)) :=
  if_neg (TxState.ne_open_iff.mpr hs)

theorem exec_hdlcTxByte_open {b : Byte} {s : State} (hs : s.tx.state = .open)
    (hroom : s.tx.count ≠ s.cfg.maxFrame) :
    exec (.hdlcTxByte b) s =
      .next (((s.emitH (escByte s.cfg b)).setTx ⟨.open, fcsStep s.cfg s.tx.fcs b, s.tx.count + 1⟩).respond
        (.status .ok)) :=
  hs ▸ (if_neg (TxState.ne_idle_iff.mpr hs)).trans (if_neg hroom)

theorem exec_hdlcTxEnd_open {s : State} (hs : s.tx.state = .open) :
    exec .hdlcTxEnd s =
      .next (((s.emitH (escByte s.cfg (lo8 (s.tx.fcs ^^^ s.cfg.fcsXorout)) ++
        escByte s.cfg (hi8 (s.tx.fcs ^^^ s.cfg.fcsXorout)) ++ [s.cfg.hdlcFlag])).setTx (txIdle s.cfg)).respond
        (.status .ok)) :=
  if_neg (TxState.ne_idle_iff.mpr hs)

theorem exec_hdlcTxAbort_open {s : State} (hs : s.tx.state = .open) :
    exec .hdlcTxAbort s = .next (((s.emitH (abortBytes s.cfg)).setTx (txIdle s.cfg)).respond (.status .ok)) :=
  if_neg (TxState.ne_idle_iff.mpr hs)

/-- Settles O8: the two guards in their order, and the frame when neither holds. -/
theorem hdlcTxFrameEmitsTheEncodedFrame : Obligations.HdlcTxFrameEmitsTheEncodedFrame := fun _ _ =>
  ⟨rfl, guard_pos, fun hs hlen => (if_neg (TxState.ne_open_iff.mpr hs)).trans (guard_pos hlen),
    exec_hdlcTxFrame_accepted⟩

/-- Settles O9: an open frame stops it at its guard. -/
theorem hdlcTxBeginOpensAFrame : Obligations.HdlcTxBeginOpensAFrame :=
  ⟨rfl, fun _ => ⟨guard_pos, exec_hdlcTxBegin_idle⟩⟩

/-- Settles O10: the two guards in their order, and the byte when neither holds. -/
theorem hdlcTxByteFeedsTheOpenFrame : Obligations.HdlcTxByteFeedsTheOpenFrame := fun _ _ =>
  ⟨rfl, guard_pos, fun hs hfull => (if_neg (TxState.ne_idle_iff.mpr hs)).trans (guard_pos hfull),
    exec_hdlcTxByte_open⟩

/-- Settles O11: without an open frame it stops at its guard. -/
theorem hdlcTxEndClosesTheFrame : Obligations.HdlcTxEndClosesTheFrame :=
  ⟨rfl, fun _ => ⟨guard_pos, exec_hdlcTxEnd_open⟩⟩

/-- Settles O12: without an open frame it stops at its guard. -/
theorem hdlcTxAbortAbandonsTheFrame : Obligations.HdlcTxAbortAbandonsTheFrame :=
  ⟨rfl, fun _ => ⟨guard_pos, exec_hdlcTxAbort_open⟩⟩

/-! ### Byte by byte (R117) -/

/-- An open frame that has taken the bytes `p` more, each answered with `OK`. -/
def State.txFed (s : State) (p : List Byte) : State :=
  { s with
    hOut := s.hOut ++ escBytes s.cfg p
    tx := ⟨.open, fcsRun s.cfg s.tx.fcs p, s.tx.count + p.length⟩
    replies := s.replies ++ List.replicate p.length (.status .ok) }

/-- While there is room, every payload byte is taken. -/
theorem execAll_hdlcTxBytes {p : List Byte} {s : State} (hs : s.tx.state = .open)
    (hroom : s.tx.count + p.length ≤ s.cfg.maxFrame) : execAll (hdlcTxBytes p) s = .next (s.txFed p) := by
  induction p generalizing s with
  | nil => simp [State.txFed, fcsRun, ← hs]
  | cons b p ih =>
    rw [List.length_cons] at hroom
    rw [hdlcTxBytes_cons, execAll_cons _ (exec_hdlcTxByte_open hs (by omega)), ih rfl (by simp; omega)]
    simp [State.txFed, State.emitH, State.setTx, State.respond, fcsRun, List.replicate_succ, Nat.add_assoc,
      Nat.add_comm 1]

/-- Settles O13: begin emits the flag, the bytes run the register and are escaped one by one, and end adds the FCS of
that register. -/
theorem incrementalFrameEqualsWholeFrame : Obligations.IncrementalFrameEqualsWholeFrame := by
  intro p s hs hp
  refine ⟨?_, exec_hdlcTxFrame_accepted hs hp⟩
  rw [List.append_assoc, List.singleton_append, execAll_cons _ (exec_hdlcTxBegin_idle hs),
    execAll_append _ (execAll_hdlcTxBytes rfl (by simpa using hp)), execAll_singleton (exec_hdlcTxEnd_open rfl)]
  simp [State.txFed, State.emitH, State.setTx, State.respond, hdlcEncode, txIdle, fcs16, fcsBytes, replicate_around]

/-! ### Escape pairs (R105, R131) -/

theorem mem_escapeSet_iff {c : Config} (hstd : configStandard c) {v : Byte} :
    v ∈ c.escapeSet ↔ v ∈ reservedOctets c := by
  obtain ⟨hset, -, -⟩ := hstd
  exact hset v

/-- R8 (b): the escaped form of an escaped octet is not reserved. -/
theorem escaped_not_mem {c : Config} (hlegal : configLegal c = true) {v : Byte} (hv : v ∈ c.escapeSet) :
    v ^^^ c.escXor ∉ c.escapeSet := by
  obtain ⟨-, hescaped, -⟩ := (configLegal_iff c).mp hlegal
  exact hescaped v hv

theorem escBytes_eq_flatten (c : Config) (s : List Byte) : escBytes c s = (s.map (escByte c)).flatten := by
  induction s with
  | nil => rfl
  | cons v s ih => rw [escBytes_cons, ih, List.map_cons, List.flatten_cons]

/-- Settles O14: the units are the escaped forms of the single bytes. -/
theorem encodedFrameHoldsNoFalseFlag : Obligations.EncodedFrameHoldsNoFalseFlag := by
  intro c p hlegal hstd
  refine ⟨(p ++ fcsBytes (fcs16 c p)).map (escByte c), by rw [hdlcEncode, escBytes_eq_flatten], fun u hu => ?_⟩
  obtain ⟨v, -, rfl⟩ := List.mem_map.mp hu
  rcases escByte_spec c v with ⟨hv, he⟩ | ⟨hv, he⟩
  · exact .inr ⟨_, he, (mem_escapeSet_iff hstd).not.mp (escaped_not_mem hlegal hv)⟩
  · exact .inl ⟨_, he, (mem_escapeSet_iff hstd).not.mp hv⟩

end Sys2Proof.Machine
end

section
/-! PROOF. The HDLC decoder byte by byte (40_hdlc.md section 4): what HDLC_RX_BYTE does in each cell of R120's table. -/

namespace Sys2Proof.Machine

/-! ### The cells of R120's table -/

theorem octetClass_flag (c : Config) : octetClass c c.hdlcFlag = .flag := if_pos rfl

theorem octetClass_esc {c : Config} (h : c.hdlcEsc ≠ c.hdlcFlag) : octetClass c c.hdlcEsc = .esc :=
  (if_neg h).trans (if_pos rfl)

theorem octetClass_data {c : Config} {b : Byte} (hf : b ≠ c.hdlcFlag) (he : b ≠ c.hdlcEsc) : octetClass c b = .data :=
  (if_neg hf).trans (if_neg he)

/-- A byte whose cell is defined is taken, and the reply is `OK` (R129). -/
theorem exec_hdlcRxByte {b : Byte} {s t : State} (h : rxByte b s = some t) :
    exec (.hdlcRxByte b) s = .next (t.respond (.status .ok)) := by
  simp only [exec, execHdlcRxByte, h, replyStatus]

/-- R121: a hunting decoder drops what is no flag. -/
theorem exec_hdlcRxByte_hunt {b : Byte} {s : State} (hs : s.rx.state = .hunt) (hb : b ≠ s.cfg.hdlcFlag) :
    exec (.hdlcRxByte b) s = .next (s.respond (.status .ok)) := by
  refine exec_hdlcRxByte ?_
  rcases octetClass_spec s.cfg b with ⟨-, hflag⟩ | ⟨hc, -⟩ | ⟨hc, -⟩
  · exact absurd hflag hb
  · simp only [rxByte, hs, hc]
  · simp only [rxByte, hs, hc]

/-- R123: an escape octet in RX_DATA waits for its partner. -/
theorem exec_hdlcRxByte_data_esc {s : State} (hs : s.rx.state = .data) (hne : s.cfg.hdlcEsc ≠ s.cfg.hdlcFlag) :
    exec (.hdlcRxByte s.cfg.hdlcEsc) s =
      .next ((s.setRx ⟨.esc, s.rx.len, s.rx.buf⟩).respond (.status .ok)) :=
  exec_hdlcRxByte (by simp only [rxByte, hs, octetClass_esc hne])

/-- R124: a data byte in RX_DATA is appended. -/
theorem exec_hdlcRxByte_data {b : Byte} {s : State} (hs : s.rx.state = .data) (hf : b ≠ s.cfg.hdlcFlag)
    (he : b ≠ s.cfg.hdlcEsc) : exec (.hdlcRxByte b) s = .next ((rxAppend b s).respond (.status .ok)) :=
  exec_hdlcRxByte (by simp only [rxByte, hs, octetClass_data hf he])

/-- R126: the partner of an escape octet is un-escaped and appended. -/
theorem exec_hdlcRxByte_esc {w : Byte} {s : State} (hs : s.rx.state = .esc) (hf : w ≠ s.cfg.hdlcFlag) :
    exec (.hdlcRxByte w) s = .next ((rxAppend (w ^^^ s.cfg.escXor) s).respond (.status .ok)) := by
  refine exec_hdlcRxByte ?_
  rcases octetClass_spec s.cfg w with ⟨-, hflag⟩ | ⟨hc, -⟩ | ⟨hc, -⟩
  · exact absurd hflag hf
  · simp only [rxByte, hs, hc]
  · simp only [rxByte, hs, hc]

theorem rxAppend_of_room {v : Byte} {s : State} (h : s.rx.len < s.cfg.hdlcRxCap) :
    rxAppend v s = s.setRx ⟨.data, s.rx.len + 1, Buffer.write s.rx.buf s.rx.len v⟩ :=
  if_pos h

theorem rxAppend_of_full {v : Byte} {s : State} (h : s.cfg.hdlcRxCap ≤ s.rx.len) :
    rxAppend v s = (s.post (.hdlcDiscard .overflow)).setRx ⟨.hunt, 0, s.rx.buf⟩ :=
  if_neg (Nat.not_lt.mpr h)

/-! ### The flag (R121, R122, R125) -/

/-- What a flag posts: it closes what RX_DATA holds and discards what waits for an escape's partner. -/
def flagEvents (s : State) : List Event :=
  match s.rx.state, s.rx.len with
  | .hunt, _ => []
  | .esc, _ => [.hdlcDiscard .abort]
  | .data, 0 => []
  | .data, 1 => [.hdlcDiscard .short]
  | .data, n + 2 => [closeEvent s.cfg (Buffer.readFrom s.rx.buf 0 n) (Buffer.readFrom s.rx.buf n 2)]

theorem flagEvents_hunt {s : State} (h : s.rx.state = .hunt) : flagEvents s = [] := by
  simp only [flagEvents, h]

theorem flagEvents_esc {s : State} (h : s.rx.state = .esc) : flagEvents s = [.hdlcDiscard .abort] := by
  simp only [flagEvents, h]

theorem flagEvents_empty {s : State} (h : s.rx.state = .data) (hlen : s.rx.len = 0) : flagEvents s = [] := by
  simp only [flagEvents, h, hlen]

theorem flagEvents_short {s : State} (h : s.rx.state = .data) (hlen : s.rx.len = 1) :
    flagEvents s = [.hdlcDiscard .short] := by
  simp only [flagEvents, h, hlen]

theorem flagEvents_close {s : State} {n : Nat} (h : s.rx.state = .data) (hlen : s.rx.len = n + 2) :
    flagEvents s = [closeEvent s.cfg (Buffer.readFrom s.rx.buf 0 n) (Buffer.readFrom s.rx.buf n 2)] := by
  simp only [flagEvents, h, hlen]

theorem flagEvents_length (s : State) : (flagEvents s).length ≤ 1 := by
  unfold flagEvents
  split <;> simp

/-- A flag has been taken: what it posts, and an open frame with nothing stored. -/
def State.flagged (s : State) : State :=
  { s with evq := s.evq ++ flagEvents s, rx := ⟨.data, 0, s.rx.buf⟩, replies := s.replies ++ [.status .ok] }

/-- In every state a flag ends what there is and opens the next frame; in RX_DATA where `Close()` is defined. -/
theorem exec_hdlcRxByte_flag_of_close {s : State} (h : s.rx.state = .data → ∃ t, rxClose s = some t) :
    exec (.hdlcRxByte s.cfg.hdlcFlag) s = .next s.flagged := by
  cases hs : s.rx.state with
  | hunt =>
    have hrx : rxByte s.cfg.hdlcFlag s = some (s.setRx ⟨.data, 0, s.rx.buf⟩) := by
      simp only [rxByte, hs, octetClass_flag]
    rw [exec_hdlcRxByte hrx, State.flagged, flagEvents_hunt hs, List.append_nil]
    rfl
  | esc =>
    have hrx : rxByte s.cfg.hdlcFlag s = some ((s.post (.hdlcDiscard .abort)).setRx ⟨.data, 0, s.rx.buf⟩) := by
      simp only [rxByte, hs, octetClass_flag]
    rw [exec_hdlcRxByte hrx, State.flagged, flagEvents_esc hs]
    rfl
  | data =>
    obtain ⟨t, hclose⟩ := h hs
    rw [exec_hdlcRxByte ((rxByte_flag_of_data hs).trans hclose), State.flagged]
    rcases rxClose_spec hclose with ⟨hlen, rfl⟩ | ⟨hlen, rfl⟩ | ⟨hlen, -, rfl⟩
    · rw [flagEvents_empty hs hlen, List.append_nil]
      rfl
    · rw [flagEvents_short hs hlen]
      rfl
    · rw [flagEvents_close hs (show s.rx.len = s.rx.len - 2 + 2 by omega)]
      rfl

theorem exec_hdlcRxByte_flag {s : State} (h : s.rx.len ≤ s.cfg.hdlcRxCap) :
    exec (.hdlcRxByte s.cfg.hdlcFlag) s = .next s.flagged :=
  exec_hdlcRxByte_flag_of_close fun _ => rxClose_defined h

/-- A flag that does not fault leaves nothing else. -/
theorem exec_hdlcRxByte_flag_next {s t : State} (h : exec (.hdlcRxByte s.cfg.hdlcFlag) s = .next t) :
    t = s.flagged := by
  obtain ⟨u, hu, -⟩ := execHdlcRxByte_next h
  have hflag := exec_hdlcRxByte_flag_of_close fun hs => ⟨u, rxByte_flag_of_data hs ▸ hu⟩
  injection h.symm.trans hflag

/-! ### The statements about one byte -/

/-- Settles O18: a flag in RX_HUNT posts nothing, and any other byte is dropped. -/
theorem huntIgnoresAllButAFlag : Obligations.HuntIgnoresAllButAFlag := by
  intro b s hs
  refine ⟨?_, exec_hdlcRxByte_hunt hs⟩
  rintro rfl
  rw [exec_hdlcRxByte_flag_of_close (by simp [hs]), State.flagged, flagEvents_hunt hs, List.append_nil]

/-- Settles O19: what the flag posts, by the number of stored bytes. -/
theorem flagClosesTheFrame : Obligations.FlagClosesTheFrame := by
  intro s hs hcap
  rw [exec_hdlcRxByte_flag hcap, State.flagged]
  refine ⟨fun hlen => ?_, fun hlen => ?_, ?_⟩
  · rw [flagEvents_empty hs hlen, List.append_nil]
  · rw [flagEvents_short hs hlen]
  · rintro _ _ hlen rfl rfl
    rw [flagEvents_close hs (show s.rx.len = s.rx.len - 2 + 2 by omega)]
    rfl

/-- Settles O20: the escape octet waits, and a flag finds it waiting. -/
theorem escapeStaysPendingUntilItsPartner : Obligations.EscapeStaysPendingUntilItsPartner := by
  intro s
  refine ⟨exec_hdlcRxByte_data_esc, fun hs => ?_⟩
  rw [exec_hdlcRxByte_flag_of_close (by simp [hs]), State.flagged, flagEvents_esc hs]

/-- What `Append` leaves, by the room there is (R127): one index written, or the frame given up. -/
theorem rxAppend_stores_or_overflows {b v : Byte} {s : State}
    (hexec : exec (.hdlcRxByte b) s = .next ((rxAppend v s).respond (.status .ok))) (hwf : Buffer.wf s.rx.buf = true) :
    (s.rx.len < s.cfg.hdlcRxCap →
      ∃ buf : Buffer,
        (∀ j, Buffer.read buf j = if j = s.rx.len then v else Buffer.read s.rx.buf j) ∧
        exec (.hdlcRxByte b) s =
          .next ((s.setRx ⟨.data, s.rx.len + 1, buf⟩).respond (.status .ok))) ∧
    (s.cfg.hdlcRxCap ≤ s.rx.len →
      exec (.hdlcRxByte b) s =
        .next (((s.post (.hdlcDiscard .overflow)).setRx ⟨.hunt, 0, s.rx.buf⟩).respond (.status .ok))) := by
  rw [hexec]
  exact ⟨fun hroom => ⟨_, Buffer.read_write hwf, by rw [rxAppend_of_room hroom]⟩,
    fun hfull => by rw [rxAppend_of_full hfull]⟩

/-- Settles O21: the byte itself is appended. -/
theorem dataByteIsStoredOrOverflows : Obligations.DataByteIsStoredOrOverflows := fun _ _ hs hf he hwf =>
  rxAppend_stores_or_overflows (exec_hdlcRxByte_data hs hf he) hwf

/-- Settles O22: the un-escaped byte is appended. -/
theorem escapedByteIsUnescaped : Obligations.EscapedByteIsUnescaped := fun _ _ hs hf hwf =>
  rxAppend_stores_or_overflows (exec_hdlcRxByte_esc hs hf) hwf

end Sys2Proof.Machine
end

section
/-! PROOF. The HDLC decoder over rows of bytes (40_hdlc.md sections 4 and 5): what a body without a flag un-escapes
to is what the buffer holds after it, and so what the closing flag judges. -/

namespace Sys2Proof.Machine

/-! ### Un-escaping (R105, R123, R126) -/

theorem unescape_lone {c : Config} {b : Byte} (h : b ≠ c.hdlcEsc) (rest : List Byte) :
    unescape c (b :: rest) = (unescape c rest).map (b :: ·) := by
  rw [unescape.eq_def]
  exact if_neg h

theorem unescape_pair (c : Config) (w : Byte) (rest : List Byte) :
    unescape c (c.hdlcEsc :: w :: rest) = (unescape c rest).map ((w ^^^ c.escXor) :: ·) := by
  simp [unescape]

theorem unescape_pending (c : Config) : unescape c [c.hdlcEsc] = none := by
  simp [unescape]

/-- Un-escaping goes on behind bytes that leave no escape octet pending. -/
theorem unescape_append {c : Config} {a b x y : List Byte} (ha : unescape c a = some x) (hb : unescape c b = some y) :
    unescape c (a ++ b) = some (x ++ y) := by
  induction a using unescape.induct (c := c) generalizing x with
  | case1 =>
    obtain rfl : [] = x := Option.some.inj ha
    exact hb
  | case2 => simp [unescape_pending] at ha
  | case3 w rest ih =>
    rw [unescape_pair] at ha
    obtain ⟨x', hx', rfl⟩ := Option.map_eq_some_iff.mp ha
    rw [List.cons_append, List.cons_append, unescape_pair, ih hx']
    rfl
  | case4 v rest hv ih =>
    rw [unescape_lone hv] at ha
    obtain ⟨x', hx', rfl⟩ := Option.map_eq_some_iff.mp ha
    rw [List.cons_append, unescape_lone hv, ih hx']
    rfl

theorem hdlcEsc_mem_escapeSet {c : Config} (hstd : configStandard c) : c.hdlcEsc ∈ c.escapeSet :=
  (mem_escapeSet_iff hstd).mpr (by simp [reservedOctets])

theorem hdlcFlag_mem_escapeSet {c : Config} (hstd : configStandard c) : c.hdlcFlag ∈ c.escapeSet :=
  (mem_escapeSet_iff hstd).mpr (by simp [reservedOctets])

theorem hdlcEsc_ne_hdlcFlag {c : Config} (hlegal : configLegal c = true) : c.hdlcEsc ≠ c.hdlcFlag := by
  obtain ⟨hdistinct, -⟩ := (configLegal_iff c).mp hlegal
  simp only [reservedOctets, List.nodup_cons, List.mem_cons, not_or] at hdistinct
  obtain ⟨⟨hne, -⟩, -⟩ := hdistinct
  exact Ne.symm hne

/-- `HDLC_ESC` leaves a pair of its own, so no escaped byte begins one by chance. -/
theorem unescape_escByte {c : Config} (hstd : configStandard c) (v : Byte) : unescape c (escByte c v) = some [v] := by
  rcases escByte_spec c v with ⟨-, he⟩ | ⟨hv, he⟩
  · rw [he, unescape_pair, BitVec.xor_assoc, BitVec.xor_self, BitVec.xor_zero]
    rfl
  · have hne : v ≠ c.hdlcEsc := by
      rintro rfl
      exact hv (hdlcEsc_mem_escapeSet hstd)
    rw [he, unescape_lone hne]
    rfl

theorem unescape_escBytes {c : Config} (hstd : configStandard c) (s : List Byte) :
    unescape c (escBytes c s) = some s := by
  induction s with
  | nil => rfl
  | cons v s ih => exact unescape_append (unescape_escByte hstd v) ih

/-- R131: escaped bytes hold no flag. -/
theorem hdlcFlag_not_mem_escBytes {c : Config} (hlegal : configLegal c = true) (hstd : configStandard c)
    (s : List Byte) : c.hdlcFlag ∉ escBytes c s := by
  have hflag := hdlcFlag_mem_escapeSet hstd
  induction s with
  | nil => exact List.not_mem_nil
  | cons v s ih =>
    rw [escBytes_cons, List.mem_append, not_or]
    refine ⟨?_, ih⟩
    rcases escByte_spec c v with ⟨hv, he⟩ | ⟨hv, he⟩ <;> rw [he]
    · simp only [List.mem_cons, List.not_mem_nil, or_false, not_or]
      exact ⟨(hdlcEsc_ne_hdlcFlag hlegal).symm, fun h => escaped_not_mem hlegal hv (h ▸ hflag)⟩
    · simp only [List.mem_cons, List.not_mem_nil, or_false]
      rintro rfl
      exact hv hflag

/-! ### Storing a row of bytes (R127) -/

/-- The buffer after the bytes are written one after the other from index `i` on. -/
def Buffer.storeFrom : Buffer → Nat → List Byte → Buffer
  | m, _, [] => m
  | m, i, b :: bs => Buffer.storeFrom (Buffer.write m i b) (i + 1) bs

theorem Buffer.storeFrom_wf {m : Buffer} (hm : Buffer.wf m = true) (i : Nat) (bs : List Byte) :
    Buffer.wf (Buffer.storeFrom m i bs) = true := by
  induction bs generalizing m i with
  | nil => exact hm
  | cons b bs ih => exact ih (Buffer.write_wf hm) (i + 1)

theorem Buffer.read_storeFrom_below {m : Buffer} (hm : Buffer.wf m = true) {i j : Nat} (bs : List Byte) (h : j < i) :
    Buffer.read (Buffer.storeFrom m i bs) j = Buffer.read m j := by
  induction bs generalizing m i with
  | nil => rfl
  | cons b bs ih =>
    rw [Buffer.storeFrom, ih (Buffer.write_wf hm) (by omega), Buffer.read_write hm, if_neg (by omega)]

/-- What was stored is what is read back. -/
theorem Buffer.readFrom_storeFrom {m : Buffer} (hm : Buffer.wf m = true) (i : Nat) (bs : List Byte) :
    Buffer.readFrom (Buffer.storeFrom m i bs) i bs.length = bs := by
  induction bs generalizing m i with
  | nil => rfl
  | cons b bs ih =>
    have hwrite := Buffer.write_wf (i := i) (v := b) hm
    rw [Buffer.storeFrom, List.length_cons, Buffer.readFrom, Buffer.read_storeFrom_below hwrite bs (Nat.lt_succ_self i),
      Buffer.read_write hm, if_pos rfl, ih hwrite]

theorem Buffer.readFrom_add (m : Buffer) (i n k : Nat) :
    Buffer.readFrom m i (n + k) = Buffer.readFrom m i n ++ Buffer.readFrom m (i + n) k := by
  induction n generalizing i with
  | zero => simp [Buffer.readFrom]
  | succ n ih =>
    rw [Nat.succ_add, Buffer.readFrom, Buffer.readFrom, ih, List.cons_append, Nat.add_right_comm, Nat.add_assoc]

/-- What was stored is read back in two parts. -/
theorem Buffer.readFrom_storeFrom_append {m : Buffer} (hm : Buffer.wf m = true) (x r : List Byte) :
    Buffer.readFrom (Buffer.storeFrom m 0 (x ++ r)) 0 x.length = x ∧
      Buffer.readFrom (Buffer.storeFrom m 0 (x ++ r)) x.length r.length = r := by
  have hall := Buffer.readFrom_storeFrom hm 0 (x ++ r)
  rw [List.length_append, Buffer.readFrom_add, Nat.zero_add] at hall
  exact List.append_inj hall (Buffer.readFrom_length ..)

/-! ### A body without a flag -/

@[simp] theorem hdlcRxBytes_nil : hdlcRxBytes [] = [] := rfl

@[simp] theorem hdlcRxBytes_cons (b : Byte) (bs : List Byte) :
    hdlcRxBytes (b :: bs) = .hdlcRxByte b :: hdlcRxBytes bs := rfl

@[simp] theorem hdlcRxBytes_append (as bs : List Byte) : hdlcRxBytes (as ++ bs) = hdlcRxBytes as ++ hdlcRxBytes bs :=
  List.map_append

/-- A concatenation feeds its second part to the decoder that the first part left. -/
theorem execAll_hdlcRxBytes_append {as : List Byte} {s t : State} (bs : List Byte)
    (h : execAll (hdlcRxBytes as) s = .next t) :
    execAll (hdlcRxBytes (as ++ bs)) s = execAll (hdlcRxBytes bs) t := by
  rw [hdlcRxBytes_append, execAll_append _ h]

/-- In RX_DATA, the bytes `e` more are stored, and `n` wire bytes have been answered with `OK`. -/
def State.stored (s : State) (e : List Byte) (n : Nat) : State :=
  { s with
    rx := ⟨.data, s.rx.len + e.length, Buffer.storeFrom s.rx.buf s.rx.len e⟩
    replies := s.replies ++ List.replicate n (.status .ok) }

@[simp] theorem State.stored_cfg (s : State) (e : List Byte) (n : Nat) : (s.stored e n).cfg = s.cfg := rfl
@[simp] theorem State.stored_evq (s : State) (e : List Byte) (n : Nat) : (s.stored e n).evq = s.evq := rfl
@[simp] theorem State.stored_state (s : State) (e : List Byte) (n : Nat) : (s.stored e n).rx.state = .data := rfl
@[simp] theorem State.stored_len (s : State) (e : List Byte) (n : Nat) :
    (s.stored e n).rx.len = s.rx.len + e.length := rfl

theorem State.stored_nil {s : State} (h : s.rx.state = .data) : s.stored [] 0 = s := by
  simp [State.stored, Buffer.storeFrom, ← h]

theorem State.stored_cons (s : State) (v : Byte) (e : List Byte) (m n : Nat) :
    (s.stored [v] m).stored e n = s.stored (v :: e) (m + n) := by
  simp [State.stored, Buffer.storeFrom, Nat.add_assoc, Nat.add_comm 1]

/-- A hunting decoder drops a body without a flag. -/
theorem execAll_hunt {body : List Byte} {s : State} (hs : s.rx.state = .hunt) (hf : s.cfg.hdlcFlag ∉ body) :
    ∃ t, execAll (hdlcRxBytes body) s = .next t ∧ t.rx.state = .hunt := by
  induction body generalizing s with
  | nil => exact ⟨s, rfl, hs⟩
  | cons b body ih =>
    rw [List.mem_cons, not_or] at hf
    obtain ⟨hb, hbody⟩ := hf
    rw [hdlcRxBytes_cons, execAll_cons _ (exec_hdlcRxByte_hunt hs (Ne.symm hb))]
    exact ih hs hbody

/-- `n` wire bytes have been answered with `OK` and none of them is stored. -/
def State.waiting (s : State) (st : RxState) (n : Nat) : State :=
  { s with
    rx := ⟨st, s.rx.len, s.rx.buf⟩
    replies := s.replies ++ List.replicate n (.status .ok) }

theorem State.waiting_data {s : State} (h : s.rx.state = .data) : s.waiting .data 0 = s := by
  simp [State.waiting, ← h]

theorem rxAppend_waiting_of_room {s : State} (h : s.rx.len < s.cfg.hdlcRxCap) (v : Byte) (st : RxState) (n : Nat) :
    (rxAppend v (s.waiting st n)).respond (.status .ok) = s.stored [v] (n + 1) := by
  rw [rxAppend_of_room (s := s.waiting st n) h]
  simp [State.waiting, State.stored, State.setRx, State.respond, Buffer.storeFrom, List.replicate_succ']

theorem rxAppend_waiting_of_full {s : State} (h : s.cfg.hdlcRxCap ≤ s.rx.len) (v : Byte) (st : RxState) (n : Nat) :
    (rxAppend v (s.waiting st n)).cfg = s.cfg ∧ (rxAppend v (s.waiting st n)).rx.state = .hunt := by
  rw [rxAppend_of_full (s := s.waiting st n) h]
  exact ⟨rfl, rfl⟩

/-- A decoder in RX_DATA takes a body without a flag: it stores what the body un-escapes to, or it is no longer in
RX_DATA, because an escape octet has no partner or the buffer could not hold that much. -/
def TakesBody (s : State) (body : List Byte) : Prop :=
  ∃ t, execAll (hdlcRxBytes body) s = .next t ∧
    ((∃ e, unescape s.cfg body = some e ∧ s.rx.len + e.length ≤ s.cfg.hdlcRxCap ∧ t = s.stored e body.length) ∨
      (t.rx.state ≠ .data ∧ ∀ e, unescape s.cfg body = some e → s.cfg.hdlcRxCap < s.rx.len + e.length))

/-- `front` are the wire bytes of one decoded byte `v`: when `v` fits, the body goes on behind it, and when it does not,
the rest is dropped. -/
theorem TakesBody.of_front {s : State} {front rest : List Byte} {v : Byte} {st : RxState} {n : Nat}
    (hfront : front.length = n + 1)
    (hrun : execAll (hdlcRxBytes front) s = .next ((rxAppend v (s.waiting st n)).respond (.status .ok)))
    (hun : unescape s.cfg (front ++ rest) = (unescape s.cfg rest).map (v :: ·)) (hf : s.cfg.hdlcFlag ∉ rest)
    (ih : s.rx.len < s.cfg.hdlcRxCap → TakesBody (s.stored [v] (n + 1)) rest) : TakesBody s (front ++ rest) := by
  rcases Nat.lt_or_ge s.rx.len s.cfg.hdlcRxCap with hroom | hfull
  · obtain ⟨t, ht, hcases⟩ := ih hroom
    rw [rxAppend_waiting_of_room hroom] at hrun
    refine ⟨t, (execAll_hdlcRxBytes_append rest hrun).trans ht, ?_⟩
    rcases hcases with ⟨e, he, hfit, rfl⟩ | ⟨hstate, hover⟩
    · refine .inl ⟨v :: e, hun.trans (congrArg (Option.map (v :: ·)) he), ?_, ?_⟩
      · simpa [Nat.add_assoc, Nat.add_comm 1] using hfit
      · rw [State.stored_cons, List.length_append, hfront]
    · refine .inr ⟨hstate, fun x hx => ?_⟩
      obtain ⟨e, he, rfl⟩ := Option.map_eq_some_iff.mp (hun.symm.trans hx)
      simpa [Nat.add_assoc, Nat.add_comm 1] using hover e he
  · obtain ⟨hcfg, hhunt⟩ := rxAppend_waiting_of_full hfull v st n
    obtain ⟨t, ht, hstate⟩ := execAll_hunt (s := (rxAppend v (s.waiting st n)).respond (.status .ok)) hhunt
      (hcfg.symm ▸ hf)
    refine ⟨t, (execAll_hdlcRxBytes_append rest hrun).trans ht, .inr ⟨by simp [hstate], fun x hx => ?_⟩⟩
    obtain ⟨e, -, rfl⟩ := Option.map_eq_some_iff.mp (hun.symm.trans hx)
    rw [List.length_cons]
    omega

/-- Every body without a flag, by the cases of `unescape`: an escape octet takes the byte after it, any other byte is
stored as it is. -/
theorem takesBody {body : List Byte} {s : State} (hne : s.cfg.hdlcEsc ≠ s.cfg.hdlcFlag) (hs : s.rx.state = .data)
    (hlen : s.rx.len ≤ s.cfg.hdlcRxCap) (hf : s.cfg.hdlcFlag ∉ body) : TakesBody s body := by
  obtain ⟨c, hc⟩ : ∃ c, s.cfg = c := ⟨_, rfl⟩
  induction body using unescape.induct (c := c) generalizing s with
  | case1 => exact ⟨s, rfl, .inl ⟨[], rfl, hlen, (State.stored_nil hs).symm⟩⟩
  | case2 =>
    subst hc
    refine ⟨_, execAll_singleton (exec_hdlcRxByte_data_esc hs hne), .inr ⟨nofun, fun e he => ?_⟩⟩
    simp [unescape_pending] at he
  | case3 w rest ih =>
    subst hc
    simp only [List.mem_cons, not_or] at hf
    obtain ⟨-, hw, hrest⟩ := hf
    have hpair : execAll (hdlcRxBytes [s.cfg.hdlcEsc, w]) s =
        .next ((rxAppend (w ^^^ s.cfg.escXor) (s.waiting .esc 1)).respond (.status .ok)) :=
      (execAll_cons _ (exec_hdlcRxByte_data_esc hs hne)).trans
        (execAll_singleton (exec_hdlcRxByte_esc rfl (Ne.symm hw)))
    exact TakesBody.of_front (front := [s.cfg.hdlcEsc, w]) rfl hpair (unescape_pair s.cfg w rest) hrest
      fun hroom => ih hne rfl hroom hrest rfl
  | case4 b rest hb ih =>
    subst hc
    simp only [List.mem_cons, not_or] at hf
    obtain ⟨hflag, hrest⟩ := hf
    have hlone : execAll (hdlcRxBytes [b]) s =
        .next ((rxAppend b (s.waiting .data 0)).respond (.status .ok)) := by
      rw [State.waiting_data hs]
      exact execAll_singleton (exec_hdlcRxByte_data hs (Ne.symm hflag) hb)
    exact TakesBody.of_front (front := [b]) rfl hlone (unescape_lone hb rest) hrest
      fun hroom => ih hne rfl hroom hrest rfl

/-- A body that fits is stored. -/
theorem execAll_body {body e : List Byte} {s : State} (hne : s.cfg.hdlcEsc ≠ s.cfg.hdlcFlag) (hs : s.rx.state = .data)
    (hf : s.cfg.hdlcFlag ∉ body) (hun : unescape s.cfg body = some e) (hfit : s.rx.len + e.length ≤ s.cfg.hdlcRxCap) :
    execAll (hdlcRxBytes body) s = .next (s.stored e body.length) := by
  obtain ⟨t, hrun, ⟨e', he', -, rfl⟩ | ⟨-, hover⟩⟩ := takesBody hne hs (by omega) hf
  · obtain rfl : e = e' := Option.some.inj (hun.symm.trans he')
    exact hrun
  · exact absurd (hover e hun) (by omega)

/-! ### A frame between its flags -/

@[simp] theorem State.flagged_cfg (s : State) : s.flagged.cfg = s.cfg := rfl
@[simp] theorem State.flagged_evq (s : State) : s.flagged.evq = s.evq ++ flagEvents s := rfl
@[simp] theorem State.flagged_state (s : State) : s.flagged.rx.state = .data := rfl
@[simp] theorem State.flagged_len (s : State) : s.flagged.rx.len = 0 := rfl
@[simp] theorem State.flagged_buf (s : State) : s.flagged.rx.buf = s.rx.buf := rfl

/-- A flag and a body that fits, in any state that takes the flag. -/
theorem execAll_flag_body {body e : List Byte} {s : State} (hne : s.cfg.hdlcEsc ≠ s.cfg.hdlcFlag)
    (hopen : exec (.hdlcRxByte s.cfg.hdlcFlag) s = .next s.flagged) (hf : s.cfg.hdlcFlag ∉ body)
    (hun : unescape s.cfg body = some e) (hfit : e.length ≤ s.cfg.hdlcRxCap) :
    execAll (hdlcRxBytes ([s.cfg.hdlcFlag] ++ body)) s = .next (s.flagged.stored e body.length) := by
  rw [List.singleton_append, hdlcRxBytes_cons, execAll_cons _ hopen]
  exact execAll_body hne rfl hf hun (by simpa using hfit)

/-- What a flag posts after a body of at least two bytes. -/
theorem flagEvents_stored {s : State} {x r : List Byte} (hwf : Buffer.wf s.rx.buf = true) (hr : r.length = 2)
    (n : Nat) : flagEvents (s.flagged.stored (x ++ r) n) = [closeEvent s.cfg x r] := by
  obtain ⟨hx, hrest⟩ := Buffer.readFrom_storeFrom_append hwf x r
  rw [hr] at hrest
  rw [flagEvents_close (n := x.length) rfl (by simp [hr])]
  simp only [State.stored, State.flagged, hx, hrest]

/-- The state after a whole frame of `n` wire bytes that un-escapes to `e` and closes with `event`. -/
def State.received (s : State) (e : List Byte) (event : Event) (n : Nat) : State :=
  { s with
    rx := ⟨.data, 0, Buffer.storeFrom s.rx.buf 0 e⟩
    evq := s.evq ++ flagEvents s ++ [event]
    replies := s.replies ++ List.replicate n (.status .ok) }

@[simp] theorem State.received_cfg (s : State) (e : List Byte) (event : Event) (n : Nat) :
    (s.received e event n).cfg = s.cfg := rfl
@[simp] theorem State.received_evq (s : State) (e : List Byte) (event : Event) (n : Nat) :
    (s.received e event n).evq = s.evq ++ flagEvents s ++ [event] := rfl

/-- A frame of any wire form that fits is judged by its FCS, whatever the decoder was doing before. -/
theorem execAll_frame {body x r : List Byte} {s : State} (hne : s.cfg.hdlcEsc ≠ s.cfg.hdlcFlag)
    (hopen : exec (.hdlcRxByte s.cfg.hdlcFlag) s = .next s.flagged) (hwf : Buffer.wf s.rx.buf = true)
    (hf : s.cfg.hdlcFlag ∉ body) (hun : unescape s.cfg body = some (x ++ r)) (hr : r.length = 2)
    (hfit : x.length + 2 ≤ s.cfg.hdlcRxCap) :
    execAll (hdlcRxBytes ([s.cfg.hdlcFlag] ++ body ++ [s.cfg.hdlcFlag])) s =
      .next (s.received (x ++ r) (closeEvent s.cfg x r) (body.length + 2)) := by
  have hfit' : (x ++ r).length ≤ s.cfg.hdlcRxCap := by rwa [List.length_append, hr]
  have hclose := exec_hdlcRxByte_flag (s := s.flagged.stored (x ++ r) body.length) (by simpa using hfit')
  refine (execAll_hdlcRxBytes_append _ (execAll_flag_body hne hopen hf hun hfit')).trans
    ((execAll_singleton hclose).trans ?_)
  rw [State.flagged, flagEvents_stored hwf hr]
  simp [State.stored, State.flagged, State.received, replicate_around]

/-- An encoder's own FCS is good. -/
theorem closeEvent_fcsBytes (c : Config) (p : List Byte) : closeEvent c p (fcsBytes (fcs16 c p)) = .hdlcFrame p :=
  if_pos (fromLE_fcsBytes _).symm

/-- R28: the buffer holds a payload and its FCS. -/
theorem hdlcRxCap_eq {c : Config} (hstd : configStandard c) : c.hdlcRxCap = c.maxFrame + 2 := by
  obtain ⟨-, hcap, -⟩ := hstd
  exact hcap

/-- An encoded payload within `MAX_FRAME` is delivered. -/
theorem execAll_hdlcEncode {p : List Byte} {s : State} (hlegal : configLegal s.cfg = true)
    (hstd : configStandard s.cfg) (hp : p.length ≤ s.cfg.maxFrame) (hlen : s.rx.len ≤ s.cfg.hdlcRxCap)
    (hwf : Buffer.wf s.rx.buf = true) :
    execAll (hdlcRxBytes (hdlcEncode s.cfg p)) s =
      .next (s.received (p ++ fcsBytes (fcs16 s.cfg p)) (.hdlcFrame p) (hdlcEncode s.cfg p).length) := by
  have hcap := hdlcRxCap_eq hstd
  have hrun := execAll_frame (hdlcEsc_ne_hdlcFlag hlegal) (exec_hdlcRxByte_flag hlen) hwf
    (hdlcFlag_not_mem_escBytes hlegal hstd _) (unescape_escBytes hstd (p ++ fcsBytes (fcs16 s.cfg p))) rfl (by omega)
  rw [closeEvent_fcsBytes] at hrun
  have hwire : (hdlcEncode s.cfg p).length = (escBytes s.cfg (p ++ fcsBytes (fcs16 s.cfg p))).length + 2 := by
    rw [hdlcEncode, List.length_append, List.length_append]
    simp only [List.length_singleton]
    omega
  rw [hwire]
  exact hrun

end Sys2Proof.Machine
end

section
/-! PROOF. What the HDLC decoder promises (40_hdlc.md section 5): round trip, resynchronisation, exact delivery, and
what an abort or a flipped bit discards. -/

namespace Sys2Proof.Machine

/-! ### Round trip and resynchronisation (R130, R133) -/

/-- Settles O23: the opening flag posts what it posts alone, and the frame behind it is delivered. -/
theorem hdlcRoundTrip : Obligations.HdlcRoundTrip := by
  intro p s hlegal hstd hp hlen hwf
  refine ⟨_, _, flagEvents s, execAll_hdlcEncode hlegal hstd hp hlen hwf, exec_hdlcRxByte_flag hlen, rfl,
    flagEvents_length s, ?_, rfl⟩
  rintro (hhunt | ⟨hdata, hempty⟩)
  · exact flagEvents_hunt hhunt
  · exact flagEvents_empty hdata hempty

/-- What every byte keeps of a decoder: its index inside its buffer (R41 (b)), and its buffer in the canonical form. -/
structure RxInside (s : State) : Prop where
  len : s.rx.len ≤ s.cfg.hdlcRxCap
  wf : Buffer.wf s.rx.buf = true

theorem RxInside.empty {s : State} (h : RxInside s) (st : RxState) : RxInside (s.setRx ⟨st, 0, s.rx.buf⟩) :=
  ⟨Nat.zero_le _, h.wf⟩

theorem RxInside.post {s : State} (h : RxInside s) (e : Event) : RxInside (s.post e) := ⟨h.len, h.wf⟩

theorem rxAppend_cfg (v : Byte) (s : State) : (rxAppend v s).cfg = s.cfg := by
  rcases rxAppend_spec v s with ⟨-, ht⟩ | ⟨-, ht⟩ <;> rw [ht] <;> rfl

/-- `Append` never leaves more than fits: it gives the frame up before. -/
theorem rxAppend_len_le (v : Byte) (s : State) : (rxAppend v s).rx.len ≤ (rxAppend v s).cfg.hdlcRxCap := by
  rcases rxAppend_spec v s with ⟨hroom, ht⟩ | ⟨-, ht⟩
  · rw [ht]
    exact hroom
  · rw [ht]
    exact Nat.zero_le _

theorem RxInside.rxAppend {s : State} (h : RxInside s) (v : Byte) : RxInside (rxAppend v s) := by
  refine ⟨rxAppend_len_le v s, ?_⟩
  rcases rxAppend_spec v s with ⟨-, ht⟩ | ⟨-, ht⟩
  · rw [ht]
    exact Buffer.write_wf h.wf
  · rw [ht]
    exact h.wf

theorem RxInside.rxByte {b : Byte} {s t : State} (h : RxInside s) (ht : rxByte b s = some t) : RxInside t := by
  rcases rxByte_spec ht with ⟨-, -, rfl⟩ | ⟨-, -, rfl⟩ | ⟨-, -, hclose⟩ | ⟨-, -, -, rfl⟩ | ⟨-, -, -, rfl⟩ |
    ⟨-, -, rfl⟩ | ⟨-, -, rfl⟩
  · exact h.empty .data
  · exact h
  · rcases rxClose_spec hclose with ⟨-, rfl⟩ | ⟨-, rfl⟩ | ⟨-, -, rfl⟩
    · exact h.empty .data
    · exact (h.post _).empty .data
    · exact (h.post _).empty .data
  · exact ⟨h.len, h.wf⟩
  · exact h.rxAppend b
  · exact (h.post _).empty .data
  · exact h.rxAppend _

/-- Any bytes are taken, with some events, and the decoder stays inside its buffer. -/
theorem execAll_any {s : State} (h : RxInside s) (bs : List Byte) :
    ∃ t evs, execAll (hdlcRxBytes bs) s = .next t ∧ RxInside t ∧ t.cfg = s.cfg ∧ t.evq = s.evq ++ evs := by
  induction bs generalizing s with
  | nil => exact ⟨s, [], rfl, h, rfl, (List.append_nil _).symm⟩
  | cons b bs ih =>
    obtain ⟨u, hu⟩ := rxByte_defined b h.len
    have hexec := exec_hdlcRxByte hu
    have hext := exec_extends hexec
    have hin := h.rxByte hu
    obtain ⟨t, evs, hrun, ht, hcfg, hevq⟩ := ih (s := u.respond (.status .ok)) ⟨hin.len, hin.wf⟩
    obtain ⟨first, hfirst⟩ : ∃ first, (u.respond (.status .ok)).evq = s.evq ++ first := by
      rcases hext.evq with he | ⟨e, he⟩
      · exact ⟨[], by rw [he, List.append_nil]⟩
      · exact ⟨[e], he⟩
    refine ⟨t, first ++ evs, (execAll_cons _ hexec).trans hrun, ht, hcfg.trans hext.cfg, ?_⟩
    rw [hevq, hfirst, List.append_assoc]

/-- Settles O24: whatever the bytes before leave, the round trip starts from it. -/
theorem hdlcResynchronises : Obligations.HdlcResynchronises := by
  intro noise p s hlegal hstd hp hlen hwf
  obtain ⟨u, evs, hrun, hu, hcfg, hevq⟩ := execAll_any ⟨hlen, hwf⟩ noise
  rw [← hcfg] at hlegal hstd hp ⊢
  have hframe := execAll_hdlcEncode hlegal hstd hp hu.len hu.wf
  refine ⟨_, evs ++ flagEvents u, (execAll_hdlcRxBytes_append _ hrun).trans hframe, ?_, rfl, rfl⟩
  rw [State.received_evq, hevq, List.append_assoc s.evq]

/-! ### Exact delivery (R135) -/

/-- A list that ends has run its first operation to an end. -/
theorem execAll_cons_next {i : Instr} {rest : List Instr} {s t : State} (h : execAll (i :: rest) s = .next t) :
    ∃ u, exec i s = .next u ∧ execAll rest u = .next t := by
  cases hi : exec i s with
  | next u => exact ⟨u, rfl, (execAll_cons rest hi).symm.trans h⟩
  | fault r => simp [execAll, hi] at h
  | refused r => simp [execAll, hi] at h

/-- No list of operations changes the parameters (R43). -/
theorem execAll_cfg {is : List Instr} {s t : State} (h : execAll is s = .next t) : t.cfg = s.cfg := by
  induction is generalizing s with
  | nil =>
    cases h
    rfl
  | cons i is ih =>
    obtain ⟨u, hu, hrest⟩ := execAll_cons_next h
    exact (ih hrest).trans (exec_extends hu).cfg

/-- A delivered frame's FCS bytes are the FCS of its payload (R128). -/
theorem closeEvent_eq_hdlcFrame {c : Config} {x r p : List Byte} (hr : r.length = 2)
    (h : closeEvent c x r = .hdlcFrame p) : x = p ∧ r = fcsBytes (fcs16 c p) := by
  unfold closeEvent at h
  split at h
  · rename_i hgood
    cases h
    exact ⟨rfl, eq_fcsBytes_of_fromLE hr hgood⟩
  · cases h

/-- A flag delivers a frame only from RX_DATA, out of at least two stored bytes. -/
theorem flagEvents_eq_hdlcFrame {s : State} {p : List Byte} (h : flagEvents s = [.hdlcFrame p]) :
    s.rx.state = .data ∧
      ∃ n, s.rx.len = n + 2 ∧
        closeEvent s.cfg (Buffer.readFrom s.rx.buf 0 n) (Buffer.readFrom s.rx.buf n 2) = .hdlcFrame p := by
  unfold flagEvents at h
  split at h
  case h_5 n hstate hlen => exact ⟨hstate, n, hlen, List.singleton_inj.mp h⟩
  all_goals cases h

/-- Settles O27: the second flag delivers out of RX_DATA, so the body was stored as what it un-escapes to, which is the
payload and its FCS. -/
theorem deliveredFramesAreExact : Obligations.DeliveredFramesAreExact := by
  intro body p s t u hlegal hwf hf hrun hlast hevq
  obtain ⟨v, hfirst, hbody⟩ := execAll_cons_next hrun
  obtain rfl := exec_hdlcRxByte_flag_next hfirst
  obtain ⟨t', ht', hcases⟩ := takesBody (s := s.flagged) (hdlcEsc_ne_hdlcFlag hlegal) rfl (Nat.zero_le _) hf
  obtain rfl : t = t' := by injection hbody.symm.trans ht'
  have hcfg : t.cfg = s.cfg := execAll_cfg (s := s.flagged) hbody
  rw [← hcfg] at hlast
  obtain rfl := exec_hdlcRxByte_flag_next hlast
  obtain ⟨hstate, n, hlen, hclose⟩ := flagEvents_eq_hdlcFrame (List.append_cancel_left hevq)
  rcases hcases with ⟨e, he, -, rfl⟩ | ⟨hnot, -⟩
  · obtain ⟨hp, hr⟩ := closeEvent_eq_hdlcFrame (Buffer.readFrom_length ..) hclose
    have hn : e.length = n + 2 := (Nat.zero_add _).symm.trans hlen
    have hbytes : e = p ++ fcsBytes (fcs16 s.cfg p) :=
      calc e = Buffer.readFrom (Buffer.storeFrom s.rx.buf 0 e) 0 (n + 2) := by
            rw [← hn, Buffer.readFrom_storeFrom hwf]
        _ = Buffer.readFrom (Buffer.storeFrom s.rx.buf 0 e) 0 n ++
              Buffer.readFrom (Buffer.storeFrom s.rx.buf 0 e) n 2 := by
            rw [Buffer.readFrom_add, Nat.zero_add]
        _ = p ++ fcsBytes (fcs16 s.cfg p) := congrArg₂ _ hp hr
    exact he.trans (congrArg some hbytes)
  · exact absurd hstate hnot

/-! ### Aborts (R116, R118) -/

/-- The abort sequence, met in RX_DATA. -/
theorem execAll_abort_data {s : State} (hs : s.rx.state = .data) (hne : s.cfg.hdlcEsc ≠ s.cfg.hdlcFlag) :
    execAll (hdlcRxBytes [s.cfg.hdlcEsc, s.cfg.hdlcFlag]) s =
      .next { s with
        evq := s.evq ++ [.hdlcDiscard .abort]
        rx := { s.rx with state := .data, len := 0 }
        replies := s.replies ++ [.status .ok, .status .ok] } := by
  have hflag := exec_hdlcRxByte_flag_of_close (s := (s.setRx ⟨.esc, s.rx.len, s.rx.buf⟩).respond (.status .ok)) nofun
  refine (execAll_cons _ (exec_hdlcRxByte_data_esc hs hne)).trans ((execAll_singleton hflag).trans ?_)
  rw [State.flagged, flagEvents_esc rfl, State.respond_replies, List.append_assoc]
  rfl

/-- In RX_DATA a flag behind at least one stored byte posts one event, and never ABORT. -/
theorem flagEvents_data_ne_abort {s : State} (hs : s.rx.state = .data) (hlen : s.rx.len ≠ 0) :
    ∃ e, flagEvents s = [e] ∧ e ≠ .hdlcDiscard .abort := by
  rcases Nat.lt_or_ge s.rx.len 2 with h1 | h2
  · exact ⟨_, flagEvents_short hs (by omega), nofun⟩
  · refine ⟨_, flagEvents_close hs (show s.rx.len = s.rx.len - 2 + 2 by omega), ?_⟩
    unfold closeEvent
    split <;> exact nofun

/-- A flag right behind `Append` finds a stored byte to close, or a decoder that hunts again after an overflow. -/
theorem flagEvents_rxAppend (v : Byte) (s : State) :
    ∃ e, (rxAppend v s).evq ++ flagEvents (rxAppend v s) = s.evq ++ [e] ∧ e ≠ .hdlcDiscard .abort := by
  rcases rxAppend_spec v s with ⟨-, ht⟩ | ⟨-, ht⟩ <;> rw [ht]
  · obtain ⟨e, he, hne⟩ := flagEvents_data_ne_abort
      (s := s.setRx ⟨.data, s.rx.len + 1, Buffer.write s.rx.buf s.rx.len v⟩) rfl (Nat.succ_ne_zero _)
    exact ⟨e, by rw [he]; rfl, hne⟩
  · exact ⟨.hdlcDiscard .overflow, by rw [flagEvents_hunt rfl, List.append_nil]; rfl, nofun⟩

/-- The abort sequence, met in RX_ESC: its escape octet is the partner of the pending one (R126). -/
theorem execAll_abort_esc {s : State} (hs : s.rx.state = .esc) (hne : s.cfg.hdlcEsc ≠ s.cfg.hdlcFlag) :
    ∃ t e, execAll (hdlcRxBytes [s.cfg.hdlcEsc, s.cfg.hdlcFlag]) s = .next t ∧
      t.evq = s.evq ++ [e] ∧ e ≠ .hdlcDiscard .abort ∧ t.rx.state = .data ∧ t.rx.len = 0 := by
  have hpartner := exec_hdlcRxByte_esc (w := s.cfg.hdlcEsc) hs hne
  have hflag := exec_hdlcRxByte_flag
    (s := (rxAppend (s.cfg.hdlcEsc ^^^ s.cfg.escXor) s).respond (.status .ok)) (rxAppend_len_le _ s)
  rw [State.respond_cfg, rxAppend_cfg] at hflag
  obtain ⟨e, he, hne'⟩ := flagEvents_rxAppend (s.cfg.hdlcEsc ^^^ s.cfg.escXor) s
  exact ⟨_, e, (execAll_cons _ hpartner).trans (execAll_singleton hflag), he, hne', rfl, rfl⟩

/-- Settles O25: the encoder's escaped bytes leave no escape octet pending, so its abort sequence meets RX_DATA. -/
theorem abortSequenceDiscardsAnOpenFrame : Obligations.AbortSequenceDiscardsAnOpenFrame := by
  refine ⟨fun s => execAll_abort_data, fun p s hlegal hstd hp hlen => ?_, fun s hs hne _ => execAll_abort_esc hs hne⟩
  have hne := hdlcEsc_ne_hdlcFlag hlegal
  have hcap := hdlcRxCap_eq hstd
  have hopen := execAll_flag_body hne (exec_hdlcRxByte_flag hlen) (hdlcFlag_not_mem_escBytes hlegal hstd p)
    (unescape_escBytes hstd p) (by omega)
  have habort := execAll_abort_data (s := s.flagged.stored p (escBytes s.cfg p).length) rfl hne
  exact ⟨_, s.flagged, flagEvents s, (execAll_hdlcRxBytes_append _ hopen).trans habort, exec_hdlcRxByte_flag hlen,
    rfl, rfl, rfl, rfl⟩

/-- A decoder that has just met an escape octet. -/
def pendingEscape : State := State.reset.setRx ⟨.esc, 0, []⟩

theorem pendingEscape_stateOk : StateOk pendingEscape :=
  powerOnIsAGoodState.setRx (.of_empty rfl) (.nil _)

/-- Refutes O26: with an escape octet pending and nothing stored, the abort sequence stores its escape octet un-escaped
(0x7D XOR 0x20) and posts SHORT. -/
theorem not_abortDiscardsEvenAfterAPendingEscape : ¬ Obligations.AbortDiscardsEvenAfterAPendingEscape := by
  intro h
  obtain ⟨t, hrun, hevq, -, -⟩ := h pendingEscape pendingEscape_stateOk rfl
  have hshort : execAll (hdlcRxBytes [0x7D#8, 0x7E#8]) pendingEscape =
      .next { pendingEscape with
        rx := ⟨.data, 0, [(0, 0x5D#8)]⟩
        evq := [.hdlcDiscard .short]
        replies := [.status .ok, .status .ok] } := rfl
  obtain rfl : _ = t := by injection hshort.symm.trans hrun
  exact absurd hevq (by decide)

/-! ### A flipped bit (R132 (a)) -/

/-- A single flipped bit makes the closing flag discard the frame. -/
theorem closeEvent_flipped {c : Config} {p before after x r : List Byte} {v : Byte} {k : Nat}
    (hpoly : c.fcsPoly = 0x8408#16) (hk : k < 8) (hsent : p ++ fcsBytes (fcs16 c p) = before ++ v :: after)
    (hgot : before ++ flipBit v k :: after = x ++ r) (hr : r.length = 2) :
    closeEvent c x r = .hdlcDiscard .fcsMismatch :=
  if_neg (fcsDetectsASingleFlippedBit c p before after x r v k hpoly hk hsent hgot hr)

/-- The wire bytes of the flipped octet still make one decoded byte, with the same bit flipped, and no flag. -/
theorem unescape_flipped {c : Config} {bad : List Byte} {v : Byte} {k : Nat} (hne : c.hdlcEsc ≠ c.hdlcFlag)
    (h : (v ∉ c.escapeSet ∧ bad = [flipBit v k] ∧ flipBit v k ≠ c.hdlcFlag ∧ flipBit v k ≠ c.hdlcEsc) ∨
      (v ∈ c.escapeSet ∧ bad = [c.hdlcEsc, flipBit (v ^^^ c.escXor) k] ∧
        flipBit (v ^^^ c.escXor) k ≠ c.hdlcFlag)) :
    unescape c bad = some [flipBit v k] ∧ c.hdlcFlag ∉ bad := by
  rcases h with ⟨-, rfl, hflag, hesc⟩ | ⟨-, rfl, hflag⟩
  · exact ⟨unescape_lone hesc [], by simpa using hflag.symm⟩
  · have hflip : flipBit (v ^^^ c.escXor) k ^^^ c.escXor = flipBit v k := by
      have hcomm : v ^^^ c.escXor ^^^ (1#8 <<< k) ^^^ c.escXor = v ^^^ (1#8 <<< k) ^^^ (c.escXor ^^^ c.escXor) := by
        ac_rfl
      exact hcomm.trans (by rw [BitVec.xor_self, BitVec.xor_zero, flipBit])
    refine ⟨(unescape_pair c _ []).trans (by rw [hflip]; rfl), ?_⟩
    simp [hne.symm, hflag.symm]

/-- A frame whose body un-escapes to a payload and its FCS with one bit flipped is discarded, whatever its wire form. -/
theorem execAll_flipped_frame {p before after body : List Byte} {v : Byte} {k : Nat} {s : State}
    (hpoly : s.cfg.fcsPoly = 0x8408#16) (hne : s.cfg.hdlcEsc ≠ s.cfg.hdlcFlag)
    (hopen : exec (.hdlcRxByte s.cfg.hdlcFlag) s = .next s.flagged) (hwf : Buffer.wf s.rx.buf = true) (hk : k < 8)
    (hfit : p.length + 2 ≤ s.cfg.hdlcRxCap) (hsent : p ++ fcsBytes (fcs16 s.cfg p) = before ++ v :: after)
    (hf : s.cfg.hdlcFlag ∉ body) (hun : unescape s.cfg body = some (before ++ flipBit v k :: after)) :
    ∃ e n, execAll (hdlcRxBytes ([s.cfg.hdlcFlag] ++ body ++ [s.cfg.hdlcFlag])) s =
      .next (s.received e (.hdlcDiscard .fcsMismatch) n) := by
  have hlen : p.length + 2 = before.length + (after.length + 1) := by
    simpa [fcsBytes] using congrArg List.length hsent
  obtain ⟨x, r, hgot, hx, hr⟩ : ∃ x r, before ++ flipBit v k :: after = x ++ r ∧ x.length = p.length ∧ r.length = 2 :=
    ⟨_, _, (List.take_append_drop p.length _).symm, by simp; omega, by simp; omega⟩
  have hrun := execAll_frame hne hopen hwf hf (hun.trans (congrArg some hgot)) hr (by omega)
  rw [closeEvent_flipped hpoly hk hsent hgot hr] at hrun
  exact ⟨_, _, hrun⟩

/-- Settles O28: the damaged frame keeps its flags and its length, its FCS is wrong, and the next frame starts behind an
empty RX_DATA. -/
theorem flippedBitDiscardsOnlyItsFrame : Obligations.FlippedBitDiscardsOnlyItsFrame := by
  intro p q before after bad v k s hlegal hstd hpoly hwf hp hq hs hk hsent hbad
  have hne := hdlcEsc_ne_hdlcFlag hlegal
  have hcap := hdlcRxCap_eq hstd
  obtain ⟨hunbad, hfbad⟩ := unescape_flipped hne hbad
  have hun : unescape s.cfg (escBytes s.cfg before ++ (bad ++ escBytes s.cfg after)) =
      some (before ++ flipBit v k :: after) :=
    unescape_append (unescape_escBytes hstd before) (unescape_append hunbad (unescape_escBytes hstd after))
  have hf : s.cfg.hdlcFlag ∉ escBytes s.cfg before ++ (bad ++ escBytes s.cfg after) := by
    simp only [List.mem_append, not_or]
    exact ⟨hdlcFlag_not_mem_escBytes hlegal hstd before, hfbad, hdlcFlag_not_mem_escBytes hlegal hstd after⟩
  obtain ⟨e, n, hdamaged⟩ := execAll_flipped_frame hpoly hne (exec_hdlcRxByte_flag_of_close (by simp [hs])) hwf hk
    (by omega) hsent hf hun
  have hnext := execAll_hdlcEncode (s := s.received e (.hdlcDiscard .fcsMismatch) n) hlegal hstd hq (Nat.zero_le _)
    (Buffer.storeFrom_wf hwf 0 e)
  have hrun := (execAll_hdlcRxBytes_append _ hdamaged).trans hnext
  simp only [State.received_cfg, List.append_assoc] at hrun ⊢
  refine ⟨_, hrun, ?_⟩
  rw [State.received_evq, State.received_evq, flagEvents_hunt hs, flagEvents_empty rfl rfl]
  simp

end Sys2Proof.Machine
end

section
/-! PROOF. The FLEN operations (41_flen.md sections 1 and 2): the encoder and the abort by their guards, and what
FLEN_RX_BYTE does in each row of R141's table. -/

namespace Sys2Proof.Machine

/-! ### The encoder and the abort (R140, R147) -/

/-- Settles O29: the one guard, and the frame when it does not hold. -/
theorem flenTxFrameEmitsHeaderAndPayload : Obligations.FlenTxFrameEmitsHeaderAndPayload := fun _ _ =>
  ⟨rfl, guard_pos, fun hlen => if_neg (Nat.not_lt.mpr hlen)⟩

theorem flenPartial_iff (u : FlUnit) :
    flenPartial u = true ↔ (u.state = .hdr ∧ 0 < u.hcount) ∨ u.state = .body := by
  simp only [flenPartial, Bool.or_eq_true, Bool.and_eq_true, decide_eq_true_eq]

theorem exec_flenRxAbort_of_partial {s : State} (h : flenPartial s.fl = true) :
    exec .flenRxAbort s = .next (((s.post (.flenDiscard .abort)).setFl (flIdle s.fl)).respond (.status .ok)) := by
  simp only [exec, execFlenRxAbort, h, if_true, replyStatus]

theorem exec_flenRxAbort_of_not_partial {s : State} (h : flenPartial s.fl = false) :
    exec .flenRxAbort s = .next ((s.setFl (flIdle s.fl)).respond (.status .ok)) := by
  simp only [exec, execFlenRxAbort, h, Bool.false_eq_true, if_false, replyStatus]

/-- Settles O33: its two cases are R147's condition and the complement of it. -/
theorem flenRxAbortDropsThePartialFrame : Obligations.FlenRxAbortDropsThePartialFrame := by
  refine ⟨rfl, fun s => ⟨fun hpart => ?_, fun hnone => exec_flenRxAbort_of_not_partial ?_⟩⟩
  · exact exec_flenRxAbort_of_partial ((flenPartial_iff s.fl).mpr hpart)
  · rw [Bool.eq_false_iff, Ne, flenPartial_iff]
    rcases hnone with ⟨hhdr, hzero⟩ | hskip
    · simp [hhdr, hzero]
    · simp [hskip]

/-! ### The rows of R141's table -/

/-- A byte whose row is defined is taken, and the reply is `OK` (R146). -/
theorem exec_flenRxByte {b : Byte} {s t : State} (h : flenByte b s = some t) :
    exec (.flenRxByte b) s = .next (t.respond (.status .ok)) := by
  simp only [exec, execFlenRxByte, h, replyStatus]

/-- R142: a header byte that is not the last is stored. -/
theorem exec_flenRxByte_hdr {s : State} (b : Byte) (hs : s.fl.state = .hdr)
    (hmore : s.fl.hcount + 1 < s.cfg.flenLenBytes) (hwf : Buffer.wf s.fl.hdr = true) :
    exec (.flenRxByte b) s =
      .next ((s.setFl ⟨s.fl.state, s.fl.hcount + 1, Buffer.write s.fl.hdr s.fl.hcount b, s.fl.len, s.fl.count,
        s.fl.buf⟩).respond (.status .ok)) := by
  obtain ⟨t, ht⟩ := flenHdrByte_defined b (Nat.lt_of_succ_lt hmore)
  obtain ⟨-, ⟨-, rfl⟩ | ⟨hlast, -⟩⟩ := flenHdrByte_spec hwf ht
  · exact exec_flenRxByte ((flenByte_of_hdr b hs).trans ht)
  · omega

/-- R142: the last header byte completes the header. -/
theorem exec_flenRxByte_hdr_last {s : State} (b : Byte) (hs : s.fl.state = .hdr)
    (hlast : s.fl.hcount + 1 = s.cfg.flenLenBytes) (hwf : Buffer.wf s.fl.hdr = true) :
    exec (.flenRxByte b) s =
      .next ((flenHeaderComplete (Buffer.write s.fl.hdr s.fl.hcount b)
        (fromLE (Buffer.readFrom s.fl.hdr 0 s.fl.hcount ++ [b])) s).respond (.status .ok)) := by
  obtain ⟨t, ht⟩ := flenHdrByte_defined b (Nat.lt_of_succ_le hlast.le)
  obtain ⟨-, ⟨hmore, -⟩ | ⟨-, rfl⟩⟩ := flenHdrByte_spec hwf ht
  · exact absurd hlast hmore
  · exact exec_flenRxByte ((flenByte_of_hdr b hs).trans ht)

/-- R143: a length of 0 is a whole frame. -/
theorem flenHeaderComplete_zero (hdr : Buffer) (s : State) :
    flenHeaderComplete hdr 0 s =
      (s.post (.flenFrame [])).setFl ⟨s.fl.state, 0, hdr, s.fl.len, s.fl.count, s.fl.buf⟩ :=
  if_pos rfl

/-- R143: a length above `FLEN_MAX` is reported and its bytes are to be skipped. -/
theorem flenHeaderComplete_oversize {len : Nat} {s : State} (hdr : Buffer) (hpos : len ≠ 0)
    (h : s.cfg.flenMax < len) :
    flenHeaderComplete hdr len s = (s.post (.flenDiscard .oversize)).setFl ⟨.skip, 0, hdr, len, 0, s.fl.buf⟩ :=
  (if_neg hpos).trans (if_pos h)

/-- R143: any other length opens a body. -/
theorem flenHeaderComplete_fits {len : Nat} {s : State} (hdr : Buffer) (hpos : len ≠ 0) (h : len ≤ s.cfg.flenMax) :
    flenHeaderComplete hdr len s = s.setFl ⟨.body, 0, hdr, len, 0, s.fl.buf⟩ :=
  (if_neg hpos).trans (if_neg (Nat.not_lt.mpr h))

/-- R144: a body byte that is not the last is stored. -/
theorem exec_flenRxByte_body {s : State} (b : Byte) (hs : s.fl.state = .body) (hmore : s.fl.count + 1 < s.fl.len)
    (hlen : s.fl.len ≤ s.cfg.flenMax) (hwf : Buffer.wf s.fl.buf = true) :
    exec (.flenRxByte b) s =
      .next ((s.setFl ⟨s.fl.state, s.fl.hcount, s.fl.hdr, s.fl.len, s.fl.count + 1,
        Buffer.write s.fl.buf s.fl.count b⟩).respond (.status .ok)) := by
  obtain ⟨t, ht⟩ := flenBodyByte_defined b (Nat.lt_of_succ_lt hmore) hlen
  obtain ⟨-, ⟨-, rfl⟩ | ⟨hlast, -, -⟩⟩ := flenBodyByte_spec hwf ht
  · exact exec_flenRxByte ((flenByte_of_body b hs).trans ht)
  · omega

/-- R144: the last body byte delivers the frame. -/
theorem exec_flenRxByte_body_last {s : State} (b : Byte) (hs : s.fl.state = .body) (hlast : s.fl.count + 1 = s.fl.len)
    (hlen : s.fl.len ≤ s.cfg.flenMax) (hwf : Buffer.wf s.fl.buf = true) :
    exec (.flenRxByte b) s =
      .next (((s.post (.flenFrame (Buffer.readFrom s.fl.buf 0 s.fl.count ++ [b]))).setFl
        ⟨.hdr, s.fl.hcount, s.fl.hdr, s.fl.len, 0, Buffer.write s.fl.buf s.fl.count b⟩).respond (.status .ok)) := by
  obtain ⟨t, ht⟩ := flenBodyByte_defined b (Nat.lt_of_succ_le hlast.le) hlen
  obtain ⟨-, ⟨hmore, -⟩ | ⟨-, -, rfl⟩⟩ := flenBodyByte_spec hwf ht
  · exact absurd hlast hmore
  · exact exec_flenRxByte ((flenByte_of_body b hs).trans ht)

/-- R145: a byte in FL_SKIP. -/
theorem exec_flenRxByte_skip {s : State} (b : Byte) (hs : s.fl.state = .skip) :
    exec (.flenRxByte b) s = .next ((flenSkipByte s).respond (.status .ok)) :=
  exec_flenRxByte (by simp only [flenByte, hs])

/-! ### The statements about one byte -/

/-- Settles O30: the byte is written at `fl.hcount`, and the last one leaves what R143 makes of the length. -/
theorem flenHeaderByteIsCollected : Obligations.FlenHeaderByteIsCollected := by
  intro b s hs _ hwf
  refine ⟨_, Buffer.read_write hwf, fun hmore => exec_flenRxByte_hdr b hs hmore hwf, fun len hlast hlen => ?_⟩
  rw [exec_flenRxByte_hdr_last b hs hlast hwf, ← hlen]
  refine ⟨?_, fun hpos hover => ?_, fun hpos hfits => ?_⟩
  · rintro rfl
    rw [flenHeaderComplete_zero]
    rfl
  · rw [flenHeaderComplete_oversize _ hpos hover]
    rfl
  · rw [flenHeaderComplete_fits _ hpos hfits]
    rfl

/-- Settles O31: the byte is written at `fl.count`, and the last one delivers what stands before it with it. -/
theorem flenBodyByteIsStored : Obligations.FlenBodyByteIsStored := fun b _ hs _ hlen hwf =>
  ⟨_, Buffer.read_write hwf, fun hmore => exec_flenRxByte_body b hs hmore hlen hwf,
    fun hlast => exec_flenRxByte_body_last b hs hlast hlen hwf⟩

/-- Settles O32: the two cases of a skipped byte. -/
theorem flenSkippedByteIsCounted : Obligations.FlenSkippedByteIsCounted := by
  intro b s hs
  rw [exec_flenRxByte_skip b hs]
  rcases flenSkipByte_spec s with ⟨hlast, ht⟩ | ⟨hmore, ht⟩
  · exact ⟨fun _ => by rw [ht]; rfl, fun hmore => absurd hlast hmore⟩
  · exact ⟨fun hlast => absurd hlast hmore, fun _ => by rw [ht]; rfl⟩

end Sys2Proof.Machine
end

section
/-! PROOF. The FLEN decoder over rows of bytes (41_flen.md R148): a whole header is the length it holds, a whole body is
the frame it delivers, and a frame is one after the other. -/

namespace Sys2Proof.Machine

/-! ### Rows of bytes -/

@[simp] theorem flenRxBytes_cons (b : Byte) (bs : List Byte) :
    flenRxBytes (b :: bs) = .flenRxByte b :: flenRxBytes bs := rfl

@[simp] theorem flenRxBytes_append (as bs : List Byte) : flenRxBytes (as ++ bs) = flenRxBytes as ++ flenRxBytes bs :=
  List.map_append

/-- `n` operations have been answered with `OK`. -/
def State.answered (s : State) (n : Nat) : State :=
  { s with replies := s.replies ++ List.replicate n (.status .ok) }

theorem State.respond_answered (s : State) (n : Nat) : (s.respond (.status .ok)).answered n = s.answered (n + 1) := by
  simp [State.answered, State.respond, List.replicate_succ]

/-- A write at the end of a range adds its byte to a read of it. -/
theorem Buffer.readFrom_write_end {m : Buffer} (hm : Buffer.wf m = true) (n : Nat) (v : Byte) :
    Buffer.readFrom (Buffer.write m n v) 0 (n + 1) = Buffer.readFrom m 0 n ++ [v] := by
  rw [Buffer.readFrom_succ, Buffer.readFrom_write hm (Nat.zero_add n).le, Buffer.read_write hm, if_pos (Nat.zero_add n)]

/-! ### A header (R142, R143) -/

/-- R143 sets `fl.hcount` and the header buffer, and reads neither. -/
theorem flenHeaderComplete_setFl_respond (hdr hdr' : Buffer) (len n : Nat) (s : State) (r : Reply) :
    flenHeaderComplete hdr len ((s.setFl ⟨s.fl.state, n, hdr', s.fl.len, s.fl.count, s.fl.buf⟩).respond r) =
      (flenHeaderComplete hdr len s).respond r := by
  unfold flenHeaderComplete
  split
  · rfl
  · split
    · rw [if_pos ‹_›]
      rfl
    · rw [if_neg ‹_›]
      rfl

/-- The bytes that a header still lacks complete it with the length that all its bytes give. -/
theorem execAll_flenHeaderBytes {bs : List Byte} {s : State} (hs : s.fl.state = .hdr)
    (hall : s.fl.hcount + bs.length = s.cfg.flenLenBytes) (hne : bs ≠ []) (hwf : Buffer.wf s.fl.hdr = true) :
    execAll (flenRxBytes bs) s =
      .next ((flenHeaderComplete (Buffer.storeFrom s.fl.hdr s.fl.hcount bs)
        (fromLE (Buffer.readFrom s.fl.hdr 0 s.fl.hcount ++ bs)) s).answered bs.length) := by
  induction bs generalizing s with
  | nil => exact absurd rfl hne
  | cons b bs ih =>
    cases bs with
    | nil => exact execAll_singleton (exec_flenRxByte_hdr_last b hs hall hwf)
    | cons c rest =>
      have hmore : s.fl.hcount + 1 < s.cfg.flenLenBytes := by
        rw [List.length_cons, List.length_cons] at hall
        omega
      rw [flenRxBytes_cons, execAll_cons _ (exec_flenRxByte_hdr b hs hmore hwf)]
      refine Eq.trans (ih hs ((Nat.add_right_comm ..).trans hall) (List.cons_ne_nil c rest) (Buffer.write_wf hwf)) ?_
      rw [flenHeaderComplete_setFl_respond, State.respond_answered]
      simp [Buffer.readFrom_write_end hwf, Buffer.storeFrom]

/-! ### A body (R144) -/

/-- The bytes that a body still lacks deliver the frame of all its bytes. -/
theorem execAll_flenBodyBytes {bs : List Byte} {s : State} (hs : s.fl.state = .body)
    (hall : s.fl.count + bs.length = s.fl.len) (hne : bs ≠ []) (hlen : s.fl.len ≤ s.cfg.flenMax)
    (hwf : Buffer.wf s.fl.buf = true) :
    execAll (flenRxBytes bs) s =
      .next (((s.post (.flenFrame (Buffer.readFrom s.fl.buf 0 s.fl.count ++ bs))).setFl
        ⟨.hdr, s.fl.hcount, s.fl.hdr, s.fl.len, 0, Buffer.storeFrom s.fl.buf s.fl.count bs⟩).answered
          bs.length) := by
  induction bs generalizing s with
  | nil => exact absurd rfl hne
  | cons b bs ih =>
    cases bs with
    | nil => exact execAll_singleton (exec_flenRxByte_body_last b hs hall hlen hwf)
    | cons c rest =>
      have hmore : s.fl.count + 1 < s.fl.len := by
        rw [List.length_cons, List.length_cons] at hall
        omega
      rw [flenRxBytes_cons, execAll_cons _ (exec_flenRxByte_body b hs hmore hlen hwf)]
      refine Eq.trans
        (ih hs ((Nat.add_right_comm ..).trans hall) (List.cons_ne_nil c rest) hlen (Buffer.write_wf hwf)) ?_
      simp [Buffer.readFrom_write_end hwf, Buffer.storeFrom, State.answered, State.post, State.setFl, State.respond,
        List.replicate_succ]

/-! ### A frame (R148) -/

/-- R8 (d): a length that the decoder takes fits the header. -/
theorem fromLE_flenHeader {c : Config} {n : Nat} (hlegal : configLegal c = true) (hn : n ≤ c.flenMax) :
    fromLE (leBytes c.flenLenBytes n) = n := by
  obtain ⟨-, -, -, hmax, -⟩ := (configLegal_iff c).mp hlegal
  have hpos := Nat.two_pow_pos (8 * c.flenLenBytes)
  exact fromLE_leBytes_of_lt (by omega)

/-- The length field of a frame, fed at a frame boundary. -/
theorem execAll_flenLengthField {n : Nat} {s : State} (hlegal : configLegal s.cfg = true)
    (hk : 1 ≤ s.cfg.flenLenBytes) (hn : n ≤ s.cfg.flenMax) (hs : s.fl.state = .hdr) (hcount : s.fl.hcount = 0)
    (hwf : Buffer.wf s.fl.hdr = true) :
    execAll (flenRxBytes (leBytes s.cfg.flenLenBytes n)) s =
      .next ((flenHeaderComplete (Buffer.storeFrom s.fl.hdr 0 (leBytes s.cfg.flenLenBytes n)) n s).answered
        s.cfg.flenLenBytes) := by
  have hne : leBytes s.cfg.flenLenBytes n ≠ [] := List.ne_nil_of_length_pos (by rw [leBytes_length]; exact hk)
  have hrun := execAll_flenHeaderBytes hs (by rw [hcount, leBytes_length, Nat.zero_add]) hne hwf
  rwa [hcount, Buffer.readFrom, List.nil_append, fromLE_flenHeader hlegal hn, leBytes_length] at hrun

/-- Settles O34: the header of an empty payload posts its frame, and any other header opens the body that its payload
fills. -/
theorem flenRoundTrip : Obligations.FlenRoundTrip := by
  intro p s hlegal hk hp hs hcount hhdr hbuf
  have hrun := execAll_flenLengthField hlegal hk hp hs hcount hhdr
  rw [flenEncode, flenRxBytes_append, execAll_append _ hrun, List.length_append, leBytes_length]
  cases p with
  | nil =>
    refine ⟨_, rfl, ?_⟩
    simp [flenHeaderComplete_zero, State.answered, State.post, State.setFl, hs]
  | cons b p =>
    have hpos : (b :: p).length ≠ 0 := Nat.succ_ne_zero p.length
    rw [flenHeaderComplete_fits _ hpos hp]
    refine ⟨_, execAll_flenBodyBytes rfl (Nat.zero_add _) (List.cons_ne_nil b p) hp hbuf, ?_⟩
    simp [State.answered, State.post, State.setFl, Buffer.readFrom, List.replicate_add]

end Sys2Proof.Machine
end

section
/-! PROOF. The descriptor grammar (42_argcodec.md R160) and the checks W1 to W6 (R162 to R168): the parser against the
tags that items are written with, and a well-formed descriptor in the words of the checks. -/

namespace Sys2Proof.Machine

/-! ### The parser over the tags of an item (R160) -/

/-- An item list put on top of items kept last first. -/
def revOnto : Items → List Item → List Item
  | .nil, cur => cur
  | .cons it its, cur => revOnto its (it :: cur)

theorem itemsOfRev_revOnto (its : Items) (cur : List Item) (acc : Items) :
    itemsOfRev (revOnto its cur) acc = itemsOfRev cur (its.append acc) := by
  induction its using Items.rec (motive_1 := fun _ => True) generalizing cur with
  | nil => rfl
  | cons it its _ ih => exact ih (it :: cur)
  | _ => trivial

@[simp] theorem Items.append_nil (its : Items) : its.append .nil = its := by
  induction its using Items.rec (motive_1 := fun _ => True) with
  | nil => rfl
  | cons it its _ ih => simp only [Items.append, ih]
  | _ => trivial

/-- The items of a list that was parsed from its start. -/
theorem itemsOfRev_revOnto_nil (its : Items) : itemsOfRev (revOnto its []) .nil = its := by
  rw [itemsOfRev_revOnto, itemsOfRev, Items.append_nil]

theorem parseTags_cons {p q : ParseState} {t : Tag} (ts : List Tag) (h : parseTag p t = some q) :
    parseTags p (t :: ts) = parseTags q ts := by
  simp [parseTags, h]

theorem parseTags_append {p q : ParseState} {xs : List Tag} (ys : List Tag) (h : parseTags p xs = some q) :
    parseTags p (xs ++ ys) = parseTags q ys := by
  induction xs generalizing p with
  | nil => cases h; rfl
  | cons t xs ih =>
    simp only [parseTags, List.cons_append] at h ⊢
    cases hp : parseTag p t with
    | none => simp [hp] at h
    | some r =>
      rw [hp] at h
      exact ih h

/-- The parser takes an element and its `*` for the array. -/
theorem parseTag_array {e : Item} (cur : List Item) (outer : List (List Item)) (h : itemFormed (.ar e) = true) :
    parseTag ⟨e :: cur, outer⟩ .array = some ⟨.ar e :: cur, outer⟩ := by
  cases e with
  | sc t => rfl
  | st its => rfl
  | ar e => simp [itemFormed] at h

theorem itemFormed_of_array {e : Item} (h : itemFormed (.ar e) = true) : itemFormed e = true := by
  cases e with
  | sc t => rfl
  | st its => exact h
  | ar e => simp [itemFormed] at h

/-- What the parser does on the tags of items, whatever follows them. -/
theorem parseTags_itemsTags (its : Items) (hf : itemsFormed its = true) (cur : List Item) (outer : List (List Item))
    (ts : List Tag) :
    parseTags ⟨cur, outer⟩ (itemsTags its ++ ts) = parseTags ⟨revOnto its cur, outer⟩ ts := by
  induction its using Items.rec
    (motive_1 := fun it => itemFormed it = true → ∀ cur outer ts,
      parseTags ⟨cur, outer⟩ (itemTags it ++ ts) = parseTags ⟨it :: cur, outer⟩ ts)
    generalizing cur outer ts with
  | sc t => rfl
  | st its ih =>
    rename_i hf cur outer ts
    calc parseTags ⟨cur, outer⟩ (itemTags (.st its) ++ ts)
        = parseTags ⟨[], cur :: outer⟩ (itemsTags its ++ .structClose :: ts) := by
          simp [itemTags, parseTags, parseTag]
      _ = parseTags ⟨revOnto its [], cur :: outer⟩ (.structClose :: ts) := ih hf _ _ _
      _ = parseTags ⟨.st its :: cur, outer⟩ ts := by
          rw [parseTags_cons ts rfl, itemsOfRev_revOnto_nil]
  | ar e ih =>
    rename_i hf cur outer ts
    rw [itemTags, List.append_assoc, ih (itemFormed_of_array hf)]
    exact parseTags_cons ts (parseTag_array cur outer hf)
  | nil => rfl
  | cons it its ihit ih =>
    simp only [itemsFormed, Bool.and_eq_true] at hf
    rw [itemsTags, List.append_assoc, ihit hf.1]
    exact ih hf.2 _ _ _

theorem parseTags_itemTags {it : Item} (hf : itemFormed it = true) (cur : List Item) (outer : List (List Item))
    (ts : List Tag) : parseTags ⟨cur, outer⟩ (itemTags it ++ ts) = parseTags ⟨it :: cur, outer⟩ ts := by
  have h := parseTags_itemsTags (.cons it .nil) (by simp [itemsFormed, hf]) cur outer ts
  simpa [itemsTags, revOnto] using h

/-! ### The tags a parse has read (R160) -/

theorem itemsTags_append (x y : Items) : itemsTags (x.append y) = itemsTags x ++ itemsTags y := by
  induction x using Items.rec (motive_1 := fun _ => True) with
  | nil => rfl
  | cons it its _ ih => simp only [Items.append, itemsTags, ih, List.append_assoc]
  | _ => trivial

theorem itemsTags_itemsOfRev (cur : List Item) (acc : Items) :
    itemsTags (itemsOfRev cur acc) = itemsTags (itemsOfRev cur .nil) ++ itemsTags acc := by
  induction cur generalizing acc with
  | nil => rfl
  | cons it cur ih => rw [itemsOfRev, ih, itemsOfRev, ih (.cons it .nil)]; simp [itemsTags]

theorem itemsFormed_itemsOfRev (cur : List Item) (acc : Items) :
    itemsFormed (itemsOfRev cur acc) = true ↔ (∀ it ∈ cur, itemFormed it = true) ∧ itemsFormed acc = true := by
  induction cur generalizing acc with
  | nil => simp [itemsOfRev]
  | cons it cur ih => simp [itemsOfRev, ih, itemsFormed, and_assoc, and_left_comm]

/-- The tags of items kept last first. -/
def revTags (cur : List Item) : List Tag := itemsTags (itemsOfRev cur .nil)

theorem revTags_cons (it : Item) (cur : List Item) : revTags (it :: cur) = revTags cur ++ itemTags it := by
  rw [revTags, itemsOfRev, itemsTags_itemsOfRev]
  simp [itemsTags, revTags]

/-- The tags of the enclosing lists, each with the `(` that opens the list inside it. -/
def outerTags : List (List Item) → List Tag
  | [] => []
  | o :: os => outerTags os ++ revTags o ++ [.structOpen]

/-- The tags a parse has read. -/
def ParseState.tags (p : ParseState) : List Tag := outerTags p.outer ++ revTags p.cur

/-- Every item of a parse is one of R160. -/
def ParseState.Formed (p : ParseState) : Prop :=
  (∀ it ∈ p.cur, itemFormed it = true) ∧ ∀ o ∈ p.outer, ∀ it ∈ o, itemFormed it = true

/-- One tag is read: it joins the tags of the parse, and the items stay those of R160. -/
theorem parseTag_reads {p q : ParseState} {t : Tag} (h : parseTag p t = some q) (hp : p.Formed) :
    q.tags = p.tags ++ [t] ∧ q.Formed := by
  obtain ⟨cur, outer⟩ := p
  obtain ⟨hcur, houter⟩ := hp
  cases t with
  | scalar u =>
    cases h
    exact ⟨by simp [ParseState.tags, revTags_cons, itemTags], by simpa [itemFormed] using hcur, houter⟩
  | structOpen =>
    cases h
    exact ⟨by simp [ParseState.tags, outerTags, revTags, itemsOfRev, itemsTags], nofun,
      List.forall_mem_cons.mpr ⟨hcur, houter⟩⟩
  | structClose =>
    cases outer with
    | nil => simp [parseTag] at h
    | cons o os =>
      cases h
      obtain ⟨ho, hos⟩ := List.forall_mem_cons.mp houter
      have hst : itemFormed (.st (itemsOfRev cur .nil)) = true :=
        (itemsFormed_itemsOfRev cur .nil).mpr ⟨hcur, rfl⟩
      refine ⟨?_, List.forall_mem_cons.mpr ⟨hst, ho⟩, hos⟩
      simp only [ParseState.tags, outerTags, revTags_cons, itemTags, List.append_assoc]
      rfl
  | array =>
    cases cur with
    | nil => simp [parseTag] at h
    | cons e rest =>
      obtain ⟨he, hrest⟩ := List.forall_mem_cons.mp hcur
      cases e with
      | sc u =>
        cases h
        exact ⟨by simp [ParseState.tags, revTags_cons, itemTags], List.forall_mem_cons.mpr ⟨rfl, hrest⟩, houter⟩
      | st its =>
        cases h
        exact ⟨by simp [ParseState.tags, revTags_cons, itemTags], List.forall_mem_cons.mpr ⟨he, hrest⟩, houter⟩
      | ar e => simp [parseTag] at h

/-- A parse has read exactly its tags, and gives items of R160. -/
theorem parseTags_reads {p q : ParseState} {ts : List Tag} (h : parseTags p ts = some q) (hp : p.Formed) :
    q.tags = p.tags ++ ts ∧ q.Formed := by
  induction ts generalizing p with
  | nil => cases h; exact ⟨by simp, hp⟩
  | cons t ts ih =>
    simp only [parseTags] at h
    cases hr : parseTag p t with
    | none => simp [hr] at h
    | some r =>
      rw [hr] at h
      obtain ⟨htags, hformed⟩ := parseTag_reads hr hp
      obtain ⟨hq, hqf⟩ := ih h hformed
      exact ⟨by simp [hq, htags], hqf⟩

/-- Everything `Parse` can answer: it ends with every list closed. -/
theorem parseDesc_eq_some {ts : List Tag} {its : Items} :
    parseDesc ts = some its ↔ ∃ cur, parseTags ⟨[], []⟩ ts = some ⟨cur, []⟩ ∧ itemsOfRev cur .nil = its := by
  unfold parseDesc
  split
  · rename_i cur hp
    simp [hp]
  · rename_i hno
    simp only [reduceCtorEq, false_iff]
    rintro ⟨cur, hp, -⟩
    exact hno cur hp

theorem parseDesc_iff (ts : List Tag) (its : Items) :
    parseDesc ts = some its ↔ itemsTags its = ts ∧ itemsFormed its = true := by
  rw [parseDesc_eq_some]
  constructor
  · rintro ⟨cur, hp, rfl⟩
    obtain ⟨htags, hcur, -⟩ := parseTags_reads hp ⟨nofun, nofun⟩
    exact ⟨by simpa [ParseState.tags, outerTags, revTags, itemsOfRev, itemsTags] using htags,
      (itemsFormed_itemsOfRev cur .nil).mpr ⟨hcur, rfl⟩⟩
  · rintro ⟨rfl, hf⟩
    have hp := parseTags_itemsTags its hf [] [] []
    exact ⟨revOnto its [], by simpa [parseTags] using hp, itemsOfRev_revOnto_nil its⟩

/-- Settles O36: the tags of items parse to those items, whatever follows them, and a parse has read exactly the tags of
its items. -/
theorem parserReadsTheGrammar : Obligations.ParserReadsTheGrammar := parseDesc_iff

/-! ### A well-formed descriptor in the words of W1 to W6 (R162 to R168) -/

theorem wfItems_iff {c : Config} {desc : List Byte} {its : Items} :
    wfItems c desc = some its ↔
      ∃ ts, tagsOf desc = some ts ∧ balanced 0 ts = true ∧ depthWithin c.argMaxDepth 0 ts = true ∧
        starsPlaced false ts = true ∧ arraysTerminal ts = true ∧ parseDesc ts = some its ∧
        arraysProgress c its = true := by
  refine ⟨wfItems_spec, ?_⟩
  rintro ⟨ts, hts, hbalance, hdepth, hplaced, hterminal, hparse, hprogress⟩
  simp [wfItems, hts, hbalance, hdepth, hplaced, hterminal, hparse, hprogress]

/-- A well-formed descriptor is its items as the grammar writes them, arrays last, with elements of non-zero width. -/
theorem wfItems_tags {c : Config} {desc : List Byte} {its : Items} (h : wfItems c desc = some its) :
    desc = (itemsTags its).map Tag.toByte ∧ itemsFormed its = true ∧ arraysTerminal (itemsTags its) = true ∧
      arraysProgress c its = true := by
  obtain ⟨ts, hts, -, -, -, hterminal, hparse, hprogress⟩ := wfItems_spec h
  obtain ⟨rfl, hformed⟩ := (parseDesc_iff ts its).mp hparse
  exact ⟨tagsOf_eq_some.mp hts, hformed, hterminal, hprogress⟩

theorem wfItems_iff_passesChecks (c : Config) (desc : List Byte) (its : Items) :
    wfItems c desc = some its ↔ ∃ ts, PassesChecks c desc ts its := by
  have hdepth : ∀ ts, balanced 0 ts = true → (depthWithin c.argMaxDepth 0 ts = true ↔
      ∀ k, (ts.take k).count .structOpen ≤ (ts.take k).count .structClose + c.argMaxDepth) := fun ts hb => by
    simpa using depthWithin_iff c.argMaxDepth 0 ts hb (Nat.zero_le _)
  have hbalance : ∀ ts, balanced 0 ts = true ↔
      (∀ k, (ts.take k).count .structClose ≤ (ts.take k).count .structOpen) ∧
        ts.count .structClose = ts.count .structOpen := fun ts => by simpa using balanced_iff 0 ts
  have hplaced : ∀ ts, starsPlaced false ts = true ↔
      ∀ k, ts[k]? = some .array → ∃ j t, k = j + 1 ∧ ts[j]? = some t ∧ endsElement t := fun ts => by
    simpa using starsPlaced_iff false ts
  rw [wfItems_iff]
  constructor
  · rintro ⟨ts, hts, hb, hd, hp, ht, hparse, hprog⟩
    exact ⟨ts, tagsOf_eq_some.mp hts, (hbalance ts).mp hb, (hdepth ts hb).mp hd, (hplaced ts).mp hp,
      (arraysTerminal_iff ts).mp ht, (parseDesc_iff ts its).mp hparse, (arraysProgress_iff c its).mp hprog⟩
  · rintro ⟨ts, hlegal, hb, hd, hp, ht, hgrammar, hprog⟩
    have hb' := (hbalance ts).mpr hb
    exact ⟨ts, tagsOf_eq_some.mpr hlegal, hb', (hdepth ts hb').mpr hd, (hplaced ts).mpr hp,
      (arraysTerminal_iff ts).mpr ht, (parseDesc_iff ts its).mpr hgrammar, (arraysProgress_iff c its).mpr hprog⟩

theorem wfItems_eq_none {c : Config} {desc : List Byte} (h : ¬ ∃ ts its, PassesChecks c desc ts its) :
    wfItems c desc = none := by
  rw [Option.eq_none_iff_forall_ne_some]
  intro its hits
  obtain ⟨ts, hts⟩ := (wfItems_iff_passesChecks c desc its).mp hits
  exact h ⟨ts, its, hts⟩

/-! ### The results of both operations by the descriptor (R168, R186, R187) -/

theorem packReply_illFormed {c : Config} {desc : List Byte} (h : wfItems c desc = none) (vals : Values) (cap : Nat) :
    packReply c desc vals cap = .packed .errBadDesc [] := by
  simp [packReply, h]

theorem unpackReply_illFormed {c : Config} {desc : List Byte} (h : wfItems c desc = none) (input : List Byte) :
    unpackReply c desc input = .unpacked .errBadDesc .nil 0 := by
  simp [unpackReply, h]

/-- The results of ARG_PACK on a well-formed descriptor, in order of priority (R186). -/
theorem packReply_mismatch {c : Config} {desc : List Byte} {its : Items} {vals : Values}
    (h : wfItems c desc = some its) (hm : matchItems c its vals = false) (cap : Nat) :
    packReply c desc vals cap = .packed .errInvalidArgs [] := by
  simp [packReply, h, hm]

theorem packReply_noBufs {c : Config} {desc : List Byte} {its : Items} {vals : Values} {cap : Nat}
    (h : wfItems c desc = some its) (hm : matchItems c its vals = true) (hcap : cap < (encItems c its vals).length) :
    packReply c desc vals cap = .packed .errNoBufs [] := by
  simp [packReply, h, hm, hcap]

theorem packReply_ok {c : Config} {desc : List Byte} {its : Items} {vals : Values} {cap : Nat}
    (h : wfItems c desc = some its) (hm : matchItems c its vals = true) (hcap : (encItems c its vals).length ≤ cap) :
    packReply c desc vals cap = .packed .ok (encItems c its vals) := by
  simp [packReply, h, hm, Nat.not_lt.mpr hcap]

theorem packReply_st_ne_errBadDesc {c : Config} {desc : List Byte} {its : Items} (h : wfItems c desc = some its)
    (vals : Values) (cap : Nat) : (packReply c desc vals cap).st ≠ .errBadDesc := by
  cases hm : matchItems c its vals with
  | false => rw [packReply_mismatch h hm]; exact nofun
  | true =>
    rcases Nat.lt_or_ge cap (encItems c its vals).length with hcap | hcap
    · rw [packReply_noBufs h hm hcap]; exact nofun
    · rw [packReply_ok h hm hcap]; exact nofun

theorem unpackReply_wellFormed {c : Config} {desc : List Byte} {its : Items} (h : wfItems c desc = some its)
    (input : List Byte) : unpackReply c desc input = unpackItems c input its .nil 0 := by
  simp [unpackReply, h]

/-- The loop over the top-level items ends well, or where one starves (R187). -/
theorem unpackItems_st (cfg : Config) (input : List Byte) (its : Items) (got : Values) (c : Nat) :
    (unpackItems cfg input its got c).st = .ok ∨ (unpackItems cfg input its got c).st = .errParse := by
  induction its using Items.rec (motive_1 := fun _ => True) generalizing got c with
  | nil => exact .inl rfl
  | cons it its _ ih =>
    rw [unpackItems]
    cases decItem cfg input it c with
    | none => exact .inr rfl
    | some r => exact ih _ _
  | _ => trivial

theorem exec_argPack (desc : List Byte) (vals : Values) (cap : Nat) (s : State) :
    exec (.argPack desc vals cap) s = .next (s.respond (packReply s.cfg desc vals cap)) := rfl

theorem exec_argUnpack (desc input : List Byte) (s : State) :
    exec (.argUnpack desc input) s = .next (s.respond (unpackReply s.cfg desc input)) := rfl

/-- Settles O37: each check of the model says its rule, and the reply of both operations goes by the items. -/
theorem illFormedDescriptorIsRefused : Obligations.IllFormedDescriptorIsRefused := by
  refine ⟨wfItems_iff_passesChecks, ?_, ?_, ?_⟩
  · intro desc s hbad
    have hnone := wfItems_eq_none hbad
    constructor
    · intro vals cap
      rw [exec_argPack, packReply_illFormed hnone]
      rfl
    · intro input
      rw [exec_argUnpack, unpackReply_illFormed hnone]
      rfl
  · intro desc ts its s hgood
    have hits := (wfItems_iff_passesChecks s.cfg desc its).mpr ⟨ts, hgood⟩
    constructor
    · intro vals cap
      exact ⟨_, packReply_st_ne_errBadDesc hits vals cap, exec_argPack desc vals cap s⟩
    · intro input
      refine ⟨_, ?_, exec_argUnpack desc input s⟩
      rw [unpackReply_wellFormed hits]
      rcases unpackItems_st s.cfg input its .nil 0 with h | h <;> rw [h] <;> exact nofun
  · exact fun c => ⟨rfl, rfl, rfl, rfl, rfl, rfl, rfl, fun _ => rfl, rfl, fun _ _ => rfl⟩

/-- Settles O38: the reply of ARG_PACK is the first of its results that applies. -/
theorem argPackReturnsTheBytes : Obligations.ArgPackReturnsTheBytes := by
  intro desc vals cap its s
  have hexec : ∀ r, packReply s.cfg desc vals cap = r → exec (.argPack desc vals cap) s = .next (s.respond r) := by
    rintro _ rfl
    exact exec_argPack desc vals cap s
  exact ⟨rfl, fun hbad => hexec _ (packReply_illFormed hbad vals cap),
    fun hits hm => hexec _ (packReply_mismatch hits hm cap),
    fun hits hm hcap => hexec _ (packReply_noBufs hits hm hcap),
    fun hits hm hcap => hexec _ (packReply_ok hits hm hcap)⟩

end Sys2Proof.Machine
end

section
/-! PROOF. The scalar tags (42_argcodec.md R169, R171 to R177): the wire form of each, that it stands where a value
unpacks, and that a matching value packs to it. -/

namespace Sys2Proof.Machine

/-! ### The cursor's `need` and the bytes of a string (R177, R183) -/

theorem need_eq_some_iff {input bs : List Byte} {c n : Nat} :
    need input c n = some bs ↔ ∃ pre post, input = pre ++ (bs ++ post) ∧ pre.length = c ∧ bs.length = n := by
  constructor
  · intro h
    obtain ⟨hle, rfl⟩ := need_spec h
    refine ⟨input.take c, (input.drop c).drop n, ?_, ?_, ?_⟩
    · rw [List.take_append_drop, List.take_append_drop]
    · rw [List.length_take]
      omega
    · rw [List.length_take, List.length_drop]
      omega
  · rintro ⟨pre, post, rfl, rfl, rfl⟩
    simp [need, slice]

theorem need_of_le {input : List Byte} {c n : Nat} (h : c + n ≤ input.length) :
    need input c n = some ((input.drop c).take n) := if_pos h

theorem need_map {α : Type} (f : List Byte → α) (input : List Byte) (c n : Nat) :
    (need input c n).map f = if c + n ≤ input.length then some (f ((input.drop c).take n)) else none := by
  unfold need
  split
  · rfl
  · rfl

theorem untilNul_eq_none {l : List Byte} : untilNul l = none ↔ 0x00#8 ∉ l := by
  induction l with
  | nil => simp [untilNul]
  | cons b l ih =>
    rw [untilNul, List.mem_cons, not_or, ← ih]
    by_cases hb : b = 0x00#8
    · simp [hb]
    · rw [if_neg hb]
      cases untilNul l <;> simp [Ne.symm hb]

theorem untilNul_append_nul {bs : List Byte} (rest : List Byte) (h : 0x00#8 ∉ bs) :
    untilNul (bs ++ 0x00#8 :: rest) = some bs := by
  induction bs with
  | nil => rfl
  | cons b bs ih =>
    obtain ⟨hb, hbs⟩ := not_or.mp (List.mem_cons.not.mp h)
    rw [List.cons_append, untilNul, if_neg (Ne.symm hb), ih hbs]

theorem untilNul_eq_some_iff {l bs : List Byte} :
    untilNul l = some bs ↔ ∃ rest, l = bs ++ 0x00#8 :: rest ∧ 0x00#8 ∉ bs := by
  constructor
  · intro h
    have hmem : 0x00#8 ∈ l := by
      by_contra hno
      rw [untilNul_eq_none.mpr hno] at h
      cases h
    obtain ⟨as, rest, rfl, has⟩ := List.eq_append_cons_of_mem hmem
    rw [untilNul_append_nul rest has] at h
    cases h
    exact ⟨rest, rfl, has⟩
  · rintro ⟨rest, rfl, h⟩
    exact untilNul_append_nul rest h

/-! ### Each tag's unpacking as a need (R171 to R177) -/

theorem unpackBool_eq (input : List Byte) (c : Nat) :
    unpackBool input c = (need input c 1).map fun bs => (.bool (decide (fromLE bs ≠ 0)), c + 1) := by
  unfold unpackBool
  cases need input c 1 <;> rfl

theorem unpackU8_eq (input : List Byte) (c : Nat) :
    unpackU8 input c = (need input c 1).map fun bs => (.u8 (fromLE bs), c + 1) := by
  unfold unpackU8
  cases need input c 1 <;> rfl

theorem unpackU16_eq (input : List Byte) (c : Nat) :
    unpackU16 input c = (need input c 2).map fun bs => (.u16 (fromLE bs), c + 2) := by
  unfold unpackU16
  cases need input c 2 <;> rfl

theorem unpackU32_eq (input : List Byte) (c : Nat) :
    unpackU32 input c = (need input c 4).map fun bs => (.u32 (fromLE bs), c + 4) := by
  unfold unpackU32
  cases need input c 4 <;> rfl

theorem unpackI32_eq (input : List Byte) (c : Nat) :
    unpackI32 input c = (need input c 4).map fun bs => (.i32 (u32ToI32 (fromLE bs)), c + 4) := by
  unfold unpackI32
  cases need input c 4 <;> rfl

theorem unpackUtf8_eq (input : List Byte) (c : Nat) :
    unpackUtf8 input c = (untilNul (input.drop c)).map fun bs => (.str bs, c + bs.length + 1) := by
  unfold unpackUtf8
  cases untilNul (input.drop c) <;> rfl

/-- A blob: its length field says how many bytes follow (R176). -/
theorem unpackBlob_eq (cfg : Config) (input : List Byte) (c n : Nat)
    (hn : n = fromLE ((input.drop c).take cfg.blobLenBytes)) :
    unpackBlob cfg input c =
      if c + cfg.blobLenBytes + n ≤ input.length
      then some (.blob ((input.drop (c + cfg.blobLenBytes)).take n), c + cfg.blobLenBytes + n) else none := by
  subst hn
  unfold unpackBlob need slice
  by_cases hfield : c + cfg.blobLenBytes ≤ input.length
  · simp only [if_pos hfield, Nat.add_assoc]
    by_cases hall : c + (cfg.blobLenBytes + fromLE ((input.drop c).take cfg.blobLenBytes)) ≤ input.length
    · simp only [if_pos hall]
    · simp only [if_neg hall]
  · simp only [if_neg hfield]
    exact (if_neg (by omega)).symm

/-! ### The signed form of a word (R9, R89, R175) -/

theorem u32ToI32_eq_bmod {u : Nat} (h : u < 2 ^ 32) : u32ToI32 u = (u : Int).bmod (2 ^ 32) := by
  unfold u32ToI32
  rw [Int.bmod_def]
  split <;> split <;> omega

theorem u32ToI32_i32ToU32 {n : Int} (hlo : -2147483648 ≤ n) (hhi : n ≤ 2147483647) : u32ToI32 (i32ToU32 n) = n := by
  unfold u32ToI32 i32ToU32
  split <;> omega

/-! ### The values that match (R169) -/

theorem matchBool_iff {v : Value} : matchBool v = true ↔ ∃ x, v = .bool x := by
  cases v <;> simp [matchBool]

theorem matchU8_iff {v : Value} : matchU8 v = true ↔ ∃ n, v = .u8 n ∧ 0 ≤ n ∧ n < 2 ^ 8 := by
  cases v <;> simp [matchU8]
  omega

theorem matchU16_iff {v : Value} : matchU16 v = true ↔ ∃ n, v = .u16 n ∧ 0 ≤ n ∧ n < 2 ^ 16 := by
  cases v <;> simp [matchU16]
  omega

theorem matchU32_iff {v : Value} : matchU32 v = true ↔ ∃ n, v = .u32 n ∧ 0 ≤ n ∧ n < 2 ^ 32 := by
  cases v <;> simp [matchU32]
  omega

theorem matchI32_iff {v : Value} : matchI32 v = true ↔ ∃ n, v = .i32 n ∧ -2 ^ 31 ≤ n ∧ n < 2 ^ 31 := by
  cases v <;> simp [matchI32]
  omega

theorem matchBlob_iff {cfg : Config} {v : Value} :
    matchBlob cfg v = true ↔ ∃ bs, v = .blob bs ∧ bs.length < 2 ^ (8 * cfg.blobLenBytes) := by
  have hpow := Nat.two_pow_pos (8 * cfg.blobLenBytes)
  cases v <;> simp [matchBlob]
  omega

theorem matchUtf8_iff {v : Value} : matchUtf8 v = true ↔ ∃ bs, v = .str bs ∧ 0x00#8 ∉ bs := by
  cases v <;> simp [matchUtf8]
  exact ⟨fun h hmem => h _ hmem rfl, fun h b hb hz => h (hz ▸ hb)⟩

/-! ### The statement on the scalar tags (R169, R171 to R177) -/

theorem fromLE_byte_ne_zero {input : List Byte} {c : Nat} (hc : c + 1 ≤ input.length) :
    fromLE ((input.drop c).take 1) ≠ 0 ↔ input[c]? ≠ some 0x00#8 := by
  rw [List.drop_eq_getElem_cons (by omega), List.getElem?_eq_getElem (by omega), List.take_succ_cons, List.take_zero,
    fromLE, fromLE, Nat.mul_zero, Nat.add_zero, ne_eq, ne_eq, Option.some.injEq]
  exact not_congr (BitVec.toNat_eq (y := 0x00#8)).symm

theorem unpackBool_at (input : List Byte) (c : Nat) :
    unpackBool input c =
      if c + 1 ≤ input.length then some (.bool (decide (input[c]? ≠ some 0x00#8)), c + 1) else none := by
  rw [unpackBool_eq, need_map]
  split
  · rename_i hc
    rw [decide_eq_decide.mpr (fromLE_byte_ne_zero hc)]
  · rfl

theorem unpackI32_at (input : List Byte) (c : Nat) :
    unpackI32 input c =
      if c + 4 ≤ input.length then some (.i32 ((fromLE ((input.drop c).take 4) : Int).bmod (2 ^ 32)), c + 4)
        else none := by
  have hword : fromLE ((input.drop c).take 4) < 2 ^ 32 :=
    (fromLE_lt _).trans_le (Nat.pow_le_pow_right (by decide) (by simp; omega))
  rw [unpackI32_eq, need_map, u32ToI32_eq_bmod hword]

/-- Settles O43: each match is one kind of value within its range, and each unpacking is a need of its width. -/
theorem scalarTagWireForms : Obligations.ScalarTagWireForms := fun cfg input c =>
  ⟨fun _ => matchBool_iff, fun _ => rfl, unpackBool_at input c,
    fun _ => matchU8_iff, fun _ => rfl, (unpackU8_eq input c).trans (need_map ..),
    fun _ => matchU16_iff, fun _ => rfl, (unpackU16_eq input c).trans (need_map ..),
    fun _ => matchU32_iff, fun _ => rfl, (unpackU32_eq input c).trans (need_map ..),
    fun _ => matchI32_iff, fun _ => rfl, unpackI32_at input c,
    fun _ => matchBlob_iff, fun _ => rfl, unpackBlob_eq cfg input c,
    fun _ => matchUtf8_iff, fun _ => rfl,
    fun bs rest hdrop hbs => by rw [unpackScalar, unpackUtf8_eq, hdrop, untilNul_append_nul rest hbs]; rfl,
    fun hno => by rw [unpackScalar, unpackUtf8_eq, untilNul_eq_none.mpr hno]; rfl⟩

/-! ### The wire form of a scalar -/

/-- `bs` is a wire form of `v` for the tag: bytes that unpack to `v` and are read to their end (R171 to R177). -/
def IsWire (cfg : Config) : ScalarTag → List Byte → Value → Prop
  | .bool, bs, v => bs.length = 1 ∧ v = .bool (decide (fromLE bs ≠ 0))
  | .u8, bs, v => bs.length = 1 ∧ v = .u8 (fromLE bs)
  | .u16, bs, v => bs.length = 2 ∧ v = .u16 (fromLE bs)
  | .u32, bs, v => bs.length = 4 ∧ v = .u32 (fromLE bs)
  | .i32, bs, v => bs.length = 4 ∧ v = .i32 (u32ToI32 (fromLE bs))
  | .blob, bs, v => ∃ l p, bs = l ++ p ∧ l.length = cfg.blobLenBytes ∧ p.length = fromLE l ∧ v = .blob p
  | .utf8, bs, v => ∃ p, bs = p ++ [0x00#8] ∧ 0x00#8 ∉ p ∧ v = .str p

/-- A wire form of `v` stands in the input from `c` up to `c'`. -/
def WireAt (cfg : Config) (t : ScalarTag) (input : List Byte) (c : Nat) (v : Value) (c' : Nat) : Prop :=
  ∃ pre bs post, input = pre ++ (bs ++ post) ∧ pre.length = c ∧ c' = c + bs.length ∧ IsWire cfg t bs v

/-- A tag of fixed width unpacks the bytes it needs. -/
theorem need_map_eq_some_iff {input : List Byte} {c c' n : Nat} {f : List Byte → Value} {v : Value} :
    (need input c n).map (fun bs => (f bs, c + n)) = some (v, c') ↔
      ∃ pre bs post, input = pre ++ (bs ++ post) ∧ pre.length = c ∧ c' = c + bs.length ∧ bs.length = n ∧ v = f bs := by
  simp only [Option.map_eq_some_iff, need_eq_some_iff, Prod.mk.injEq]
  constructor
  · rintro ⟨bs, ⟨pre, post, hin, hpre, hbs⟩, hv, hc⟩
    exact ⟨pre, bs, post, hin, hpre, by rw [hbs, hc], hbs, hv.symm⟩
  · rintro ⟨pre, bs, post, hin, hpre, hc, hbs, hv⟩
    exact ⟨bs, ⟨pre, post, hin, hpre, hbs⟩, hv.symm, by rw [hc, hbs]⟩

theorem unpackBlob_eq_some_iff {cfg : Config} {input : List Byte} {c c' : Nat} {v : Value} :
    unpackBlob cfg input c = some (v, c') ↔ WireAt cfg .blob input c v c' := by
  constructor
  · intro h
    rw [unpackBlob_eq cfg input c _ rfl] at h
    rcases ite_eq_cases h with ⟨hle, h⟩ | ⟨-, h⟩
    · obtain ⟨pre, rest, hin, hpre, hl⟩ := need_eq_some_iff.mp (need_of_le (Nat.le_of_add_right_le hle))
      generalize hlen : (input.drop c).take cfg.blobLenBytes = l at *
      subst hin hpre
      simp only [List.length_append] at hle
      simp only [← hl, List.drop_length_add_append, List.drop_left, Option.some.injEq, Prod.mk.injEq] at h
      obtain ⟨rfl, rfl⟩ := h
      refine ⟨pre, l ++ rest.take (fromLE l), rest.drop (fromLE l), by simp, rfl, ?_, l, _, rfl, hl, ?_, rfl⟩
      · simp [Nat.add_assoc]
        omega
      · simp
        omega
    · cases h
  · rintro ⟨pre, _, post, rfl, rfl, rfl, l, p, rfl, hl, hp, rfl⟩
    have hl' : ((pre ++ (l ++ p ++ post)).drop pre.length).take cfg.blobLenBytes = l := by
      simp [← hl]
    have hp' : ((pre ++ (l ++ p ++ post)).drop (pre.length + cfg.blobLenBytes)).take (fromLE l) = p := by
      simp [← hl, ← hp]
    rw [unpackBlob_eq cfg _ _ (fromLE l) (by rw [hl']), hp', if_pos (by simp; omega)]
    simp [hl, hp, Nat.add_assoc]

theorem unpackUtf8_eq_some_iff {input : List Byte} {cfg : Config} {c c' : Nat} {v : Value} :
    unpackUtf8 input c = some (v, c') ↔ WireAt cfg .utf8 input c v c' := by
  rw [unpackUtf8_eq]
  simp only [Option.map_eq_some_iff, untilNul_eq_some_iff, Prod.mk.injEq]
  constructor
  · rintro ⟨p, ⟨rest, hdrop, hp⟩, rfl, rfl⟩
    have hc : c ≤ input.length := by
      by_contra hc
      rw [List.drop_eq_nil_of_le (by omega)] at hdrop
      simp at hdrop
    refine ⟨input.take c, p ++ [0x00#8], rest, ?_, by simpa using hc, by simp [Nat.add_assoc], p, rfl, hp, rfl⟩
    conv_lhs => rw [← List.take_append_drop c input, hdrop]
    simp
  · rintro ⟨pre, _, post, rfl, rfl, rfl, p, rfl, hp, rfl⟩
    exact ⟨p, ⟨post, by simp, hp⟩, rfl, by simp [Nat.add_assoc]⟩

/-- A scalar unpacks where a wire form of it stands, and the cursor moves past that form (R182, R183). -/
theorem unpackScalar_eq_some_iff {cfg : Config} {t : ScalarTag} {input : List Byte} {c c' : Nat} {v : Value} :
    unpackScalar cfg t input c = some (v, c') ↔ WireAt cfg t input c v c' := by
  cases t with
  | bool => rw [unpackScalar, unpackBool_eq]; exact need_map_eq_some_iff
  | u8 => rw [unpackScalar, unpackU8_eq]; exact need_map_eq_some_iff
  | u16 => rw [unpackScalar, unpackU16_eq]; exact need_map_eq_some_iff
  | u32 => rw [unpackScalar, unpackU32_eq]; exact need_map_eq_some_iff
  | i32 => rw [unpackScalar, unpackI32_eq]; exact need_map_eq_some_iff
  | blob => exact unpackBlob_eq_some_iff
  | utf8 => exact unpackUtf8_eq_some_iff

/-- A wire form is as long as the tag's minimum width, or longer (R167). -/
theorem IsWire.minWidthScalar_le {cfg : Config} {t : ScalarTag} {bs : List Byte} {v : Value}
    (h : IsWire cfg t bs v) : minWidthScalar cfg t ≤ bs.length := by
  cases t with
  | bool | u8 | u16 | u32 | i32 => exact h.1.ge
  | blob =>
    obtain ⟨l, p, rfl, hl, -, -⟩ := h
    simp [minWidthScalar, hl]
  | utf8 =>
    obtain ⟨p, rfl, -, -⟩ := h
    simp [minWidthScalar]

/-- A matching value packs to a wire form of it (R188 for one scalar). -/
theorem packScalar_isWire {cfg : Config} {t : ScalarTag} {v : Value} (h : matchScalar cfg t v = true) :
    IsWire cfg t (packScalar cfg t v) v := by
  cases t with
  | bool =>
    obtain ⟨x, rfl⟩ := matchBool_iff.mp h
    cases x <;> exact ⟨rfl, rfl⟩
  | u8 =>
    obtain ⟨n, rfl, hlo, hhi⟩ := matchU8_iff.mp h
    refine ⟨leBytes_length 1 _, ?_⟩
    rw [packScalar, packU8, fromLE_leBytes_of_lt (by omega), Int.toNat_of_nonneg hlo]
  | u16 =>
    obtain ⟨n, rfl, hlo, hhi⟩ := matchU16_iff.mp h
    refine ⟨leBytes_length 2 _, ?_⟩
    rw [packScalar, packU16, fromLE_leBytes_of_lt (by omega), Int.toNat_of_nonneg hlo]
  | u32 =>
    obtain ⟨n, rfl, hlo, hhi⟩ := matchU32_iff.mp h
    refine ⟨leBytes_length 4 _, ?_⟩
    rw [packScalar, packU32, fromLE_leBytes_of_lt (by omega), Int.toNat_of_nonneg hlo]
  | i32 =>
    obtain ⟨n, rfl, hlo, hhi⟩ := matchI32_iff.mp h
    refine ⟨leBytes_length 4 _, ?_⟩
    rw [packScalar, packI32, fromLE_leBytes_of_lt (by unfold i32ToU32; omega),
      u32ToI32_i32ToU32 (by omega) (by omega)]
  | blob =>
    obtain ⟨bs, rfl, hlen⟩ := matchBlob_iff.mp h
    exact ⟨_, bs, rfl, leBytes_length _ _, (fromLE_leBytes_of_lt hlen).symm, rfl⟩
  | utf8 =>
    obtain ⟨bs, rfl, hnul⟩ := matchUtf8_iff.mp h
    exact ⟨bs, rfl, hnul, rfl⟩

end Sys2Proof.Machine
end

section
/-! PROOF. The decoding walk (42_argcodec.md R182 to R184) and its laws: the cursor moves on, bytes past an array-free
item do not matter (R190), and what is packed is unpacked (R188). -/

namespace Sys2Proof.Machine

/-! ### What each kind of item decodes to (R180, R182) -/

theorem decItem_st_eq_some_iff {cfg : Config} {input : List Byte} {its : Items} {c c' : Nat} {v : Value} :
    decItem cfg input (.st its) c = some (v, c') ↔ ∃ vs, decItems cfg input its c = some (vs, c') ∧ v = .struct vs := by
  rw [decItem]
  cases decItems cfg input its c with
  | none => simp
  | some r => simp [Prod.ext_iff, and_comm, eq_comm]

theorem decItem_ar_eq_some_iff {cfg : Config} {input : List Byte} {e : Item} {c c' : Nat} {v : Value} :
    decItem cfg input (.ar e) c = some (v, c') ↔
      ∃ vs, arrayLoop (decItem cfg input e) input.length (input.length - c) c = some (vs, c') ∧ v = .array vs := by
  rw [decItem]
  cases arrayLoop (decItem cfg input e) input.length (input.length - c) c with
  | none => simp
  | some r => simp [Prod.ext_iff, and_comm, eq_comm]

theorem decItems_cons_eq_some_iff {cfg : Config} {input : List Byte} {it : Item} {its : Items} {c c' : Nat}
    {ws : Values} :
    decItems cfg input (.cons it its) c = some (ws, c') ↔
      ∃ v d vs, decItem cfg input it c = some (v, d) ∧ decItems cfg input its d = some (vs, c') ∧ ws = .cons v vs := by
  rw [decItems]
  cases decItem cfg input it c with
  | none => simp
  | some r =>
    obtain ⟨v, d⟩ := r
    cases hd : decItems cfg input its d with
    | none => simp [hd]
    | some q => simp [hd, Prod.ext_iff, and_comm, eq_comm]

/-! ### The array loop (R180, R184) -/

theorem arrayLoop_of_le {dec : Nat → Option (Value × Nat)} {size c : Nat} (h : size ≤ c) (fuel : Nat) :
    arrayLoop dec size fuel c = some (.nil, c) := by
  cases fuel <;> rw [arrayLoop, if_neg (Nat.not_lt.mpr h)]

theorem arrayLoop_succ_eq_some_iff {dec : Nat → Option (Value × Nat)} {size fuel c c' : Nat} {ws : Values}
    (h : c < size) :
    arrayLoop dec size (fuel + 1) c = some (ws, c') ↔
      ∃ v d vs, dec c = some (v, d) ∧ arrayLoop dec size fuel d = some (vs, c') ∧ ws = .cons v vs := by
  rw [arrayLoop, if_pos h]
  cases dec c with
  | none => simp
  | some r =>
    obtain ⟨v, d⟩ := r
    cases hd : arrayLoop dec size fuel d with
    | none => simp [hd]
    | some q => simp [hd, Prod.ext_iff, and_comm, eq_comm]

theorem arrayLoop_cursor {dec : Nat → Option (Value × Nat)} {size fuel c c' : Nat} {ws : Values}
    (hdec : ∀ c v c', dec c = some (v, c') → c ≤ c') (h : arrayLoop dec size fuel c = some (ws, c')) : c ≤ c' := by
  induction fuel generalizing c ws with
  | zero =>
    rcases ite_eq_cases h with ⟨-, h⟩ | ⟨-, h⟩ <;> cases h
    exact Nat.le_refl _
  | succ fuel ih =>
    rcases Nat.lt_or_ge c size with hc | hc
    · obtain ⟨v, d, vs, hd, hloop, -⟩ := (arrayLoop_succ_eq_some_iff hc).mp h
      exact (hdec c v d hd).trans (ih hloop)
    · rw [arrayLoop_of_le hc] at h
      cases h
      exact Nat.le_refl _

/-- When each element moves the cursor, as many passes as bytes are left are enough. -/
theorem arrayLoop_fuel {dec : Nat → Option (Value × Nat)} {size : Nat}
    (hdec : ∀ c v c', dec c = some (v, c') → c < c') {f g c : Nat} (hf : size - c ≤ f) (hg : size - c ≤ g) :
    arrayLoop dec size f c = arrayLoop dec size g c := by
  induction f generalizing g c with
  | zero => rw [arrayLoop_of_le (by omega), arrayLoop_of_le (by omega)]
  | succ f ih =>
    rcases Nat.lt_or_ge c size with hc | hc
    · obtain ⟨g, rfl⟩ : ∃ k, g = k + 1 := ⟨g - 1, by omega⟩
      rw [arrayLoop, arrayLoop]
      cases hd : dec c with
      | none => rfl
      | some r =>
        obtain ⟨v, d⟩ := r
        have hlt := hdec c v d hd
        simp only [ih (g := g) (c := d) (by omega) (by omega)]
    · rw [arrayLoop_of_le hc, arrayLoop_of_le hc]

/-! ### The cursor moves on (R184) -/

/-- An item that decodes moves the cursor by its minimum width or more. -/
theorem decItem_cursor {cfg : Config} {input : List Byte} {it : Item} {c c' : Nat} {v : Value}
    (h : decItem cfg input it c = some (v, c')) : c + minWidth cfg it ≤ c' := by
  induction it using Item.rec
    (motive_2 := fun its => ∀ c c' vs, decItems cfg input its c = some (vs, c') → c + minWidths cfg its ≤ c')
    generalizing c c' v with
  | sc t =>
    obtain ⟨-, bs, -, -, -, rfl, hwire⟩ := unpackScalar_eq_some_iff.mp h
    exact Nat.add_le_add_left hwire.minWidthScalar_le c
  | st its ih =>
    obtain ⟨vs, hvs, -⟩ := decItem_st_eq_some_iff.mp h
    exact ih _ _ _ hvs
  | ar e ih =>
    obtain ⟨vs, hvs, -⟩ := decItem_ar_eq_some_iff.mp h
    exact arrayLoop_cursor (fun _ _ _ he => Nat.le_of_add_right_le (ih he)) hvs
  | nil =>
    rename_i h
    cases h
    exact Nat.le_refl _
  | cons it its ihit ih =>
    rename_i h
    obtain ⟨v, d, vs, hd, hds, -⟩ := decItems_cons_eq_some_iff.mp h
    have hfirst := ihit hd
    have hrest := ih _ _ _ hds
    simp only [minWidths]
    omega

/-- Settles O42: every decode moves the cursor by the minimum width, so the passes never run out before the bytes. -/
theorem arrayLoopTerminates : Obligations.ArrayLoopTerminates := fun _ _ _ _ _ hwidth hfuel =>
  ⟨fun _ _ h => decItem_cursor h,
    arrayLoop_fuel (fun _ _ _ h => Nat.lt_of_lt_of_le (Nat.lt_add_of_pos_right hwidth) (decItem_cursor h)) hfuel
      (Nat.le_refl _)⟩

/-! ### The loop over the top-level items (R187) -/

/-- The loop ends well when the items decode, with their values after those it had. -/
theorem unpackItems_eq_ok_iff {cfg : Config} {input : List Byte} {its : Items} {got vs : Values} {c k : Nat} :
    unpackItems cfg input its got c = .unpacked .ok vs k ↔
      ∃ ws, decItems cfg input its c = some (ws, k) ∧ vs = got.append ws := by
  induction its using Items.rec (motive_1 := fun _ => True) generalizing got c with
  | nil => simp [unpackItems, decItems, eq_comm, and_comm]
  | cons it its _ ih =>
    rw [unpackItems]
    simp only [decItems_cons_eq_some_iff]
    cases decItem cfg input it c with
    | none => simp
    | some r =>
      obtain ⟨v, d⟩ := r
      simp only [ih, Values.snoc, Values.append_assoc, Values.append, Option.some.injEq, Prod.mk.injEq]
      constructor
      · rintro ⟨ws, hws, rfl⟩
        exact ⟨_, ⟨v, d, ws, ⟨rfl, rfl⟩, hws, rfl⟩, rfl⟩
      · rintro ⟨_, ⟨_, _, ws, ⟨rfl, rfl⟩, hws, rfl⟩, rfl⟩
        exact ⟨ws, hws, rfl⟩
  | _ => trivial

/-- The loop stops at the first item that starves, with the values of those before it. -/
theorem unpackItems_starved {cfg : Config} {input : List Byte} {done rest : Items} {it : Item} {vs : Values}
    {c d : Nat} (got : Values) (hdone : decItems cfg input done c = some (vs, d))
    (hstarved : decItem cfg input it d = none) :
    unpackItems cfg input (done.append (.cons it rest)) got c = .unpacked .errParse (got.append vs) d := by
  induction done using Items.rec (motive_1 := fun _ => True) generalizing got c vs with
  | nil =>
    cases hdone
    rw [Items.append, unpackItems, hstarved, Values.append_nil]
  | cons jt done _ ih =>
    obtain ⟨v, d', ws, hv, hws, rfl⟩ := decItems_cons_eq_some_iff.mp hdone
    rw [Items.append, unpackItems, hv]
    refine (ih (got.snoc v) hws).trans ?_
    rw [Values.snoc, Values.append_assoc]
    rfl
  | _ => trivial

/-- Settles O39: the reply of ARG_UNPACK is what the loop over the top-level items ends with. -/
theorem argUnpackReturnsTheValues : Obligations.ArgUnpackReturnsTheValues := by
  intro desc input its s
  have hexec : ∀ r, unpackReply s.cfg desc input = r → exec (.argUnpack desc input) s = .next (s.respond r) := by
    rintro _ rfl
    exact exec_argUnpack desc input s
  refine ⟨rfl, fun hbad => hexec _ (unpackReply_illFormed hbad input), fun vs c hits hdec => hexec _ ?_,
    fun done it rest vs c hits heq hdone hstarved => hexec _ ?_⟩
  · exact (unpackReply_wellFormed hits input).trans (unpackItems_eq_ok_iff.mpr ⟨vs, hdec, rfl⟩)
  · subst heq
    exact (unpackReply_wellFormed hits input).trans (unpackItems_starved .nil hdone hstarved)

/-! ### Bytes past an array-free item (R190) -/

theorem decItems_append {cfg : Config} {input : List Byte} (more : List Byte) {its : Items} {c c' : Nat} {vs : Values}
    (hno : .array ∉ itemsTags its) (h : decItems cfg input its c = some (vs, c')) :
    decItems cfg (input ++ more) its c = some (vs, c') := by
  induction its using Items.rec
    (motive_1 := fun it => .array ∉ itemTags it → ∀ c v c', decItem cfg input it c = some (v, c') →
      decItem cfg (input ++ more) it c = some (v, c'))
    generalizing c c' vs with
  | sc t =>
    rename_i h
    obtain ⟨pre, bs, post, rfl, hpre, hc, hwire⟩ := unpackScalar_eq_some_iff.mp h
    exact unpackScalar_eq_some_iff.mpr ⟨pre, bs, post ++ more, by simp, hpre, hc, hwire⟩
  | st its ih =>
    rename_i hno c v c' h
    obtain ⟨vs, hvs, rfl⟩ := decItem_st_eq_some_iff.mp h
    exact decItem_st_eq_some_iff.mpr ⟨vs, ih (fun hmem => hno (by simp [itemTags, hmem])) hvs, rfl⟩
  | ar e _ =>
    rename_i hno _ _ _ _
    exact absurd (by simp [itemTags]) hno
  | nil =>
    exact h
  | cons it its ihit ih =>
    obtain ⟨hit, hits⟩ := not_or.mp (List.mem_append.not.mp hno)
    obtain ⟨v, d, ws, hv, hws, rfl⟩ := decItems_cons_eq_some_iff.mp h
    exact decItems_cons_eq_some_iff.mpr ⟨v, d, ws, ihit hit _ _ _ hv, ih hits hws, rfl⟩

/-- A descriptor with no byte `*` has items with no tag `*`. -/
theorem array_not_mem_of_wfItems {c : Config} {desc : List Byte} {its : Items} (h : wfItems c desc = some its)
    (hno : 0x2A#8 ∉ desc) : .array ∉ itemsTags its := by
  obtain ⟨rfl, -⟩ := wfItems_tags h
  intro hmem
  exact hno (List.mem_map_of_mem (f := Tag.toByte) hmem)

/-- Settles O41: every array-free item decodes the same bytes whatever follows them. -/
theorem trailingBytesAreIgnored : Obligations.TrailingBytesAreIgnored := by
  intro c desc input more vs k hno hok
  cases hits : wfItems c desc with
  | none =>
    rw [unpackReply_illFormed hits] at hok
    cases hok
  | some its =>
    rw [unpackReply_wellFormed hits] at hok ⊢
    obtain ⟨ws, hdec, hvs⟩ := unpackItems_eq_ok_iff.mp hok
    exact unpackItems_eq_ok_iff.mpr ⟨ws, decItems_append more (array_not_mem_of_wfItems hits hno) hdec, hvs⟩

/-! ### Where an array may stand (R165) -/

theorem arraysTerminal_append_right {xs ys : List Tag} (h : arraysTerminal (xs ++ ys) = true) :
    arraysTerminal ys = true := by
  induction xs with
  | nil => exact h
  | cons t xs ih =>
    cases t with
    | scalar u | structOpen | structClose => exact ih h
    | array =>
      simp only [List.cons_append, arraysTerminal, Bool.and_eq_true] at h
      exact ih h.2

/-- After a `*` only `)` may follow. -/
theorem arraysTerminal_append_of_mem {xs ys : List Tag} (h : arraysTerminal (xs ++ ys) = true)
    (hmem : .array ∈ xs) : ∀ t ∈ ys, t = .structClose := by
  obtain ⟨as, bs, rfl⟩ := List.append_of_mem hmem
  intro t ht
  refine (arraysTerminal_iff _).mp h as.length (by simp) t ?_
  simp [ht]

theorem arraysTerminal_append_left {xs ys : List Tag} (h : arraysTerminal (xs ++ ys) = true) :
    arraysTerminal xs = true := by
  refine (arraysTerminal_iff xs).mpr fun k hk t ht => (arraysTerminal_iff _).mp h k ?_ t ?_
  · rwa [List.getElem?_append_left (List.getElem?_eq_some_iff.mp hk).1]
  · rw [List.drop_append]
    exact List.mem_append_left _ ht

/-- An item is written with a scalar tag or a `(` first. -/
theorem itemTags_eq_cons (it : Item) : ∃ t ts, itemTags it = t :: ts ∧ t ≠ .structClose ∧ t ≠ .array := by
  induction it using Item.rec (motive_2 := fun _ => True) with
  | sc t => exact ⟨_, _, rfl, nofun, nofun⟩
  | st its => exact ⟨_, _, rfl, nofun, nofun⟩
  | ar e ih =>
    obtain ⟨t, ts, h, ht⟩ := ih
    exact ⟨t, ts ++ [.array], by rw [itemTags, h]; rfl, ht⟩
  | _ => trivial

/-! ### Round trip (R188) -/

theorem arrayLoop_concatValues {cfg : Config} {e : Item} {input pre : List Byte} {vs : Values} {fuel : Nat}
    (hin : input = pre ++ concatValues (encItem cfg e) vs)
    (hdec : ∀ v pre post, matchItem cfg e v = true → input = pre ++ (encItem cfg e v ++ post) →
      decItem cfg input e pre.length = some (v, pre.length + (encItem cfg e v).length))
    (hwidth : 1 ≤ minWidth cfg e) (hm : allValues (matchItem cfg e) vs = true)
    (hfuel : (concatValues (encItem cfg e) vs).length ≤ fuel) :
    arrayLoop (decItem cfg input e) input.length fuel pre.length = some (vs, input.length) := by
  induction vs using Values.rec (motive_1 := fun _ => True) generalizing pre fuel with
  | nil =>
    have hlen : input.length = pre.length := by simp [hin, concatValues]
    rw [arrayLoop_of_le hlen.le, hlen]
  | cons v vs _ ih =>
    simp only [allValues, Bool.and_eq_true] at hm
    rw [concatValues] at hin hfuel
    have hv := hdec v pre _ hm.1 hin
    have hpos := decItem_cursor hv
    have hlen := congrArg List.length hin
    simp only [List.length_append] at hlen hfuel
    obtain ⟨fuel, rfl⟩ : ∃ k, fuel = k + 1 := ⟨fuel - 1, by omega⟩
    have hrest := ih (pre := pre ++ encItem cfg e v) (fuel := fuel) (by simp [hin]) hm.2 (by omega)
    rw [List.length_append] at hrest
    exact (arrayLoop_succ_eq_some_iff (by omega)).mpr ⟨v, _, vs, hv, hrest, rfl⟩
  | _ => trivial

/-- The bytes of matching values decode to those values where they stand; after an item with an array they must end the
input (R165, R180). -/
theorem decItems_encItems {cfg : Config} {its : Items} (ht : arraysTerminal (itemsTags its) = true)
    (hp : arraysProgress cfg its = true) {vs : Values} (hm : matchItems cfg its vs = true) (pre post : List Byte)
    (hend : .array ∈ itemsTags its → post = []) :
    decItems cfg (pre ++ (encItems cfg its vs ++ post)) its pre.length =
      some (vs, pre.length + (encItems cfg its vs).length) := by
  induction its using Items.rec
    (motive_1 := fun it => arraysTerminal (itemTags it) = true → arrayProgress cfg it = true →
      ∀ v, matchItem cfg it v = true → ∀ pre post : List Byte, (.array ∈ itemTags it → post = []) →
        decItem cfg (pre ++ (encItem cfg it v ++ post)) it pre.length =
          some (v, pre.length + (encItem cfg it v).length))
    generalizing vs pre post with
  | sc t =>
    rename_i v hm pre post _
    exact unpackScalar_eq_some_iff.mpr ⟨pre, _, post, rfl, rfl, rfl, packScalar_isWire hm⟩
  | st its ih =>
    rename_i ht hp v hm pre post hend
    cases v with
    | struct vs =>
      refine decItem_st_eq_some_iff.mpr ⟨vs, ?_, rfl⟩
      exact ih (arraysTerminal_append_left (ys := [.structClose]) ht) hp hm pre post
        fun hmem => hend (by simp [itemTags, hmem])
    | _ => simp [matchItem] at hm
  | ar e ih =>
    rename_i ht hp v hm pre post hend
    obtain rfl := hend (by simp [itemTags])
    simp only [arrayProgress, Bool.and_eq_true, decide_eq_true_eq] at hp
    have hno : .array ∉ itemTags e := fun hmem => by
      cases arraysTerminal_append_of_mem ht hmem .array (by simp)
    cases v with
    | array vs =>
      have hin : pre ++ (encItem cfg (.ar e) (.array vs) ++ []) = pre ++ concatValues (encItem cfg e) vs := by
        simp [encItem]
      refine decItem_ar_eq_some_iff.mpr ⟨vs, ?_, rfl⟩
      rw [arrayLoop_concatValues hin (fun v pre post hv heq => ?_) hp.1 hm]
      · simp [encItem]
      · simp [encItem]
      · rw [heq]
        exact ih (arraysTerminal_append_left ht) hp.2 v hv pre post fun hmem => absurd hmem hno
    | _ => simp [matchItem] at hm
  | nil =>
    cases vs with
    | nil => rfl
    | cons v vs => simp [matchItems] at hm
  | cons it its ihit ih =>
    cases vs with
    | nil => simp [matchItems] at hm
    | cons v vs =>
      simp only [matchItems, Bool.and_eq_true] at hm
      simp only [arraysProgress, Bool.and_eq_true] at hp
      rw [itemsTags] at ht hend
      have hlast : .array ∈ itemTags it → its = .nil := by
        intro hmem
        cases its with
        | nil => rfl
        | cons jt js =>
          obtain ⟨t, ts, hts, hclose, -⟩ := itemTags_eq_cons jt
          exact absurd (arraysTerminal_append_of_mem ht hmem t (by simp [itemsTags, hts])) hclose
      have hfirst := ihit (arraysTerminal_append_left ht) hp.1 v hm.1 pre (encItems cfg its vs ++ post) fun hmem => by
        obtain rfl := hlast hmem
        simp [encItems, hend (List.mem_append_left _ hmem)]
      have hrest := ih (arraysTerminal_append_right ht) hp.2 hm.2 (pre ++ encItem cfg it v) post
        fun hmem => hend (List.mem_append_right _ hmem)
      simp only [List.append_assoc, List.length_append] at hfirst hrest
      refine decItems_cons_eq_some_iff.mpr ⟨v, pre.length + (encItem cfg it v).length, vs, ?_, ?_, rfl⟩
      · simpa [encItems] using hfirst
      · simpa [encItems, Nat.add_assoc] using hrest

/-- Settles O40: the bytes of matching values, read from their start, decode to those values at their end. -/
theorem argRoundTrip : Obligations.ArgRoundTrip := by
  intro desc vals cap its s hits hm hcap
  obtain ⟨-, -, hterminal, hprogress⟩ := wfItems_tags hits
  have hdec := decItems_encItems hterminal hprogress hm [] [] fun _ => rfl
  simp only [List.nil_append, List.append_nil, List.length_nil, Nat.zero_add] at hdec
  refine ⟨encItems s.cfg its vals, ?_, ?_⟩
  · rw [exec_argPack, packReply_ok hits hm hcap]
    rfl
  · rw [exec_argUnpack, unpackReply_wellFormed hits, unpackItems_eq_ok_iff.mpr ⟨vals, hdec, rfl⟩]
    rfl

end Sys2Proof.Machine
end

section
/-! PROOF. The ten tags on the walk in progress (42_argcodec.md R171 to R180, R182): each takes one item, opens a list
or closes one, or leaves an array's element to its `*`. -/

namespace Sys2Proof.Machine

/-! ### The walk goes on or ends (R182) -/

theorem onWalk_wellFormed {act : Walk → State → State} {s : State} {w : Walk} (hw : s.walk = some w)
    (hwf : wfDesc s.cfg w.desc = true) : onWalk act s = .next (act w s) := by
  simp [onWalk, hw, hwf]

theorem onWalk_illFormed {act : Walk → State → State} {s : State} {w : Walk} (hw : s.walk = some w)
    (hwf : wfDesc s.cfg w.desc = false) : onWalk act s = .next (walkClose s (badDescReply w.job)) := by
  simp [onWalk, hw, hwf]

theorem walkTo_of_lt {w : Walk} {pos : Nat} (h : pos < w.desc.length) (s : State) (job : Job) :
    walkTo s w pos job = s.setWalk (some ⟨w.desc, pos, job⟩) := if_pos h

theorem walkTo_of_le {w : Walk} {pos : Nat} (h : w.desc.length ≤ pos) (s : State) (job : Job) :
    walkTo s w pos job = walkClose s (walkResult job) := if_neg (Nat.not_lt.mpr h)

/-- Settles O44: an ill-formed descriptor ends the walk at any tag, and the end of the descriptor ends it with the
results of its job. -/
theorem walkGoesOnOrEnds : Obligations.WalkGoesOnOrEnds := by
  refine ⟨fun s w t hw hwf => ?_, fun s w pos job => ⟨fun hlt => walkTo_of_lt hlt s job, fun hle => ?_⟩⟩
  · have hexec : exec (Instr.ofTag t) s = .next (walkClose s (badDescReply w.job)) :=
      (exec_ofTag t s).trans (onWalk_illFormed hw hwf)
    refine ⟨fun input c got outer consumed hjob => ?_, fun vals outer out cap hjob => ?_⟩
    · rw [hexec, hjob]
      rfl
    · rw [hexec, hjob]
      rfl
  · rw [walkTo_of_le hle]
    refine ⟨?_, ?_, ?_, ?_⟩
    · rintro input c got consumed rfl
      rfl
    · rintro out cap rfl hcap
      rw [walkResult, if_neg (Nat.not_lt.mpr hcap)]
      rfl
    · rintro out cap rfl hcap
      rw [walkResult, if_pos hcap]
      rfl
    · rintro v vs out cap rfl
      rfl

/-! ### One item taken by a job (R169, R170, R182) -/

/-- What an item does to the job of a walk: it takes the next value or the bytes at the cursor, or it ends the walk with
a reply. -/
def jobItem (cfg : Config) (it : Item) : Job → Except Reply Job
  | .pack .nil _ _ _ => .error (.packed .errInvalidArgs [])
  | .pack (.cons v todo) outer out cap =>
    if matchItem cfg it v then .ok (.pack todo outer (out ++ encItem cfg it v) cap)
    else .error (.packed .errInvalidArgs [])
  | .unpack input c got outer consumed =>
    match decItem cfg input it c with
    | none => .error (.unpacked .errParse (topValues got outer) consumed)
    | some (v, c') => .ok (.unpack input c' (got.snoc v) outer (consumedAfter outer consumed c'))

/-- What `(` does to the job: it opens a list inside the current one (R178). -/
def jobOpen : Job → Except Reply Job
  | .pack (.cons (.struct vs) todo) outer out cap => .ok (.pack vs (todo :: outer) out cap)
  | .pack _ _ _ _ => .error (.packed .errInvalidArgs [])
  | .unpack input c got outer consumed => .ok (.unpack input c .nil (got :: outer) consumed)

/-- What `)` does to the job: it goes back to the enclosing list (R179). -/
def jobClose : Job → Except Reply Job
  | .pack .nil (todo :: outer) out cap => .ok (.pack todo outer out cap)
  | .pack (.cons _ _) (_ :: _) _ _ => .error (.packed .errInvalidArgs [])
  | .unpack input c vs (got :: outer) consumed =>
    .ok (.unpack input c (got.snoc (.struct vs)) outer (consumedAfter outer consumed c))
  | .pack _ [] _ _ => .error (.packed .errBadDesc [])
  | .unpack _ _ _ [] _ => .error (.unpacked .errBadDesc .nil 0)

/-- The walk after a job: it stands at descriptor position `pos`, or it has ended with the reply. -/
def walkOn (s : State) (w : Walk) (pos : Nat) : Except Reply Job → State
  | .ok job => walkTo s w pos job
  | .error r => walkClose s r

/-! What an item does to a packing job and to an unpacking one. -/

theorem jobItem_pack_match {cfg : Config} {it : Item} {v : Value} (h : matchItem cfg it v = true) (todo : Values)
    (outer : List Values) (out : List Byte) (cap : Nat) :
    jobItem cfg it (.pack (.cons v todo) outer out cap) = .ok (.pack todo outer (out ++ encItem cfg it v) cap) :=
  if_pos h

theorem jobItem_pack_refuse {cfg : Config} {it : Item} {vals : Values}
    (h : vals = .nil ∨ ∃ v todo, vals = .cons v todo ∧ matchItem cfg it v = false) (outer : List Values)
    (out : List Byte) (cap : Nat) :
    jobItem cfg it (.pack vals outer out cap) = .error (.packed .errInvalidArgs []) := by
  rcases h with rfl | ⟨v, todo, rfl, h⟩
  · rfl
  · exact if_neg (by simp [h])

theorem jobItem_unpack_some {cfg : Config} {it : Item} {input : List Byte} {c c' : Nat} {v : Value}
    (h : decItem cfg input it c = some (v, c')) (got : Values) (outer : List Values) (consumed : Nat) :
    jobItem cfg it (.unpack input c got outer consumed) =
      .ok (.unpack input c' (got.snoc v) outer (consumedAfter outer consumed c')) := by
  simp [jobItem, h]

theorem jobItem_unpack_none {cfg : Config} {it : Item} {input : List Byte} {c : Nat}
    (h : decItem cfg input it c = none) (got : Values) (outer : List Values) (consumed : Nat) :
    jobItem cfg it (.unpack input c got outer consumed) =
      .error (.unpacked .errParse (topValues got outer) consumed) := by
  simp [jobItem, h]

theorem consumedAfter_eq_ite (outer : List Values) (consumed c : Nat) :
    consumedAfter outer consumed c = if outer = [] then c else consumed := by
  cases outer <;> rfl

/-! ### Each tag by its item or its list (R171 to R180) -/

theorem starAt_eq_true {desc : List Byte} {i : Nat} : starAt desc i = true ↔ desc[i]? = some 0x2A#8 :=
  decide_eq_true_iff

theorem starAt_eq_false {desc : List Byte} {i : Nat} : starAt desc i = false ↔ desc[i]? ≠ some 0x2A#8 :=
  decide_eq_false_iff_not

/-- The walk goes on at a position that holds a tag. -/
theorem walkTo_star {w : Walk} {pos : Nat} (h : w.desc[pos]? = some 0x2A#8) (s : State) (job : Job) :
    walkTo s w pos job = s.setWalk (some ⟨w.desc, pos, job⟩) :=
  walkTo_of_lt (List.getElem?_eq_some_iff.mp h).1 s job

theorem scalarTag_element {w : Walk} (h : w.desc[w.pos + 1]? = some 0x2A#8) (t : ScalarTag) (s : State) :
    scalarTag t w s = walkTo s w (w.pos + 1) w.job := by
  rw [scalarTag, if_pos (starAt_eq_true.mpr h)]

/-- A scalar tag that is no array's element takes its item. -/
theorem scalarTag_item {w : Walk} (h : w.desc[w.pos + 1]? ≠ some 0x2A#8) (t : ScalarTag) (s : State) :
    scalarTag t w s = walkOn s w (w.pos + 1) (jobItem s.cfg (.sc t) w.job) := by
  rw [scalarTag, if_neg (by simp [starAt_eq_false.mpr h])]
  cases w.job with
  | pack todo outer out cap =>
    cases todo with
    | nil => rfl
    | cons v todo =>
      by_cases hm : matchScalar s.cfg t v = true
      · simp only [if_pos hm, jobItem_pack_match (it := .sc t) hm]
        rfl
      · simp only [if_neg hm, jobItem_pack_refuse (it := .sc t) (.inr ⟨v, todo, rfl, Bool.eq_false_iff.mpr hm⟩)]
        rfl
  | unpack input c got outer consumed =>
    simp only [jobItem, decItem]
    cases unpackScalar s.cfg t input c <;> rfl

/-- The `*` takes the array of the item before it. -/
theorem arrayTag_item {w : Walk} {e : Item} (h : elementBefore w.desc w.pos = some e) (s : State) :
    arrayTag w s = walkOn s w (w.pos + 1) (jobItem s.cfg (.ar e) w.job) := by
  rw [arrayTag, h]
  cases w.job with
  | pack todo outer out cap =>
    cases todo with
    | nil => rfl
    | cons v todo =>
      by_cases hm : matchItem s.cfg (.ar e) v = true
      · simp only [if_pos hm, jobItem_pack_match hm]
        rfl
      · simp only [if_neg hm, jobItem_pack_refuse (.inr ⟨v, todo, rfl, Bool.eq_false_iff.mpr hm⟩)]
        rfl
  | unpack input c got outer consumed =>
    simp only [jobItem]
    cases decItem s.cfg input (.ar e) c <;> rfl

theorem structOpenTag_element {w : Walk} {k : Nat} (hk : matchingClose 0 (w.desc.drop (w.pos + 1)) = some k)
    (h : w.desc[w.pos + k + 2]? = some 0x2A#8) (s : State) :
    structOpenTag w s = walkTo s w (w.pos + k + 2) w.job := by
  have hpos : w.pos + 1 + k + 1 = w.pos + k + 2 := by omega
  simp only [structOpenTag, hk, hpos, starAt_eq_true.mpr h, if_true]

/-- A `(` whose structure is no array's element opens a list. -/
theorem structOpenTag_list {w : Walk} {k : Nat} (hk : matchingClose 0 (w.desc.drop (w.pos + 1)) = some k)
    (h : w.desc[w.pos + k + 2]? ≠ some 0x2A#8) (s : State) :
    structOpenTag w s = walkOn s w (w.pos + 1) (jobOpen w.job) := by
  have hpos : w.pos + 1 + k + 1 = w.pos + k + 2 := by omega
  simp only [structOpenTag, hk, hpos, starAt_eq_false.mpr h]
  cases w.job with
  | pack todo outer out cap =>
    cases todo with
    | nil => rfl
    | cons v todo => cases v <;> rfl
  | unpack input c got outer consumed => rfl

theorem structCloseTag_list (w : Walk) (s : State) :
    structCloseTag w s = walkOn s w (w.pos + 1) (jobClose w.job) := by
  unfold structCloseTag
  cases w.job with
  | pack todo outer out cap => cases todo <;> cases outer <;> rfl
  | unpack input c got outer consumed => cases outer <;> rfl

/-! ### The statements on the scalar tags (R171 to R177) -/

/-- The instruction of each scalar tag. -/
theorem eq_ofTag_of_mem {i : Instr} {t : ScalarTag}
    (h : (i, t) ∈ [(Instr.tagBool, ScalarTag.bool), (Instr.tagU8, ScalarTag.u8), (Instr.tagU16, ScalarTag.u16),
      (Instr.tagU32, ScalarTag.u32), (Instr.tagI32, ScalarTag.i32), (Instr.tagBlob, ScalarTag.blob),
      (Instr.tagUtf8, ScalarTag.utf8)]) : i = Instr.ofTag (.scalar t) := by
  simp only [List.mem_cons, Prod.mk.injEq, List.not_mem_nil, or_false] at h
  rcases h with ⟨rfl, rfl⟩ | ⟨rfl, rfl⟩ | ⟨rfl, rfl⟩ | ⟨rfl, rfl⟩ | ⟨rfl, rfl⟩ | ⟨rfl, rfl⟩ | ⟨rfl, rfl⟩ <;> rfl

theorem exec_scalarTag_element {t : ScalarTag} {s : State} {w : Walk} (hw : s.walk = some w)
    (hwf : wfDesc s.cfg w.desc = true) (hstar : w.desc[w.pos + 1]? = some 0x2A#8) :
    exec (Instr.ofTag (.scalar t)) s = .next (s.setWalk (some ⟨w.desc, w.pos + 1, w.job⟩)) := by
  rw [exec_ofTag, onWalk_wellFormed hw hwf, tagAction, scalarTag_element hstar, walkTo_star hstar]

theorem exec_scalarTag_item {t : ScalarTag} {s : State} {w : Walk} (hw : s.walk = some w)
    (hwf : wfDesc s.cfg w.desc = true) (hstar : w.desc[w.pos + 1]? ≠ some 0x2A#8) :
    exec (Instr.ofTag (.scalar t)) s = .next (walkOn s w (w.pos + 1) (jobItem s.cfg (.sc t) w.job)) := by
  rw [exec_ofTag, onWalk_wellFormed hw hwf, tagAction, scalarTag_item hstar]

/-- Settles O45: a scalar tag takes its item at the cursor, unless a `*` follows. -/
theorem scalarTagUnpacksAtTheCursor : Obligations.ScalarTagUnpacksAtTheCursor := by
  intro i t s w input c got outer consumed hi hw hwf hjob
  obtain rfl := eq_ofTag_of_mem hi
  refine ⟨fun v c' hstar hsome => ?_, fun hstar hnone => ?_, exec_scalarTag_element hw hwf⟩ <;>
    rw [exec_scalarTag_item hw hwf hstar, hjob]
  · rw [jobItem_unpack_some (it := .sc t) hsome, consumedAfter_eq_ite]
    rfl
  · rw [jobItem_unpack_none (it := .sc t) hnone]
    rfl

/-- Settles O46: a scalar tag takes the next value, unless a `*` follows. -/
theorem scalarTagPacksTheNextValue : Obligations.ScalarTagPacksTheNextValue := by
  intro i t s w vals outer out cap hi hw hwf hjob
  obtain rfl := eq_ofTag_of_mem hi
  refine ⟨fun v todo hstar hvals hm => ?_, fun hstar hbad => ?_, exec_scalarTag_element hw hwf⟩ <;>
    rw [exec_scalarTag_item hw hwf hstar, hjob]
  · rw [hvals, jobItem_pack_match (it := .sc t) hm]
    rfl
  · rw [jobItem_pack_refuse (it := .sc t) hbad]
    rfl

/-! ### The statements on `(`, `)` and `*` (R178 to R180) -/

theorem exec_arrayTag {s : State} {w : Walk} {e : Item} (hw : s.walk = some w) (hwf : wfDesc s.cfg w.desc = true)
    (he : elementBefore w.desc w.pos = some e) :
    exec .tagArray s = .next (walkOn s w (w.pos + 1) (jobItem s.cfg (.ar e) w.job)) :=
  (onWalk_wellFormed hw hwf).trans (congrArg _ (arrayTag_item he s))

/-- Settles O49: the `*` takes the array of the element before it. -/
theorem arrayTagTakesTheRest : Obligations.ArrayTagTakesTheRest := by
  intro s w e hw hwf he
  refine ⟨fun input c got outer consumed vs c' hjob hloop => ?_, fun input c got outer consumed hjob hloop => ?_,
    fun vs todo outer out cap hjob hm => ?_, fun vals outer out cap hjob hbad => ?_⟩ <;>
    rw [exec_arrayTag hw hwf he, hjob]
  · rw [jobItem_unpack_some (decItem_ar_eq_some_iff.mpr ⟨vs, hloop, rfl⟩), consumedAfter_eq_ite]
    rfl
  · rw [jobItem_unpack_none (by rw [decItem, hloop])]
    rfl
  · rw [jobItem_pack_match (by rwa [matchItem]), encItem]
    rfl
  · rw [jobItem_pack_refuse hbad]
    rfl

theorem exec_structOpenTag_list {s : State} {w : Walk} {k : Nat} (hw : s.walk = some w)
    (hwf : wfDesc s.cfg w.desc = true) (hk : matchingClose 0 (w.desc.drop (w.pos + 1)) = some k)
    (hstar : w.desc[w.pos + k + 2]? ≠ some 0x2A#8) :
    exec .tagStructOpen s = .next (walkOn s w (w.pos + 1) (jobOpen w.job)) :=
  (onWalk_wellFormed hw hwf).trans (congrArg _ (structOpenTag_list hk hstar s))

/-- A `(` that is closed is not the last tag. -/
theorem lt_of_matchingClose {desc : List Byte} {n pos k : Nat} (hk : matchingClose n (desc.drop pos) = some k) :
    pos < desc.length := by
  by_contra h
  rw [List.drop_eq_nil_of_le (Nat.le_of_not_lt h)] at hk
  cases hk

theorem jobOpen_refuse {vals : Values} (h : vals = .nil ∨ ∃ v todo, vals = .cons v todo ∧ ∀ vs, v ≠ .struct vs)
    (outer : List Values) (out : List Byte) (cap : Nat) :
    jobOpen (.pack vals outer out cap) = .error (.packed .errInvalidArgs []) := by
  rcases h with rfl | ⟨v, todo, rfl, h⟩
  · rfl
  · cases v with
    | struct vs => exact absurd rfl (h vs)
    | _ => rfl

/-- Settles O47: a `(` opens a list, unless a `*` follows its `)`. -/
theorem structOpenEntersTheList : Obligations.StructOpenEntersTheList := by
  intro s w k hw hwf hk
  have hlt := lt_of_matchingClose hk
  refine ⟨fun hstar => ?_, fun input c got outer consumed hstar hjob => ?_,
    fun vs todo outer out cap hstar hjob => ?_, fun vals outer out cap hstar hjob hbad => ?_⟩
  · have hexec := onWalk_wellFormed (act := structOpenTag) hw hwf
    rw [structOpenTag_element hk hstar, walkTo_star hstar] at hexec
    exact hexec
  · rw [exec_structOpenTag_list hw hwf hk hstar, hjob, jobOpen, walkOn, walkTo_of_lt hlt]
    rfl
  · rw [exec_structOpenTag_list hw hwf hk hstar, hjob, jobOpen, walkOn, walkTo_of_lt hlt]
    rfl
  · rw [exec_structOpenTag_list hw hwf hk hstar, hjob, jobOpen_refuse hbad]
    rfl

/-- Settles O48: a `)` goes back to the enclosing list. -/
theorem structCloseReturnsToTheList : Obligations.StructCloseReturnsToTheList := by
  intro s w hw hwf
  have hexec : exec .tagStructClose s = .next (walkOn s w (w.pos + 1) (jobClose w.job)) :=
    (onWalk_wellFormed hw hwf).trans (congrArg _ (structCloseTag_list w s))
  refine ⟨fun input c vs got outer consumed hjob => ?_, fun todo outer out cap hjob => ?_,
    fun v vs todo outer out cap hjob => ?_⟩ <;> rw [hexec, hjob, jobClose]
  · rw [consumedAfter_eq_ite]
    rfl
  · rfl
  · rfl

end Sys2Proof.Machine
end

section
/-! PROOF. The walk tag by tag against the one step of an ARG operation (42_argcodec.md R170, R182, 20_memory.md R59):
the tags of an item do to the walk's job what the item does to it, and the job at the end of the descriptor holds the
operation's results. -/

namespace Sys2Proof.Machine

/-! ### What a list of items does to a job (R170, R178, R182) -/

/-- What an item list does to the job of a walk, item by item. -/
def jobItems (cfg : Config) : Items → Job → Except Reply Job
  | .nil, job => .ok job
  | .cons it its, job => (jobItem cfg it job).bind (jobItems cfg its)

theorem jobItems_cons_ok {cfg : Config} {it : Item} {job job' : Job} (its : Items)
    (h : jobItem cfg it job = .ok job') : jobItems cfg (.cons it its) job = jobItems cfg its job' := by
  rw [jobItems, h]
  rfl

theorem jobItems_cons_error {cfg : Config} {it : Item} {job : Job} {r : Reply} (its : Items)
    (h : jobItem cfg it job = .error r) : jobItems cfg (.cons it its) job = .error r := by
  rw [jobItems, h]
  rfl

/-- Inside a structure the values that decode join the open list. -/
theorem jobItems_unpack_some {cfg : Config} {input : List Byte} {its : Items} {c c' : Nat} {vs : Values}
    (h : decItems cfg input its c = some (vs, c')) (got g : Values) (outer : List Values) (consumed : Nat) :
    jobItems cfg its (.unpack input c got (g :: outer) consumed) =
      .ok (.unpack input c' (got.append vs) (g :: outer) consumed) := by
  induction its using Items.rec (motive_1 := fun _ => True) generalizing c vs got with
  | nil =>
    cases h
    rw [Values.append_nil]
    rfl
  | cons it its _ ih =>
    obtain ⟨v, d, ws, hv, hws, rfl⟩ := decItems_cons_eq_some_iff.mp h
    rw [jobItems_cons_ok its (jobItem_unpack_some hv got (g :: outer) consumed), consumedAfter, ih hws, Values.snoc,
      Values.append_assoc]
    rfl
  | _ => trivial

/-- Inside a structure an item that starves ends the walk with the values before the structure (R187). -/
theorem jobItems_unpack_none {cfg : Config} {input : List Byte} {its : Items} {c : Nat}
    (h : decItems cfg input its c = none) (got g : Values) (outer : List Values) (consumed : Nat) :
    jobItems cfg its (.unpack input c got (g :: outer) consumed) =
      .error (.unpacked .errParse (topValues g outer) consumed) := by
  induction its using Items.rec (motive_1 := fun _ => True) generalizing c got with
  | nil => cases h
  | cons it its _ ih =>
    cases hit : decItem cfg input it c with
    | none => exact jobItems_cons_error its (jobItem_unpack_none hit got (g :: outer) consumed)
    | some r =>
      obtain ⟨v, d⟩ := r
      have hrest : decItems cfg input its d = none := by
        rw [decItems, hit] at h
        cases hd : decItems cfg input its d with
        | none => rfl
        | some q => simp [hd] at h
      rw [jobItems_cons_ok its (jobItem_unpack_some hit got (g :: outer) consumed), consumedAfter, ih hrest]
  | _ => trivial

/-- Matching values are packed one after the other. -/
theorem jobItems_pack_match {cfg : Config} {its : Items} {vals : Values} (h : matchItems cfg its vals = true)
    (outer : List Values) (out : List Byte) (cap : Nat) :
    jobItems cfg its (.pack vals outer out cap) = .ok (.pack .nil outer (out ++ encItems cfg its vals) cap) := by
  induction its using Items.rec (motive_1 := fun _ => True) generalizing vals out with
  | nil =>
    cases vals with
    | nil => simp [jobItems, encItems]
    | cons v vs => simp [matchItems] at h
  | cons it its _ ih =>
    cases vals with
    | nil => simp [matchItems] at h
    | cons v vs =>
      simp only [matchItems, Bool.and_eq_true] at h
      rw [jobItems_cons_ok its (jobItem_pack_match h.1 vs outer out cap), ih h.2, encItems, List.append_assoc]
  | _ => trivial

/-- Values that do not match are refused at an item, or one is left over (R169). -/
theorem jobItems_pack_mismatch {cfg : Config} {its : Items} {vals : Values} (h : matchItems cfg its vals = false)
    (outer : List Values) (out : List Byte) (cap : Nat) :
    jobItems cfg its (.pack vals outer out cap) = .error (.packed .errInvalidArgs []) ∨
      ∃ v todo out', jobItems cfg its (.pack vals outer out cap) = .ok (.pack (.cons v todo) outer out' cap) := by
  induction its using Items.rec (motive_1 := fun _ => True) generalizing vals out with
  | nil =>
    cases vals with
    | nil => simp [matchItems] at h
    | cons v vs => exact .inr ⟨v, vs, out, rfl⟩
  | cons it its _ ih =>
    cases vals with
    | nil => exact .inl (jobItems_cons_error its (jobItem_pack_refuse (.inl rfl) outer out cap))
    | cons v vs =>
      cases hv : matchItem cfg it v with
      | false =>
        exact .inl (jobItems_cons_error its (jobItem_pack_refuse (.inr ⟨v, vs, rfl, hv⟩) outer out cap))
      | true =>
        rw [jobItems_cons_ok its (jobItem_pack_match hv vs outer out cap)]
        exact ih (by simpa [matchItems, hv] using h) _
  | _ => trivial

/-- A structure opens its list, takes its items and closes the list (R178, R179). -/
theorem jobItem_st (cfg : Config) (its : Items) (job : Job) :
    jobItem cfg (.st its) job = (jobOpen job).bind fun j => (jobItems cfg its j).bind jobClose := by
  cases job with
  | unpack input c got outer consumed =>
    cases hd : decItems cfg input its c with
    | none =>
      rw [jobItem_unpack_none (by rw [decItem, hd]), jobOpen]
      simp only [Except.bind, jobItems_unpack_none hd]
    | some r =>
      obtain ⟨vs, c'⟩ := r
      rw [jobItem_unpack_some (decItem_st_eq_some_iff.mpr ⟨vs, hd, rfl⟩), jobOpen]
      simp only [Except.bind, jobItems_unpack_some hd, jobClose]
      rfl
  | pack vals outer out cap =>
    cases vals with
    | nil => rfl
    | cons v todo =>
      cases v with
      | struct vs =>
        cases hm : matchItems cfg its vs with
        | true =>
          rw [jobItem_pack_match (by rwa [matchItem]), jobOpen]
          simp only [Except.bind, jobItems_pack_match hm, jobClose, encItem]
        | false =>
          rw [jobItem_pack_refuse (.inr ⟨_, todo, rfl, by rwa [matchItem]⟩), jobOpen]
          rcases jobItems_pack_mismatch hm (todo :: outer) out cap with h | ⟨v, ws, out', h⟩
          · simp only [Except.bind, h]
          · simp only [Except.bind, h, jobClose]
      | _ => exact jobItem_pack_refuse (.inr ⟨_, todo, rfl, by rw [matchItem]; exact nofun⟩) outer out cap

/-! ### The results at the end of the descriptor (R186, R187) -/

/-- The reply of a walk that has come to the end of its descriptor, or has ended before. -/
def finishReply : Except Reply Job → Reply
  | .ok job => walkResult job
  | .error r => r

/-- The job of ARG_UNPACK ends with what the loop over the top-level items ends with. -/
theorem finishReply_unpack (cfg : Config) (input : List Byte) (its : Items) (got : Values) (c : Nat) :
    finishReply (jobItems cfg its (.unpack input c got [] c)) = unpackItems cfg input its got c := by
  induction its using Items.rec (motive_1 := fun _ => True) generalizing got c with
  | nil => rfl
  | cons it its _ ih =>
    rw [unpackItems]
    cases hit : decItem cfg input it c with
    | none =>
      rw [jobItems_cons_error its (jobItem_unpack_none hit got [] c)]
      rfl
    | some r =>
      obtain ⟨v, d⟩ := r
      rw [jobItems_cons_ok its (jobItem_unpack_some hit got [] c)]
      exact ih (got.snoc v) d
  | _ => trivial

/-- The job of ARG_PACK ends with the results of R186. -/
theorem finishReply_pack {cfg : Config} {desc : List Byte} {its : Items} (hits : wfItems cfg desc = some its)
    (vals : Values) (cap : Nat) :
    finishReply (jobItems cfg its (.pack vals [] [] cap)) = packReply cfg desc vals cap := by
  cases hm : matchItems cfg its vals with
  | false =>
    rw [packReply_mismatch hits hm]
    rcases jobItems_pack_mismatch hm [] [] cap with h | ⟨v, todo, out, h⟩ <;> rw [h] <;> rfl
  | true =>
    rw [jobItems_pack_match hm, List.nil_append, finishReply, walkResult]
    rcases Nat.lt_or_ge cap (encItems cfg its vals).length with hcap | hcap
    · rw [packReply_noBufs hits hm hcap]
      exact if_pos hcap
    · rw [packReply_ok hits hm hcap]
      exact if_neg (Nat.not_lt.mpr hcap)

/-! ### Runs of steps -/

theorem run_succ_eq_next_iff (M : Host.Core) {n : Nat} {s u : M.State} :
    M.run (n + 1) s = .next u ↔ ∃ t, M.step s = .next t ∧ M.run n t = .next u := by
  rw [Host.Core.run]
  cases M.step s <;> simp

/-- Some number of steps takes the machine from `s` to `t`. -/
def Leads (s t : State) : Prop := ∃ n, core.run n s = .next t

theorem Leads.refl (s : State) : Leads s s := ⟨0, rfl⟩

theorem Leads.head {s t u : State} (h : step s = .next t) : Leads t u → Leads s u := by
  rintro ⟨n, hn⟩
  exact ⟨n + 1, (run_succ_eq_next_iff core).mpr ⟨t, h, hn⟩⟩

theorem Leads.single {s t : State} (h : step s = .next t) : Leads s t := .head h (.refl t)

theorem Leads.trans {s t u : State} (h : Leads s t) (htu : Leads t u) : Leads s u := by
  obtain ⟨n, hn⟩ := h
  induction n generalizing s with
  | zero =>
    cases hn
    exact htu
  | succ n ih =>
    obtain ⟨r, hstep, hrest⟩ := (run_succ_eq_next_iff core).mp hn
    exact .head hstep (ih hrest)

/-- A walk that has ended stays so, and one that goes on goes on from there. -/
theorem Leads.bind {a s : State} {w : Walk} {pos pos' : Nat} {x : Except Reply Job} {f : Job → Except Reply Job}
    (h : Leads a (walkOn s w pos x)) (hf : ∀ job, Leads (walkTo s w pos job) (walkOn s w pos' (f job))) :
    Leads a (walkOn s w pos' (x.bind f)) := by
  cases x with
  | error r => exact h
  | ok job => exact h.trans (hf job)

/-! ### The position of a walk in its descriptor -/

theorem Tag.toByte_inj {t u : Tag} (h : t.toByte = u.toByte) : t = u :=
  Option.some.inj ((Tag.ofByte_eq_some.mpr rfl).symm.trans (Tag.ofByte_eq_some.mpr h))

theorem decode_tag_toByte (t : Tag) : decode (.tag t.toByte) = .ok (Instr.ofTag t) := by
  simp [decode, decodeTag, Tag.ofByte_eq_some.mpr rfl]

theorem step_walk {s : State} {w : Walk} {t : Tag} (hlegal : configLegal s.cfg = true) (hw : s.walk = some w)
    (htag : w.desc[w.pos]? = some t.toByte) : step s = onWalk (tagAction t) s :=
  (stepRunsTheNextTag s w _ _ hlegal hw htag (decode_tag_toByte t)).trans (exec_ofTag t s)

theorem step_walk_wellFormed {s : State} {w : Walk} {t : Tag} (hlegal : configLegal s.cfg = true)
    (hw : s.walk = some w) (htag : w.desc[w.pos]? = some t.toByte) (hwf : wfDesc s.cfg w.desc = true) :
    step s = .next (tagAction t w s) :=
  (step_walk hlegal hw htag).trans (onWalk_wellFormed hw hwf)

/-- The descriptor of the walk is `pre` and then `post`, and `pre` parses to `p` (R160, R182). -/
structure Reads (w : Walk) (pre post : List Tag) (p : ParseState) : Prop where
  desc : w.desc = (pre ++ post).map Tag.toByte
  parse : parseTags ⟨[], []⟩ pre = some p

theorem Reads.append {w : Walk} {pre mid post : List Tag} {p q : ParseState} (h : Reads w pre (mid ++ post) p)
    (hq : parseTags p mid = some q) : Reads w (pre ++ mid) post q :=
  ⟨by simp [h.desc], (parseTags_append mid h.parse).trans hq⟩

theorem Reads.tag {w : Walk} {pre post : List Tag} {p q : ParseState} {t : Tag} (h : Reads w pre (t :: post) p)
    (hq : parseTag p t = some q) : Reads w (pre ++ [t]) post q :=
  h.append (mid := [t]) (parseTags_cons [] hq)

theorem Reads.item {w : Walk} {pre post : List Tag} {p : ParseState} {it : Item}
    (h : Reads w pre (itemTags it ++ post) p) (hf : itemFormed it = true) :
    Reads w (pre ++ itemTags it) post ⟨it :: p.cur, p.outer⟩ :=
  h.append (by simpa [parseTags] using parseTags_itemTags hf p.cur p.outer [])

theorem Reads.items {w : Walk} {pre post : List Tag} {p : ParseState} {its : Items}
    (h : Reads w pre (itemsTags its ++ post) p) (hf : itemsFormed its = true) :
    Reads w (pre ++ itemsTags its) post ⟨revOnto its p.cur, p.outer⟩ :=
  h.append (by simpa [parseTags] using parseTags_itemsTags its hf p.cur p.outer [])

theorem Reads.tag_at {w : Walk} {pre post : List Tag} {p : ParseState} (h : Reads w pre post p) :
    w.desc[pre.length]? = post.head?.map Tag.toByte := by
  rw [h.desc, List.getElem?_map, List.getElem?_append_right (Nat.le_refl _), Nat.sub_self, List.head?_eq_getElem?]

theorem Reads.star_iff {w : Walk} {pre post : List Tag} {p : ParseState} (h : Reads w pre post p) :
    w.desc[pre.length]? = some 0x2A#8 ↔ post.head? = some .array := by
  rw [h.tag_at, Option.map_eq_some_iff]
  constructor
  · rintro ⟨t, ht, hb⟩
    rw [ht, Tag.toByte_inj (u := .array) hb]
  · exact fun ht => ⟨.array, ht, rfl⟩

theorem Reads.elementBefore_eq {w : Walk} {pre post : List Tag} {e : Item} {cur : List Item} {outer : List (List Item)}
    (h : Reads w pre post ⟨e :: cur, outer⟩) : elementBefore w.desc pre.length = some e := by
  have htake : w.desc.take pre.length = pre.map Tag.toByte := by simp [h.desc]
  simp [elementBefore, htake, tagsOf_eq_some.mpr rfl, h.parse]

/-- Whole items between here and a `)` do not change which `)` it is (R163). -/
theorem matchingClose_itemsTags (n : Nat) (its : Items) (ts : List Tag) :
    matchingClose n ((itemsTags its ++ ts).map Tag.toByte) =
      (matchingClose n (ts.map Tag.toByte)).map (· + (itemsTags its).length) := by
  induction its using Items.rec
    (motive_1 := fun it => ∀ n ts, matchingClose n ((itemTags it ++ ts).map Tag.toByte) =
      (matchingClose n (ts.map Tag.toByte)).map (· + (itemTags it).length))
    generalizing n ts with
  | sc t => cases t <;> rfl
  | st its ih =>
    rename_i n ts
    calc matchingClose n ((itemTags (.st its) ++ ts).map Tag.toByte)
        = (matchingClose (n + 1) ((itemsTags its ++ .structClose :: ts).map Tag.toByte)).map (· + 1) := by
          simp [itemTags, matchingClose]
      _ = (matchingClose n (ts.map Tag.toByte)).map (· + (itemTags (.st its)).length) := by
          rw [ih]
          simp [matchingClose, Tag.toByte, itemTags, Function.comp_def, Nat.add_assoc, Nat.add_comm, Nat.add_left_comm]
  | ar e ih =>
    rename_i n ts
    rw [itemTags, List.append_assoc, ih]
    simp [matchingClose, Tag.toByte, Function.comp_def, Nat.add_assoc, Nat.add_comm]
  | nil => simp [itemsTags]
  | cons it its ihit ih =>
    rw [itemsTags, List.append_assoc, ihit, ih, Option.map_map]
    simp [Function.comp_def, Nat.add_comm, Nat.add_left_comm]

theorem Reads.matchingClose_eq {w : Walk} {pre post : List Tag} {p : ParseState} {its : Items}
    (h : Reads w pre (.structOpen :: (itemsTags its ++ .structClose :: post)) p) :
    matchingClose 0 (w.desc.drop (pre.length + 1)) = some (itemsTags its).length := by
  have hdrop : w.desc.drop (pre.length + 1) = (itemsTags its ++ .structClose :: post).map Tag.toByte := by
    simp [h.desc, List.drop_append]
  rw [hdrop, matchingClose_itemsTags]
  simp [matchingClose, Tag.toByte]

/-! ### The tags of an item do what the item does (R182) -/

/-- Writes to the walk before it moves do not show. -/
theorem walkOn_setWalk (s : State) (o : Option Walk) (w : Walk) (i pos : Nat) (j : Job) (x : Except Reply Job) :
    walkOn (s.setWalk o) ⟨w.desc, i, j⟩ pos x = walkOn s w pos x := by
  cases x <;> rfl

theorem walkTo_setWalk (s : State) (o : Option Walk) (w : Walk) (i pos : Nat) (j job : Job) :
    walkTo (s.setWalk o) ⟨w.desc, i, j⟩ pos job = walkTo s w pos job := rfl

section
variable {s : State} {w : Walk} (hlegal : configLegal s.cfg = true) (hwf : wfDesc s.cfg w.desc = true)
include hlegal hwf

/-- The next step of a walk is the tag at its position. -/
theorem leads_tag {pre post : List Tag} {p : ParseState} {t : Tag} (h : Reads w pre (t :: post) p) (job : Job) :
    Leads (walkTo s w pre.length job)
      (tagAction t ⟨w.desc, pre.length, job⟩ (s.setWalk (some ⟨w.desc, pre.length, job⟩))) := by
  have htag : w.desc[pre.length]? = some t.toByte := h.tag_at
  rw [walkTo_of_lt (List.getElem?_eq_some_iff.mp htag).1]
  exact .single (step_walk_wellFormed hlegal rfl htag hwf)

theorem leads_scalar {pre post : List Tag} {p : ParseState} {t : ScalarTag} (h : Reads w pre (.scalar t :: post) p)
    (hstar : post.head? ≠ some .array) (job : Job) :
    Leads (walkTo s w pre.length job) (walkOn s w (pre.length + 1) (jobItem s.cfg (.sc t) job)) := by
  have hnext : w.desc[pre.length + 1]? ≠ some 0x2A#8 := by
    simpa using (h.tag (q := ⟨.sc t :: p.cur, p.outer⟩) rfl).star_iff.not.mpr hstar
  have hrun := leads_tag hlegal hwf h job
  rwa [tagAction, scalarTag_item (w := ⟨w.desc, pre.length, job⟩) hnext, walkOn_setWalk] at hrun

theorem leads_open {pre post : List Tag} {p : ParseState} {its : Items}
    (h : Reads w pre (.structOpen :: (itemsTags its ++ .structClose :: post)) p) (hf : itemsFormed its = true)
    (hstar : post.head? ≠ some .array) (job : Job) :
    Leads (walkTo s w pre.length job) (walkOn s w (pre.length + 1) (jobOpen job)) := by
  have hitem : Reads w (pre ++ itemTags (.st its)) post _ := Reads.item (it := .st its) (by simpa [itemTags] using h) hf
  have hnext : w.desc[pre.length + (itemsTags its).length + 2]? ≠ some 0x2A#8 := by
    simpa [itemTags, Nat.add_assoc] using hitem.star_iff.not.mpr hstar
  have hrun := leads_tag hlegal hwf h job
  rwa [tagAction, structOpenTag_list (w := ⟨w.desc, pre.length, job⟩) h.matchingClose_eq hnext, walkOn_setWalk] at hrun

theorem leads_close {pre post : List Tag} {p : ParseState} (h : Reads w pre (.structClose :: post) p) (job : Job) :
    Leads (walkTo s w pre.length job) (walkOn s w (pre.length + 1) (jobClose job)) := by
  have hrun := leads_tag hlegal hwf h job
  rwa [tagAction, structCloseTag_list, walkOn_setWalk] at hrun

theorem leads_star {pre post : List Tag} {e : Item} {cur : List Item} {outer : List (List Item)}
    (h : Reads w pre (.array :: post) ⟨e :: cur, outer⟩) (job : Job) :
    Leads (walkTo s w pre.length job) (walkOn s w (pre.length + 1) (jobItem s.cfg (.ar e) job)) := by
  have hrun := leads_tag hlegal hwf h job
  rwa [tagAction, arrayTag_item (w := ⟨w.desc, pre.length, job⟩) h.elementBefore_eq, walkOn_setWalk] at hrun

/-- An array's element is passed over to its `*` (R180). -/
theorem leads_element {pre post : List Tag} {p : ParseState} {e : Item}
    (h : Reads w pre (itemTags e ++ .array :: post) p) (hf : itemFormed (.ar e) = true) (job : Job) :
    Leads (walkTo s w pre.length job) (walkTo s w (pre.length + (itemTags e).length) job) := by
  have hstar : w.desc[pre.length + (itemTags e).length]? = some 0x2A#8 := by
    simpa using (h.item (itemFormed_of_array hf)).star_iff.mpr rfl
  cases e with
  | sc t =>
    have hrun := leads_tag hlegal hwf h job
    rwa [tagAction, scalarTag_element (w := ⟨w.desc, pre.length, job⟩) hstar, walkTo_setWalk] at hrun
  | st its =>
    simp only [itemTags, List.cons_append, List.append_assoc, List.nil_append] at h
    have hlen : pre.length + (itemTags (.st its)).length = pre.length + (itemsTags its).length + 2 := by
      simp [itemTags]
      omega
    rw [hlen] at hstar ⊢
    have hrun := leads_tag hlegal hwf h job
    rwa [tagAction, structOpenTag_element (w := ⟨w.desc, pre.length, job⟩) h.matchingClose_eq hstar,
      walkTo_setWalk] at hrun
  | ar e => simp [itemFormed] at hf

/-- The tags of an item list do to the job what the list does. -/
theorem leads_items {its : Items} {pre post : List Tag} {p : ParseState} (h : Reads w pre (itemsTags its ++ post) p)
    (hf : itemsFormed its = true) (hstar : post.head? ≠ some .array) (job : Job) :
    Leads (walkTo s w pre.length job)
      (walkOn s w (pre.length + (itemsTags its).length) (jobItems s.cfg its job)) := by
  induction its using Items.rec
    (motive_1 := fun it => ∀ pre post p, Reads w pre (itemTags it ++ post) p → itemFormed it = true →
      post.head? ≠ some .array → ∀ job, Leads (walkTo s w pre.length job)
        (walkOn s w (pre.length + (itemTags it).length) (jobItem s.cfg it job)))
    generalizing pre post p job with
  | sc t =>
    rename_i pre post p h hf hstar job
    exact leads_scalar hlegal hwf h hstar job
  | st its ih =>
    rename_i pre post p h hf hstar job
    simp only [itemTags, List.cons_append, List.append_assoc, List.nil_append] at h
    have hopen : Reads w (pre ++ [.structOpen]) (itemsTags its ++ .structClose :: post) ⟨[], p.cur :: p.outer⟩ :=
      h.tag rfl
    rw [jobItem_st]
    refine (leads_open hlegal hwf h hf hstar job).bind fun j => ?_
    have hits := ih hopen hf (by simp) j
    have hclose := leads_close hlegal hwf (hopen.items hf)
    simp only [List.length_append, List.length_singleton] at hits hclose
    have hlen : (itemTags (.st its)).length = 1 + (itemsTags its).length + 1 := by simp [itemTags]; omega
    rw [hlen, ← Nat.add_assoc, ← Nat.add_assoc]
    exact hits.bind hclose
  | ar e ih =>
    rename_i pre post p h hf hstar job
    rw [itemTags, List.append_assoc] at h
    have he := leads_element hlegal hwf h hf job
    have hrun := leads_star hlegal hwf (h.item (itemFormed_of_array hf)) job
    rw [List.length_append] at hrun
    rw [itemTags, List.length_append, ← Nat.add_assoc]
    exact he.trans hrun
  | nil => exact .refl _
  | cons it its ihit ih =>
    simp only [itemsFormed, Bool.and_eq_true] at hf
    rw [itemsTags, List.append_assoc] at h
    have hnext : (itemsTags its ++ post).head? ≠ some .array := by
      cases its with
      | nil => exact hstar
      | cons jt js =>
        obtain ⟨t, ts, hts, -, hne⟩ := itemTags_eq_cons jt
        simpa [itemsTags, hts] using hne
    have hrest := fun j => ih (h.item hf.1) hf.2 hstar j
    simp only [List.length_append] at hrest
    rw [jobItems, itemsTags, List.length_append, ← Nat.add_assoc]
    exact (ihit _ _ _ h hf.1 hnext job).bind hrest

end

/-! ### The walk of an ARG operation (R59) -/

theorem walkOn_end {w : Walk} {pos : Nat} (h : w.desc.length ≤ pos) (s : State) (x : Except Reply Job) :
    walkOn s w pos x = walkClose s (finishReply x) := by
  cases x with
  | ok job => exact walkTo_of_le h s job
  | error r => rfl

/-- A walk in progress stands where it is, or has come to the end of its descriptor. -/
theorem leads_start {s : State} {w : Walk} (hlegal : configLegal s.cfg = true) (hw : s.walk = some w) :
    Leads s (walkTo s w w.pos w.job) := by
  rcases Nat.lt_or_ge w.pos w.desc.length with hlt | hge
  · have hs : s.setWalk (some w) = s := by rw [← hw]; rfl
    rw [walkTo_of_lt hlt, hs]
    exact .refl s
  · refine .single (step_of_fetch_done ?_)
    rw [fetch_walk hlegal hw, fetchTag, List.getElem?_eq_none hge, walkTo_of_le hge]

/-- The walk of a well-formed descriptor ends with what its items do to its job. -/
theorem leads_wellFormed {s : State} {desc : List Byte} {job : Job} {its : Items} (hlegal : configLegal s.cfg = true)
    (hw : s.walk = some ⟨desc, 0, job⟩) (hits : wfItems s.cfg desc = some its) :
    Leads s (walkClose s (finishReply (jobItems s.cfg its job))) := by
  obtain ⟨hdesc, hf, -⟩ := wfItems_tags hits
  have hreads : Reads ⟨desc, 0, job⟩ [] (itemsTags its ++ []) ⟨[], []⟩ := ⟨by simp [hdesc], rfl⟩
  have hrun := leads_items hlegal (by simp [wfDesc, hits]) hreads hf (by simp) job
  rw [walkOn_end (by simp [hdesc])] at hrun
  exact (leads_start hlegal hw).trans hrun

/-- The walk of an ill-formed descriptor ends at its first byte (R168). -/
theorem leads_illFormed {s : State} {desc : List Byte} {job : Job} (hlegal : configLegal s.cfg = true)
    (hw : s.walk = some ⟨desc, 0, job⟩) (hbad : wfItems s.cfg desc = none) :
    Leads s (walkClose s (badDescReply job)) := by
  cases desc with
  | nil => cases hbad
  | cons b rest =>
    refine .single ?_
    cases hb : Tag.ofByte b with
    | none =>
      refine step_of_fetch_done ?_
      rw [fetch_walk hlegal hw]
      simp [fetchTag, decode, decodeTag, hb]
    | some t =>
      obtain rfl := Tag.ofByte_eq_some.mp hb
      exact (step_walk hlegal hw rfl).trans (onWalk_illFormed hw (by simp [wfDesc, hbad]))

/-- Settles O50: the walk of ARG_UNPACK ends with the loop over the top-level items. -/
theorem tagWalkComputesArgUnpack : Obligations.TagWalkComputesArgUnpack := by
  intro s desc input hlegal hw
  cases hits : wfItems s.cfg desc with
  | none =>
    rw [unpackReply_illFormed hits]
    exact leads_illFormed hlegal hw hits
  | some its =>
    rw [unpackReply_wellFormed hits, ← finishReply_unpack]
    exact leads_wellFormed hlegal hw hits

/-- Settles O51: the walk of ARG_PACK ends with the results of R186. -/
theorem tagWalkComputesArgPack : Obligations.TagWalkComputesArgPack := by
  intro s desc vals cap hlegal hw
  cases hits : wfItems s.cfg desc with
  | none =>
    rw [packReply_illFormed hits]
    exact leads_illFormed hlegal hw hits
  | some its =>
    rw [← finishReply_pack hits]
    exact leads_wellFormed hlegal hw hits

end Sys2Proof.Machine
end

section
/-! PROOF. The reply an operation ends with (60_exceptions.md R220, R221, R231): one reply, either `OK`, or an error its
row of R221 marks in the state it started from. -/

namespace Sys2Proof.Machine

/-- The results beside the status are empty, but for the values before an `ERR_PARSE` (R231). -/
def Reply.EmptyResults : Reply → Prop
  | .status _ => True
  | .packed _ out => out = []
  | .unpacked st vals consumed => st ≠ .errParse → vals = .nil ∧ consumed = 0

theorem Reply.EmptyResults.packed_out {r : Reply} (h : r.EmptyResults) {st : Status} {out : List Byte}
    (hr : r = .packed st out) : out = [] := by
  subst hr
  exact h

theorem Reply.EmptyResults.unpacked_vals {r : Reply} (h : r.EmptyResults) {st : Status} {vals : Values} {k : Nat}
    (hr : r = .unpacked st vals k) (hst : st ≠ .errParse) : vals = .nil ∧ k = 0 := by
  subst hr
  exact h hst

/-- How the operation `i` ends from `s`: with `OK` after writes that leave the replies alone, or with an error of its
row of R221 and no write at all. -/
inductive Answers (i : Instr) (s : State) : State → Prop
  | ok {u : State} {r : Reply} : u.replies = s.replies → r.st = .ok → Answers i s (u.respond r)
  | error {r : Reply} : r.st ∈ allowedStatuses i → r.EmptyResults → Answers i s (s.respond r)

/-- Every row of R221 marks `OK`. -/
theorem ok_mem_allowedStatuses (i : Instr) : .ok ∈ allowedStatuses i := by
  cases i <;> exact List.mem_cons_self

theorem Answers.okStatus {i : Instr} {s u : State} (h : u.replies = s.replies) :
    Answers i s (u.respond (.status .ok)) :=
  .ok h rfl

theorem Answers.errorStatus {i : Instr} {s : State} {st : Status} (h : st ∈ allowedStatuses i) :
    Answers i s (s.respond (.status st)) :=
  .error h trivial

/-! ### What an answer says -/

theorem Answers.reply {i : Instr} {s t : State} (h : Answers i s t) :
    ∃ r, t.replies = s.replies ++ [r] ∧ r.st ∈ allowedStatuses i := by
  cases h with
  | @ok u r hu hr => exact ⟨r, by rw [State.respond_replies, hu], hr ▸ ok_mem_allowedStatuses i⟩
  | @error r hr _ => exact ⟨r, State.respond_replies .., hr⟩

theorem Answers.of_error {i : Instr} {s t : State} {r : Reply} (h : Answers i s t)
    (hreply : t.replies = s.replies ++ [r]) (hr : r.st ≠ .ok) : t = s.respond r ∧ r.EmptyResults := by
  cases h with
  | ok hu hok =>
    rw [State.respond_replies, hu, List.append_cancel_left_eq, List.singleton_inj] at hreply
    exact absurd (hreply ▸ hok) hr
  | error _ hempty =>
    rw [State.respond_replies, List.append_cancel_left_eq, List.singleton_inj] at hreply
    exact ⟨hreply ▸ rfl, hreply ▸ hempty⟩

/-! ### The replies of the ARG operations (R186, R187) -/

theorem packReply_ok_or_error (c : Config) (desc : List Byte) (vals : Values) (cap : Nat) :
    (packReply c desc vals cap).st = .ok ∨
      ∃ st, st ∈ [.errNoBufs, .errInvalidArgs, .errBadDesc] ∧ packReply c desc vals cap = .packed st [] := by
  cases hits : wfItems c desc with
  | none => exact .inr ⟨.errBadDesc, by decide, packReply_illFormed hits vals cap⟩
  | some its =>
    cases hm : matchItems c its vals with
    | false => exact .inr ⟨.errInvalidArgs, by decide, packReply_mismatch hits hm cap⟩
    | true =>
      rcases Nat.lt_or_ge cap (encItems c its vals).length with hcap | hcap
      · exact .inr ⟨.errNoBufs, by decide, packReply_noBufs hits hm hcap⟩
      · exact .inl (by rw [packReply_ok hits hm hcap]; rfl)

/-- The loop over the top-level items replies with values and a cursor, whether or not an item starves. -/
theorem unpackItems_form (cfg : Config) (input : List Byte) (its : Items) (got : Values) (c : Nat) :
    ∃ st vals k, unpackItems cfg input its got c = .unpacked st vals k := by
  induction its using Items.rec (motive_1 := fun _ => True) generalizing got c with
  | nil => exact ⟨_, _, _, rfl⟩
  | cons it its _ ih =>
    rw [unpackItems]
    cases decItem cfg input it c with
    | none => exact ⟨_, _, _, rfl⟩
    | some r => exact ih _ _
  | _ => trivial

theorem unpackReply_ok_or_error (c : Config) (desc input : List Byte) :
    (unpackReply c desc input).st = .ok ∨
      unpackReply c desc input = .unpacked .errBadDesc .nil 0 ∨
      ∃ vals k, unpackReply c desc input = .unpacked .errParse vals k := by
  cases hits : wfItems c desc with
  | none => exact .inr (.inl (unpackReply_illFormed hits input))
  | some its =>
    rw [unpackReply_wellFormed hits]
    rcases unpackItems_st c input its .nil 0 with hst | hst
    · exact .inl hst
    · obtain ⟨st, vals, k, hform⟩ := unpackItems_form c input its .nil 0
      obtain rfl : st = .errParse := by rwa [hform] at hst
      exact .inr (.inr ⟨vals, k, hform⟩)

/-! ### Each operation -/

theorem execArgPack_answers {desc : List Byte} {vals : Values} {cap : Nat} {s t : State}
    (h : execArgPack desc vals cap s = .next t) : Answers (.argPack desc vals cap) s t := by
  obtain rfl := execArgPack_next h
  rcases packReply_ok_or_error s.cfg desc vals cap with hok | ⟨st, hst, hr⟩
  · exact .ok rfl hok
  · rw [hr]
    exact .error (List.mem_cons_of_mem _ hst) rfl

theorem execArgUnpack_answers {desc input : List Byte} {s t : State} (h : execArgUnpack desc input s = .next t) :
    Answers (.argUnpack desc input) s t := by
  obtain rfl := execArgUnpack_next h
  rcases unpackReply_ok_or_error s.cfg desc input with hok | hr | ⟨vals, k, hr⟩
  · exact .ok rfl hok
  · rw [hr]
    exact .error (by simp [allowedStatuses, Reply.st]) fun _ => ⟨rfl, rfl⟩
  · rw [hr]
    exact .error (by simp [allowedStatuses, Reply.st]) fun hne => absurd rfl hne

theorem execHdlcRxByte_answers {b : Byte} {s t : State} (h : execHdlcRxByte b s = .next t) :
    Answers (.hdlcRxByte b) s t := by
  obtain ⟨u, hu, rfl⟩ := execHdlcRxByte_next h
  obtain ⟨x, rfl | ⟨e, rfl⟩⟩ := rxByte_writes hu
  · exact .okStatus rfl
  · exact .okStatus rfl

theorem execFlenRxByte_answers {b : Byte} {s t : State} (h : execFlenRxByte b s = .next t) :
    Answers (.flenRxByte b) s t := by
  obtain ⟨u, hu, rfl⟩ := execFlenRxByte_next h
  obtain ⟨x, rfl | ⟨e, rfl⟩⟩ := flenByte_writes hu
  · exact .okStatus rfl
  · exact .okStatus rfl

theorem exec_operation_answers {i : Instr} {s t : State} (hi : isOperation i) (h : exec i s = .next t) :
    Answers i s t := by
  cases i with
  | reset =>
    obtain rfl := execReset_next h
    exact .okStatus rfl
  | hdlcTxFrame p =>
    rcases execHdlcTxFrame_next h with ⟨-, rfl⟩ | ⟨-, -, rfl⟩ | ⟨-, -, rfl⟩
    · exact .errorStatus (by simp [allowedStatuses])
    · exact .errorStatus (by simp [allowedStatuses])
    · exact .okStatus rfl
  | hdlcTxBegin =>
    rcases execHdlcTxBegin_next h with ⟨-, rfl⟩ | ⟨-, rfl⟩
    · exact .errorStatus (by simp [allowedStatuses])
    · exact .okStatus rfl
  | hdlcTxByte b =>
    rcases execHdlcTxByte_next h with ⟨-, rfl⟩ | ⟨-, -, rfl⟩ | ⟨-, -, rfl⟩
    · exact .errorStatus (by simp [allowedStatuses])
    · exact .errorStatus (by simp [allowedStatuses])
    · exact .okStatus rfl
  | hdlcTxEnd =>
    rcases execHdlcTxEnd_next h with ⟨-, rfl⟩ | ⟨-, rfl⟩
    · exact .errorStatus (by simp [allowedStatuses])
    · exact .okStatus rfl
  | hdlcTxAbort =>
    rcases execHdlcTxAbort_next h with ⟨-, rfl⟩ | ⟨-, rfl⟩
    · exact .errorStatus (by simp [allowedStatuses])
    · exact .okStatus rfl
  | hdlcRxByte b => exact execHdlcRxByte_answers h
  | flenTxFrame p =>
    rcases execFlenTxFrame_next h with ⟨-, rfl⟩ | ⟨-, rfl⟩
    · exact .errorStatus (by simp [allowedStatuses])
    · exact .okStatus rfl
  | flenRxByte b => exact execFlenRxByte_answers h
  | flenRxAbort =>
    rcases execFlenRxAbort_next h with ⟨-, rfl⟩ | ⟨-, rfl⟩
    · exact .okStatus rfl
    · exact .okStatus rfl
  | argPack desc vals cap => exact execArgPack_answers h
  | argUnpack desc input => exact execArgUnpack_answers h
  | tagBool | tagU8 | tagU16 | tagU32 | tagI32 | tagBlob | tagUtf8 | tagStructOpen | tagStructClose | tagArray =>
    obtain ⟨_, he⟩ := hi
    cases he

/-- Settles O56: every operation answers with `OK` or with an error of its row. -/
theorem everyOperationReturnsAStatusOfTheTable : Obligations.EveryOperationReturnsAStatusOfTheTable :=
  fun _ _ _ hi h => (exec_operation_answers hi h).reply

/-- Settles O57: an answer with an error is the old state with that reply. -/
theorem anErrorChangesNothing : Obligations.AnErrorChangesNothing := by
  intro i s t r hi h hreply hr
  obtain ⟨ht, hempty⟩ := (exec_operation_answers hi h).of_error hreply hr
  exact ⟨ht, fun _ _ => hempty.packed_out, fun _ _ _ => hempty.unpacked_vals⟩

end Sys2Proof.Machine
end

section
/-! PROOF. RESET and power-on (70_reset_and_hazards.md R250 to R253). -/

namespace Sys2Proof.Machine

/-- RESET has no guard: from every state it ends with `OK` and every unit idle, after the abort of an open frame. -/
theorem exec_reset (s : State) :
    exec .reset s =
      .next (((((s.emitH (resetBytes s)).setTx (txIdle s.cfg)).setRx ⟨.hunt, 0, s.rx.buf⟩).setFl
        (flIdle s.fl)).respond (.status .ok)) :=
  congrArg Host.Outcome.next (execReset_next rfl)

/-- Settles O35: the fields of the idle units and of the appended bytes, read off the state RESET ends in. -/
theorem resetIdlesEveryUnit : Obligations.ResetIdlesEveryUnit :=
  ⟨rfl, exec_reset⟩

/-- Settles O52: each field of the power-on record has its value of R42 by definition. -/
theorem powerOnValues : Obligations.PowerOnValues :=
  ⟨rfl, rfl, rfl, rfl, rfl, rfl, rfl, rfl, rfl, rfl, rfl, rfl⟩

end Sys2Proof.Machine
end

section
/-! PROOF. The decoder and the encoder (30_encoding.md R70, R72, R80, R81): in each encoding space a word decodes to an
instruction exactly when it is that instruction's encoding. -/

namespace Sys2Proof.Machine

/-! ### Decoding an encoding -/

@[simp] theorem encode_ofTag (t : Tag) : encode (Instr.ofTag t) = .tag t.toByte := by
  cases t with
  | scalar u => cases u <;> rfl
  | structOpen => rfl
  | structClose => rfl
  | array => rfl

/-- Each operation's opcode selects its own row of R72, and the row hands every operand back. -/
theorem decode_encode_operation {i : Instr} (hi : isOperation i) : decode (encode i) = .ok i := by
  cases i with
  | tagBool | tagU8 | tagU16 | tagU32 | tagI32 | tagBlob | tagUtf8 | tagStructOpen | tagStructClose | tagArray =>
    obtain ⟨_, he⟩ := hi
    cases he
  | _ => rfl

@[simp] theorem decode_encode (i : Instr) : decode (encode i) = .ok i := by
  rcases isOperation_or_eq_ofTag i with hi | ⟨t, rfl⟩
  · exact decode_encode_operation hi
  · rw [encode_ofTag, decode_tag_toByte]

/-! ### Encoding what was decoded -/

/-- A row of R72 answers only for its own opcode and its own operands, and those are what it encodes to. -/
theorem encode_of_decodeOp {r : Request} {i : Instr} (h : decodeOp r = .ok i) : encode i = .op r := by
  obtain ⟨opcode, operands⟩ := r
  unfold decodeOp at h
  iterate 12
    rcases ite_eq_cases h with ⟨hop, h⟩ | ⟨_, h⟩
    · cases hop
      split at h
      · next hargs =>
        cases hargs
        cases h
        rfl
      · cases h
  cases h

theorem encode_of_decodeTag {b : Byte} {i : Instr} (h : decodeTag b = .ok i) : encode i = .tag b := by
  cases ht : Tag.ofByte b with
  | some t =>
    simp only [decodeTag, ht] at h
    cases h
    rw [encode_ofTag, Tag.ofByte_eq_some.mp ht]
  | none => simp [decodeTag, ht] at h

/-- A code word means an instruction exactly when it is the encoding of it. -/
theorem decode_eq_ok_iff {w : Code} {i : Instr} : decode w = .ok i ↔ encode i = w := by
  constructor
  · intro h
    cases w with
    | op r => exact encode_of_decodeOp h
    | tag b => exact encode_of_decodeTag h
  · rintro rfl
    exact decode_encode i

/-! ### The statements -/

/-- Settles O2: both directions of `decode_eq_ok_iff`. -/
theorem decodeAndEncodeAgree : Obligations.DecodeAndEncodeAgree :=
  ⟨decode_encode, fun _ _ => decode_eq_ok_iff.mp⟩

/-- Settles O1: each of the nine words is, written out, the encoding of the instruction of its row. -/
theorem decodeReadsTheWordsOfTheSpec : Obligations.DecodeReadsTheWordsOfTheSpec :=
  ⟨decode_encode .reset, decode_encode (.hdlcTxFrame [0x7E#8, 0x01#8]), decode_encode (.hdlcTxByte 0x7E#8),
    decode_encode (.flenRxByte 0x02#8), decode_encode .flenRxAbort, decode_encode (.argUnpack [0x43#8] [0x05#8]),
    decode_encode .tagI32, decode_encode .tagStructOpen, decode_encode .tagStructClose⟩

end Sys2Proof.Machine
end
